-- ==== Sys2Proof/Word.lean ====
section
/-! DEFINITION. The word types of the block: the widths of 00_scope.md rule R2 and the bit vectors they
give. -/

namespace Sys2Proof

/-- The widths that R2 makes parameters. -/
structure Widths where
  /-- `CW`, of each current edge counter port and of `prev_raw` (D5) -/
  cw : Nat
  /-- `AW`, of the integrator, comb and output registers (D6) -/
  aw : Nat
  /-- `CTR_W`, of the event counters (D50) -/
  ctr : Nat
  deriving DecidableEq, Repr

/-- The value R2's table gives each width: 32. -/
def Widths.default : Widths := ⟨32, 32, 32⟩

/-- `POS_W`, the width of the position counter (R2, R3: the source's value, fixed). -/
abbrev POS_W : Nat := 16

/-- The width of the calibration sums `cal_sum` (R17). -/
abbrev SUM_W : Nat := 64

/-- The width of the operation word `ev` (R63). -/
abbrev EV_W : Nat := 5

/-- A word of a current edge counter. -/
abbrev Count (w : Widths) := BitVec w.cw

/-- A word of an integrator, a comb or a decimated output. -/
abbrev Acc (w : Widths) := BitVec w.aw

/-- A word of an event counter. -/
abbrev Ctr (w : Widths) := BitVec w.ctr

/-- A word of the position counter. -/
abbrev Pos := BitVec POS_W

/-- A word of a calibration sum. -/
abbrev Sum := BitVec SUM_W

/-- The operation word `ev[4:0]` (R63). -/
abbrev EvWord := BitVec EV_W

/-- The measured motor phases (R13: "one instance per phase, U and V"). -/
inductive Phase where
  | u
  | v
  deriving DecidableEq, Repr, Inhabited

end Sys2Proof
end

