-- ==== Sys2Proof/Syntax.lean ====
section
/-! DEFINITION. The operations of the block, one constructor per row of spec/opcode_table.json
(30_encoding.md rules R65 and R67), the three agents that perform them (00_scope.md rule R1), and
the trace language of rules R74 and R75. -/

namespace Sys2Proof

/-- The twenty operations. An operation word carries no operand (R64), so no constructor does:
every operand is a port or a register. -/
inductive Instr where
  /-- 00000, event: nothing happens (R66). -/
  | idle
  /-- 00001, event: the sampling interrupt (R77). -/
  | sample
  /-- 00010, event: the control interrupt (R119). -/
  | control
  /-- 00011, event: one foreground step (R153). -/
  | fg
  /-- 10000: delta, clamp, median, three integrators (R78). -/
  | filt
  /-- 10001: three combs, output delay line, `out_cnt` (R89). -/
  | decimate
  /-- 10010: weighted average, offset removal, phase currents (R94). -/
  | curacq
  /-- 10011: mode state machine and the two current PIs (R124). -/
  | curloop
  /-- 10100: angle update (R127). -/
  | angupd
  /-- 10101: one tick of the alignment sequence (R128). -/
  | align
  /-- 10110: wrap compensation, compensated count, angle (R104). -/
  | posupd
  /-- 10111: inverse Park, space-vector PWM, duty write (R141). -/
  | dutygen
  /-- 11000: arm interrupts, default direction (R156). -/
  | init
  /-- 11001: reset control parameters (R172). -/
  | cpreset
  /-- 11010: first half of the motor-start sequence (R174). -/
  | mstartBegin
  /-- 11011: one poll of the settle wait (R99). -/
  | settlepoll
  /-- 11100: one poll of the calibration accumulation (R100). -/
  | calpoll
  /-- 11101: enable PWM, clear fault (R175). -/
  | mstartEnd
  /-- 11110: motor-stop sequence (R177). -/
  | mstop
  /-- 11111: ramp, velocity estimate, velocity PI (R166). -/
  | slowloop
  deriving DecidableEq, Repr, Inhabited

/-- The class bit `cls` of an operation word (R63). -/
inductive OpClass where
  /-- issued by the environment on the event port -/
  | event
  /-- invoked only by another operation -/
  | subOperation
  deriving DecidableEq, Repr

/-- The class of an operation (R65, R67). -/
def Instr.opClass : Instr → OpClass
  | .idle => .event
  | .sample => .event
  | .control => .event
  | .fg => .event
  | .filt => .subOperation
  | .decimate => .subOperation
  | .curacq => .subOperation
  | .curloop => .subOperation
  | .angupd => .subOperation
  | .align => .subOperation
  | .posupd => .subOperation
  | .dutygen => .subOperation
  | .init => .subOperation
  | .cpreset => .subOperation
  | .mstartBegin => .subOperation
  | .settlepoll => .subOperation
  | .calpoll => .subOperation
  | .mstartEnd => .subOperation
  | .mstop => .subOperation
  | .slowloop => .subOperation

/-- The three agents (R1). -/
inductive Agent where
  /-- S, performs SAMPLE -/
  | sampling
  /-- C, performs CONTROL -/
  | control
  /-- F, performs FG and every sub-operation FG invokes -/
  | foreground
  deriving DecidableEq, Repr

/-- The agent inside whose event an operation runs (R65, R67). IDLE is no agent's; it is listed with
the foreground, which never preempts. -/
def Instr.agent : Instr → Agent
  | .idle => .foreground
  | .sample => .sampling
  | .control => .control
  | .fg => .foreground
  | .filt => .sampling
  | .decimate => .sampling
  | .curacq => .control
  | .curloop => .control
  | .angupd => .control
  | .align => .control
  | .posupd => .control
  | .dutygen => .control
  | .init => .foreground
  | .cpreset => .foreground
  | .mstartBegin => .foreground
  | .settlepoll => .foreground
  | .calpoll => .foreground
  | .mstartEnd => .foreground
  | .mstop => .foreground
  | .slowloop => .foreground

/-- The five button ports, each 1 when a debounced press event is presented (R49). -/
structure Buttons where
  start : Bool := false
  inc : Bool := false
  dec : Bool := false
  reset : Bool := false
  dir : Bool := false
  deriving DecidableEq, Repr, Inhabited

/-- A line of a trace as it is written (R74), pseudo-operations included (R75). The numbers are
the integers of the text: whether they fit their ports is a check of WellFormed.lean. -/
inductive TraceLine where
  /-- `RESET`: assert `rst` -/
  | reset
  /-- `IDLE` -/
  | idle
  /-- `SAMPLE [u=] [v=]` -/
  | sample (u v : Option Int)
  /-- `CONTROL [pos=]` -/
  | control (pos : Option Int)
  /-- `FG [pos=] [buttons]` -/
  | fg (pos : Option Int) (btn : Buttons)
  /-- `DISPATCH [buttons] [pos=]`: one FG, then further FG while `fg_phase` is not IDLE -/
  | dispatch (pos : Option Int) (btn : Buttons)
  /-- `SAMPLES n du= dv=` -/
  | samples (n : Nat) (du dv : Int)
  /-- `CONTROLS n [dpos=]` -/
  | controls (n : Nat) (dpos : Option Int)
  deriving DecidableEq, Repr

end Sys2Proof
end

