-- ==== Sys2Proof/WellFormed.lean ====
section
/-! DEFINITION. The checks the spec makes before it admits a term: which operations the event port
admits (R65, R68) and which trace lines are well formed (R74). The constraints on a configuration (R2)
are `Config.paramsOk`. An operation word carries no operand (R64), so an `Instr` has nothing else
that could be ill formed. -/

namespace Sys2Proof

/-- An operation the event port admits: an event, `cls` = 0 (R65, R68). -/
def Instr.onEventPort (i : Instr) : Bool :=
  match i.opClass with
  | .event => true
  | .subOperation => false

/-- The integer `v` fits an input port of `w` bits (R74). -/
def fitsPort (w : Nat) (v : Int) : Bool := decide (0 ≤ v) && decide (v < 2 ^ w)

/-- A port setting of a trace line, absent or fitting (R74). -/
def fitsPortOpt (w : Nat) : Option Int → Bool
  | none => true
  | some v => fitsPort w v

/-- "A trace is well formed when every `u`, `v` fits in `CW` bits and every `pos` in 16 bits." (R74).
The increments of a pseudo-operation are reduced modulo the width (R75), so they are not checked. -/
def TraceLine.wf (w : Widths) : TraceLine → Bool
  | .reset => true
  | .idle => true
  | .sample u v => fitsPortOpt w.cw u && fitsPortOpt w.cw v
  | .control pos => fitsPortOpt POS_W pos
  | .fg pos _ => fitsPortOpt POS_W pos
  | .dispatch pos _ => fitsPortOpt POS_W pos
  | .samples _ _ _ => true
  | .controls _ _ => true

/-- A well-formed trace (R74). -/
def traceWf (w : Widths) (t : List TraceLine) : Bool := t.all (TraceLine.wf w)

end Sys2Proof
end

