-- ==== Sys2Proof/Decode.lean ====
section
/-! DEFINITION. The decoder of the 5-bit operation word (30_encoding.md rules R63, R65, R67, R68), total
on every word and on every sequence of bytes, and the encoder written from the same table. -/

namespace Sys2Proof

/-- Why a word or a sequence of bytes is no operation. -/
inductive DecodeError where
  /-- Words 00100 to 01111, reserved (R68). -/
  | reserved (word : EvWord)
  /-- A byte whose bits above the operation word are not zero: no word of the block (R62, R63). -/
  | notAWord (byte : BitVec 8)
  /-- No byte at all. -/
  | empty
  deriving DecidableEq, Repr

/-- The opcode map of R65 and R67, by the value of `ev[4:0]`; `none` for the words with no row. -/
def opcodeOf : Nat → Option Instr
  | 0 => some .idle
  | 1 => some .sample
  | 2 => some .control
  | 3 => some .fg
  | 16 => some .filt
  | 17 => some .decimate
  | 18 => some .curacq
  | 19 => some .curloop
  | 20 => some .angupd
  | 21 => some .align
  | 22 => some .posupd
  | 23 => some .dutygen
  | 24 => some .init
  | 25 => some .cpreset
  | 26 => some .mstartBegin
  | 27 => some .settlepoll
  | 28 => some .calpoll
  | 29 => some .mstartEnd
  | 30 => some .mstop
  | 31 => some .slowloop
  | _ => none

/-- Decoding an operation word: total, and reserved words are rejected by name (R68, R76). -/
def decode (w : EvWord) : Except DecodeError Instr :=
  match opcodeOf w.toNat with
  | some i => .ok i
  | none => .error (.reserved w)

/-- Decoding the first operation of a sequence of bytes, one byte a word (R62: a word is serialised
little-endian in its width rounded up to whole bytes). The rest of the bytes comes back. -/
def decodeBytes : List (BitVec 8) → Except DecodeError (Instr × List (BitVec 8))
  | [] => .error .empty
  | b :: rest =>
    if b.toNat < 2 ^ EV_W then
      match decode (b.setWidth EV_W) with
      | .ok i => .ok (i, rest)
      | .error e => .error e
    else .error (.notAWord b)

/-- The operation number `op` of R63. -/
def opNumber : Instr → BitVec 4
  | .idle => 0#4
  | .sample => 1#4
  | .control => 2#4
  | .fg => 3#4
  | .filt => 0#4
  | .decimate => 1#4
  | .curacq => 2#4
  | .curloop => 3#4
  | .angupd => 4#4
  | .align => 5#4
  | .posupd => 6#4
  | .dutygen => 7#4
  | .init => 8#4
  | .cpreset => 9#4
  | .mstartBegin => 10#4
  | .settlepoll => 11#4
  | .calpoll => 12#4
  | .mstartEnd => 13#4
  | .mstop => 14#4
  | .slowloop => 15#4

/-- The class bit `cls` of R63. -/
def classBit (i : Instr) : BitVec 1 :=
  match i.opClass with
  | .event => 0#1
  | .subOperation => 1#1

/-- Encoding an operation: `ev[4:0]` = {`cls`, `op`} (R63). -/
def encode (i : Instr) : EvWord := classBit i ++ opNumber i

/-- Encoding as bytes: the word in one byte, the bits above it zero (R62). -/
def encodeBytes (i : Instr) : List (BitVec 8) := [(encode i).setWidth 8]

/-- The bytes of an instruction of `nbits` bits whose bits are `w`, the first word's byte first. -/
def wordBytes : Nat → Nat → List (BitVec 8)
  | 0, _ => []
  | k + 1, w => BitVec.ofNat 8 w :: wordBytes k (w / 256)

/-- The instruction the decoder reads from an instruction of `nbits` bits whose bits are `w`. -/
def decodeTableWord (nbits w : Nat) : Option Instr :=
  match decodeBytes (wordBytes ((nbits + 7) / 8) (w % 2 ^ nbits)) with
  | .ok (i, _) => some i
  | .error _ => none

end Sys2Proof
end

