-- ==== Sys2Proof/Machine/Num.lean ====
section
/-! DEFINITION. The real numbers that the block's rules compute with (00_scope.md rules R4, R5). The rules
are written over any representation of them (`Reals`). Two are given: the real numbers themselves
(`Reals.exact`, of the reference model), and the numbers `a + b * pi` with `a` and `b` rational as plain
data (`Num`, of the machine). That each is sound says that its operations are those of the real numbers. -/

namespace Sys2Proof

/-! ### A representation of the real numbers -/

/-- The real numbers as the rules use them: `R` holds real numbers, with their sum, and `S` the scales by
which a rule multiplies or divides them. Each rule takes the representation from the configuration
(DESIGN CHOICE, log 1). -/
structure Reals (S R : Type) where
  /-- a scale as a real number -/
  ofScale : S → R
  /-- `pi` (R5) -/
  pi : R
  /-- `x <= y` -/
  le : R → R → Bool

section
variable {S R : Type} [Field S] [AddCommGroup R] [Module S R]

/-- `TWO_PI` = 2 * `pi` (R5). -/
def Reals.twoPi (r : Reals S R) : R := (2 : S) • r.pi

/-- `x < y`. -/
def Reals.lt (r : Reals S R) (x y : R) : Bool := !r.le y x

/-- `min(x, y)` (00_scope.md section 6). -/
def Reals.min (r : Reals S R) (x y : R) : R := if r.le x y then x else y

/-- `max(x, y)` (00_scope.md section 6). -/
def Reals.max (r : Reals S R) (x y : R) : R := if r.le x y then y else x

/-- `clamp(x, lo, hi) = min(max(x, lo), hi)` (00_scope.md section 6). -/
def Reals.clamp (r : Reals S R) (x lo hi : R) : R := r.min (r.max x lo) hi

/-- `abs(x)`. -/
def Reals.abs (r : Reals S R) (x : R) : R := if r.le 0 x then x else -x

/-- The representation computes with real numbers: `value` says which real number an element of `R` is,
`scale` which one a scale is, and every operation is the one on the real numbers. -/
structure Reals.Sound (r : Reals S R) (scale : S →+* ℝ) (value : R → ℝ) : Prop where
  zero : value 0 = 0
  add : ∀ x y, value (x + y) = value x + value y
  neg : ∀ x, value (-x) = -value x
  smul : ∀ (q : S) (x : R), value (q • x) = scale q * value x
  ofScale : ∀ q, value (r.ofScale q) = scale q
  pi : value r.pi = Real.pi
  le : ∀ x y, r.le x y = true ↔ value x ≤ value y
  injective : ∀ x y, value x = value y → x = y

namespace Laws

variable {r : Reals S R} {scale : S →+* ℝ} {value : R → ℝ}

theorem value_sub (h : r.Sound scale value) (x y : R) : value (x - y) = value x - value y := by
  rw [sub_eq_add_neg, h.add, h.neg, sub_eq_add_neg]

theorem value_twoPi (h : r.Sound scale value) : value r.twoPi = 2 * Real.pi := by
  rw [Reals.twoPi, h.smul, h.pi, map_ofNat]

theorem value_lt (h : r.Sound scale value) (x y : R) : r.lt x y = true ↔ value x < value y := by
  rw [Reals.lt, Bool.not_eq_true', Bool.eq_false_iff, ne_eq, h.le, not_le]

theorem value_min (h : r.Sound scale value) (x y : R) : value (r.min x y) = min (value x) (value y) := by
  unfold Reals.min
  split <;> rename_i hle <;> rw [h.le] at hle
  · exact (min_eq_left hle).symm
  · exact (min_eq_right (not_le.1 hle).le).symm

theorem value_max (h : r.Sound scale value) (x y : R) : value (r.max x y) = max (value x) (value y) := by
  unfold Reals.max
  split <;> rename_i hle <;> rw [h.le] at hle
  · exact (max_eq_right hle).symm
  · exact (max_eq_left (not_le.1 hle).le).symm

theorem value_clamp (h : r.Sound scale value) (x lo hi : R) :
    value (r.clamp x lo hi) = min (max (value x) (value lo)) (value hi) := by
  rw [Reals.clamp, value_min h, value_max h]

theorem value_abs (h : r.Sound scale value) (x : R) : value (r.abs x) = |value x| := by
  unfold Reals.abs
  split <;> rename_i hle <;> rw [h.le, h.zero] at hle
  · exact (abs_of_nonneg hle).symm
  · rw [h.neg, abs_of_neg (not_le.1 hle)]

end Laws

end

/-! ### The real numbers themselves -/

/-- The real numbers as they are: what the reference model computes with (R4; row 15 of
93_implementation_defined.md). -/
noncomputable def Reals.exact : Reals ℝ ℝ := ⟨id, Real.pi, fun x y => decide (x ≤ y)⟩

theorem Laws.exact_sound : Reals.exact.Sound (RingHom.id ℝ) id where
  zero := rfl
  add _ _ := rfl
  neg _ := rfl
  smul _ _ := rfl
  ofScale _ := rfl
  pi := rfl
  le _ _ := decide_eq_true_iff
  injective _ _ h := h

/-! ### The numbers `a + b * pi` -/

/-- A real-valued quantity of the machine: the pair `(a, b)` is the real number `a + b * pi`. Every
expression that a rule rounds is such a number when its operands are and its scales are rational, so
`rnd` (R4) has its exact argument; the format NUM of the registers is the set of the numbers that `rnd`
leaves as they are (DESIGN CHOICE, log 1: unsafe). -/
def Num : Type := ℚ × ℚ
  deriving DecidableEq, Repr, Inhabited, AddCommGroup, Module ℚ

/-- A rational number. -/
def Num.ofRat (a : ℚ) : Num := (a, 0)

/-- `pi`, the real number (R5). -/
def Num.pi : Num := (0, 1)

/-- The real number that `x` is. -/
noncomputable def Num.toReal (x : Num) : ℝ := (x.1 : ℝ) + (x.2 : ℝ) * Real.pi

/-! ### The order -/

/-- The sum of the first `n` terms of the series 4 - 4/3 + 4/5 - … of `pi`. -/
def piSeries : Nat → ℚ
  | 0 => 0
  | n + 1 => piSeries n + 4 * (-1) ^ n / (2 * n + 1)

theorem piSeries_eq (n : Nat) :
    ((piSeries n : ℚ) : ℝ) = 4 * ∑ i ∈ Finset.range n, (-1 : ℝ) ^ i * (1 / (2 * i + 1)) := by
  induction n with
  | zero => simp [piSeries]
  | succ n ih =>
    rw [Finset.sum_range_succ, mul_add, ← ih, piSeries]
    push_cast
    ring

theorem piSeries_tendsto :
    Filter.Tendsto (fun n => ((piSeries n : ℚ) : ℝ)) Filter.atTop (nhds Real.pi) := by
  have h := Real.tendsto_sum_pi_div_four.const_mul 4
  rw [mul_div_cancel₀ _ (by norm_num : (4 : ℝ) ≠ 0)] at h
  refine h.congr fun n => ?_
  rw [piSeries_eq]
  congr 1
  exact Finset.sum_congr rfl fun i _ => by ring

theorem piSeries_antitone : Antitone fun n : Nat => 1 / (2 * (n : ℝ) + 1) := by
  intro a b h
  have : (a : ℝ) ≤ b := by exact_mod_cast h
  have ha : (0 : ℝ) ≤ a := a.cast_nonneg
  exact one_div_le_one_div_of_le (by linarith) (by linarith)

/-- A sum of evenly many terms is below `pi`, one of oddly many above it. -/
theorem piSeries_bounds (n : Nat) :
    ((piSeries (2 * n) : ℚ) : ℝ) ≤ Real.pi ∧ Real.pi ≤ ((piSeries (2 * n + 1) : ℚ) : ℝ) := by
  have h : Filter.Tendsto (fun n => ∑ i ∈ Finset.range n, (-1 : ℝ) ^ i * (1 / (2 * (i : ℝ) + 1)))
      Filter.atTop (nhds (Real.pi / 4)) := by
    refine (piSeries_tendsto.div_const 4).congr fun n => ?_
    rw [piSeries_eq]
    ring
  have h1 := piSeries_antitone.alternating_series_le_tendsto h n
  have h2 := piSeries_antitone.tendsto_le_alternating_series h n
  rw [piSeries_eq, piSeries_eq]
  constructor <;> linarith

/-- Some sum of the series lies between a rational number and `pi`, since the number is not `pi`. -/
theorem exists_separating (q : ℚ) : ∃ n, q < piSeries (2 * n) ∨ piSeries (2 * n + 1) < q := by
  have hne : Real.pi ≠ (q : ℝ) := irrational_pi.ne_rat q
  rcases lt_or_gt_of_ne hne with h | h
  · obtain ⟨N, hN⟩ := Filter.eventually_atTop.1 (piSeries_tendsto.eventually_lt_const h)
    exact ⟨N, Or.inr (by exact_mod_cast hN (2 * N + 1) (by omega))⟩
  · obtain ⟨N, hN⟩ := Filter.eventually_atTop.1 (piSeries_tendsto.eventually_const_lt h)
    exact ⟨N, Or.inl (by exact_mod_cast hN (2 * N) (by omega))⟩

/-- A rational number below `pi`, to twenty places. -/
def piLower : ℚ := 314159265358979323846 / 100000000000000000000

/-- A rational number above `pi`, to twenty places. -/
def piUpper : ℚ := 314159265358979323847 / 100000000000000000000

/-- Whether a rational number is less than `pi`: by twenty places where they tell, and else by as much
of the series as it takes. -/
def ratLtPi (q : ℚ) : Bool :=
  if q ≤ piLower then true
  else if piUpper ≤ q then false
  else decide (q < piSeries (2 * Nat.find (exists_separating q)))

theorem ratLtPi_iff (q : ℚ) : ratLtPi q = true ↔ (q : ℝ) < Real.pi := by
  have hl : ((piLower : ℚ) : ℝ) < Real.pi := by
    have := Real.pi_gt_d20
    norm_num [piLower] at this ⊢
    linarith
  have hu : Real.pi < ((piUpper : ℚ) : ℝ) := by
    have := Real.pi_lt_d20
    norm_num [piUpper] at this ⊢
    linarith
  unfold ratLtPi
  split
  · rename_i h
    have : (q : ℝ) ≤ ((piLower : ℚ) : ℝ) := by exact_mod_cast h
    simp only [true_iff]
    linarith
  · split
    · rename_i h
      have : ((piUpper : ℚ) : ℝ) ≤ (q : ℝ) := by exact_mod_cast h
      simp only [Bool.false_eq_true, false_iff, not_lt]
      linarith
    · have hb := piSeries_bounds (Nat.find (exists_separating q))
      rw [decide_eq_true_eq]
      constructor
      · intro h
        have : (q : ℝ) < ((piSeries (2 * Nat.find (exists_separating q)) : ℚ) : ℝ) := by
          exact_mod_cast h
        linarith
      · intro h
        refine (Nat.find_spec (exists_separating q)).resolve_right fun h' => ?_
        have : ((piSeries (2 * Nat.find (exists_separating q) + 1) : ℚ) : ℝ) < (q : ℝ) := by
          exact_mod_cast h'
        linarith

/-- Whether `a + b * pi` is at least 0. -/
def Num.nonneg (x : Num) : Bool :=
  if x.2 = 0 then decide (0 ≤ x.1)
  else if 0 < x.2 then ratLtPi (-x.1 / x.2)
  else !ratLtPi (-x.1 / x.2)

/-- `x <= y` as real numbers (`le_iff`). -/
def Num.le (x y : Num) : Bool := (y - x).nonneg

/-- The representation of the real numbers that the machine computes with. -/
def Num.reals : Reals ℚ Num := ⟨Num.ofRat, Num.pi, Num.le⟩

/-! ### Each operation is the one on the real numbers -/

namespace Laws

@[simp] theorem reals_ofScale (q : ℚ) : Num.reals.ofScale q = Num.ofRat q := rfl

@[simp] theorem reals_pi : Num.reals.pi = Num.pi := rfl

@[simp] theorem toReal_zero : (0 : Num).toReal = 0 := by
  show ((0 : ℚ) : ℝ) + ((0 : ℚ) : ℝ) * Real.pi = 0
  simp

@[simp] theorem toReal_add (x y : Num) : (x + y).toReal = x.toReal + y.toReal := by
  show ((x.1 + y.1 : ℚ) : ℝ) + ((x.2 + y.2 : ℚ) : ℝ) * Real.pi = _
  simp only [Num.toReal]
  push_cast
  ring

@[simp] theorem toReal_neg (x : Num) : (-x).toReal = -x.toReal := by
  show ((-x.1 : ℚ) : ℝ) + ((-x.2 : ℚ) : ℝ) * Real.pi = _
  simp only [Num.toReal]
  push_cast
  ring

@[simp] theorem toReal_sub (x y : Num) : (x - y).toReal = x.toReal - y.toReal := by
  rw [sub_eq_add_neg, toReal_add, toReal_neg, sub_eq_add_neg]

@[simp] theorem toReal_smul (q : ℚ) (x : Num) : (q • x).toReal = q * x.toReal := by
  show ((q * x.1 : ℚ) : ℝ) + ((q * x.2 : ℚ) : ℝ) * Real.pi = _
  simp only [Num.toReal]
  push_cast
  ring

@[simp] theorem toReal_ofRat (a : ℚ) : (Num.ofRat a).toReal = a := by simp [Num.toReal, Num.ofRat]

@[simp] theorem toReal_pi : Num.pi.toReal = Real.pi := by simp [Num.toReal, Num.pi]

/-- Two numbers that are the same real number are the same. -/
theorem toReal_injective {x y : Num} (h : x.toReal = y.toReal) : x = y := by
  obtain ⟨a, b⟩ := x
  obtain ⟨c, d⟩ := y
  simp only [Num.toReal] at h
  have hb : b = d := by
    by_contra hne
    have hne' : (b : ℝ) - d ≠ 0 := sub_ne_zero.2 (by exact_mod_cast hne)
    refine irrational_pi.ne_rat ((c - a) / (b - d)) ?_
    push_cast
    rw [eq_div_iff hne']
    linarith
  subst hb
  have ha : (a : ℝ) = c := by linarith
  exact Prod.ext (by exact_mod_cast ha) rfl

theorem nonneg_iff (x : Num) : x.nonneg = true ↔ 0 ≤ x.toReal := by
  obtain ⟨a, b⟩ := x
  have hq : ((-a / b : ℚ) : ℝ) = -(a : ℝ) / b := by push_cast; ring
  simp only [Num.nonneg, Num.toReal]
  split
  · rename_i h
    simp [h]
  · split
    · rename_i h
      have hb : (0 : ℝ) < b := by exact_mod_cast h
      rw [ratLtPi_iff, hq, div_lt_iff₀ hb]
      refine ⟨fun h' => by nlinarith, fun h' => lt_of_le_of_ne (by nlinarith) fun e => ?_⟩
      exact irrational_pi.ne_rat (-a / b) (by rw [hq, eq_div_iff hb.ne']; linarith)
    · rename_i h0 h
      have hb : (b : ℝ) < 0 := by exact_mod_cast lt_of_le_of_ne (not_lt.1 h) h0
      rw [Bool.not_eq_true', Bool.eq_false_iff, ne_eq, ratLtPi_iff, hq, div_lt_iff_of_neg hb, not_lt]
      constructor <;> intro h' <;> linarith

theorem num_sound : Num.reals.Sound (Rat.castHom ℝ) Num.toReal where
  zero := toReal_zero
  add := toReal_add
  neg := toReal_neg
  smul q x := by rw [toReal_smul, eq_ratCast]
  ofScale q := by rw [eq_ratCast]; exact toReal_ofRat q
  pi := toReal_pi
  le x y := by
    show (y - x).nonneg = true ↔ _
    rw [nonneg_iff, toReal_sub, sub_nonneg]
  injective _ _ := toReal_injective

theorem le_iff (x y : Num) : Num.reals.le x y = true ↔ x.toReal ≤ y.toReal := num_sound.le x y

theorem lt_iff (x y : Num) : Num.reals.lt x y = true ↔ x.toReal < y.toReal := value_lt num_sound x y

@[simp] theorem toReal_twoPi : Num.reals.twoPi.toReal = 2 * Real.pi := value_twoPi num_sound

@[simp] theorem toReal_min (x y : Num) : (Num.reals.min x y).toReal = min x.toReal y.toReal :=
  value_min num_sound x y

@[simp] theorem toReal_max (x y : Num) : (Num.reals.max x y).toReal = max x.toReal y.toReal :=
  value_max num_sound x y

@[simp] theorem toReal_clamp (x lo hi : Num) :
    (Num.reals.clamp x lo hi).toReal = min (max x.toReal lo.toReal) hi.toReal :=
  value_clamp num_sound x lo hi

@[simp] theorem toReal_abs (x : Num) : (Num.reals.abs x).toReal = |x.toReal| := value_abs num_sound x

end Laws

end Sys2Proof
end

