-- ==== Sys2Proof/Config.lean ====
section
/-! DEFINITION. The configuration record of 00_scope.md rule R2: the integer and real parameters,
the external library of 43_pwm_duty.md rules R142 to R148, the rounding operator of rule R4, and the
constraints the spec puts on them, over any representation of the real numbers (Machine/Num.lean). The
configuration of the machine is one opaque constant: whatever is proved holds for every configuration
that meets the constraints (log 4). -/

namespace Sys2Proof

/-- `PIState`, the state record of a PI controller (R21): the integrator term the core can zero, and
whatever else the library keeps. -/
structure PIState (R : Type) where
  integ : R
  rest : List R
  deriving DecidableEq, Repr, Inhabited

/-- The gain record of a PI controller (R147): "configurable proportional/integral/
clamp-with-anti-windup gains and output limits". -/
structure PIGains (S R : Type) where
  kp : S
  ki : S
  kAntiWindup : S
  outMin : R
  outMax : R
  deriving DecidableEq, Repr, Inhabited

/-- The external library (R142): total functions of their operands alone. -/
structure Library (S R : Type) where
  /-- R143 -/
  clarke : R → R → R → R × R
  /-- R144 -/
  park : R → R → R → R × R
  /-- R145 -/
  invpark : R → R → R → R × R
  /-- R146 -/
  svpwm : R → R → R × R × R
  /-- R148; no step of the core calls it -/
  sincos : R → R × R
  /-- R147: gains, state, measured, reference to output and new state -/
  piControl : PIGains S R → PIState R → R → R → R × PIState R
  /-- the initial value of the state fields other than `integ` (R21) -/
  piInitRest : List R

/-- The configuration record (R2), over the scales `S` and the real numbers `R` of a representation. -/
structure Config (S R : Type) where
  /-- the representation of the real numbers (log 1) -/
  real : Reals S R
  /-- `CW`, `AW`, `CTR_W` -/
  widths : Widths
  /-- `DECIM` -/
  decim : Nat
  /-- `DELTA_MAX` -/
  deltaMax : Nat
  /-- `AVG_W[0..3]`, index 0 = newest -/
  avgW0 : Nat
  avgW1 : Nat
  avgW2 : Nat
  avgW3 : Nat
  /-- `N_SETTLE` -/
  nSettle : Nat
  /-- `N_CAL` -/
  nCal : Nat
  /-- `PPER` -/
  pper : Nat
  /-- `POS_UPPER_TH` -/
  posUpperTh : Nat
  /-- `POS_LOWER_TH` -/
  posLowerTh : Nat
  /-- `LOCK_COUNT_FOR_LOCK_TIME` -/
  lockCount : Nat
  /-- `SLOW_DIV` -/
  slowDiv : Nat
  /-- `INACT_STOP_COUNT` -/
  inactStop : Nat
  /-- `INACT_WARN_COUNT` -/
  inactWarn : Nat
  /-- `CURRENT_OFFSET_MIN` -/
  offsetMin : R
  /-- `CURRENT_OFFSET_MAX` -/
  offsetMax : R
  /-- `CURRENT_GAIN`, a scale (log 1) -/
  currentGain : S
  /-- `T_SLOW`, a scale (log 1) -/
  tSlow : S
  /-- `ALIGN_ANGLE` -/
  alignAngle : R
  /-- `OL_IQ_REF` -/
  olIqRef : R
  /-- `STOP_SPEED_TH` -/
  stopSpeedTh : R
  /-- `STOP_MARGIN` -/
  stopMargin : R
  /-- `STOP_DEC_STEP` -/
  stopDecStep : R
  /-- `RAMP_STEP_DEFAULT` -/
  rampStepDefault : R
  /-- `VEL_CMD_DEFAULT` -/
  velCmdDefault : R
  /-- `VEL_CMD_STEP` -/
  velCmdStep : R
  /-- `VEL_CMD_MIN` -/
  velCmdMin : R
  /-- `VEL_CMD_MAX` -/
  velCmdMax : R
  /-- the rounding operator `rnd : Real -> NUM` of R4, from an exact real number to the value of NUM, the
  format NUM being the set of the real numbers it gives -/
  rnd : R → R
  /-- the external library -/
  lib : Library S R
  /-- `PI_D` -/
  gainsD : PIGains S R
  /-- `PI_Q` -/
  gainsQ : PIGains S R
  /-- `PI_VEL` -/
  gainsVel : PIGains S R

section
variable {S R : Type} [Field S] [AddCommGroup R] [Module S R]

/-- `AVG_WSUM`, the sum of the weights (R2). -/
def Config.avgWSum (c : Config S R) : Nat := c.avgW0 + c.avgW1 + c.avgW2 + c.avgW3

/-- Every count parameter fits the counters: `2^CTR_W >` each (last row of R2's integer table). -/
def Config.countsFit (c : Config S R) : Bool :=
  decide (c.decim < 2 ^ c.widths.ctr) && decide (c.nSettle < 2 ^ c.widths.ctr)
    && decide (c.nCal < 2 ^ c.widths.ctr) && decide (c.lockCount < 2 ^ c.widths.ctr)
    && decide (c.slowDiv < 2 ^ c.widths.ctr) && decide (c.inactStop < 2 ^ c.widths.ctr)
    && decide (c.inactWarn < 2 ^ c.widths.ctr)

/-- The constraints of R2's integer table (last column). -/
def Config.integersOk (c : Config S R) : Bool :=
  decide (1 ≤ c.widths.cw) && decide (c.deltaMax < 2 ^ c.widths.cw)
    && decide (125 * c.deltaMax < 2 ^ c.widths.aw) && decide (1 ≤ c.decim)
    && decide (0 < c.avgWSum) && decide (1 ≤ c.nCal) && decide (1 ≤ c.pper)
    && decide (300 < c.posLowerTh) && decide (c.posLowerTh < c.posUpperTh)
    && decide (c.posUpperTh < 65000) && decide (1 ≤ c.slowDiv)
    && decide (c.inactWarn < c.inactStop) && c.countsFit

/-- The constraints of R2's real table; then that the velocity limits are magnitudes (DEDUCED from R167,
log 25) and the order of the output limits without which R147's contract has no meaning (log 4). -/
def Config.realsOk (c : Config S R) : Bool :=
  c.real.le c.offsetMin c.offsetMax && c.real.lt 0 (c.real.ofScale c.tSlow) && c.real.le 0 c.olIqRef
    && c.real.le 0 c.stopMargin && c.real.lt 0 c.stopDecStep && c.real.lt 0 c.rampStepDefault
    && c.real.le c.velCmdMin c.velCmdDefault && c.real.le c.velCmdDefault c.velCmdMax
    && c.real.le 0 c.velCmdStep && c.real.le 0 c.velCmdMin
    && c.real.le c.gainsD.outMin c.gainsD.outMax && c.real.le c.gainsQ.outMin c.gainsQ.outMax
    && c.real.le c.gainsVel.outMin c.gainsVel.outMax

/-- Every parameter constraint of R2. A record that breaks one is refused: it cannot be the
configuration of the machine. -/
def Config.paramsOk (c : Config S R) : Bool := c.integersOk && c.realsOk

/-- `x` is a value of the format of NUM: `rnd` leaves it as it is. -/
def Config.Representable (c : Config S R) (x : R) : Prop := c.rnd x = x

/-- Every number of a PI state is a value of the format of NUM. -/
def Config.RepresentablePI (c : Config S R) (s : PIState R) : Prop :=
  c.Representable s.integ ∧ ∀ x ∈ s.rest, c.Representable x

/-- What a rounding operator onto a number format is taken to satisfy (DEDUCED, log 2: unsafe):
it is monotone and idempotent, 0 and the NUM parameters that registers are loaded from are values of
the format, and rounding near a full turn does not overshoot one (R5). `value` says which real number an
element of `R` is. -/
structure Config.RoundingOk (c : Config S R) (value : R → ℝ) : Prop where
  mono : ∀ x y : R, value x ≤ value y → value (c.rnd x) ≤ value (c.rnd y)
  idem : ∀ x : R, c.Representable (c.rnd x)
  zero : c.Representable 0
  offsetMin : c.Representable c.offsetMin
  offsetMax : c.Representable c.offsetMax
  rampStep : c.Representable c.rampStepDefault
  velCmdDefault : c.Representable c.velCmdDefault
  velCmdMin : c.Representable c.velCmdMin
  velCmdMax : c.Representable c.velCmdMax
  turn : value (c.rnd (c.rnd c.real.twoPi - c.real.twoPi)) < 2 * Real.pi

/-- The contract of the library that R147 states: the output of `pi_control` lies inside the output
limits of its gain record (log 20). -/
def Library.LimitsOk (lib : Library S R) (value : R → ℝ) : Prop :=
  ∀ (g : PIGains S R) (s : PIState R) (measured reference : R), value g.outMin ≤ value g.outMax →
    value g.outMin ≤ value (lib.piControl g s measured reference).1 ∧
      value (lib.piControl g s measured reference).1 ≤ value g.outMax

/-- `pi_control` is a function into NUM (R4, R21, R147): its output, the state it returns and the
library's initial state are values of the format, so that they are stored without `rnd` (log 3). -/
structure Config.PIFormatOk (c : Config S R) : Prop where
  output : ∀ (g : PIGains S R) (s : PIState R) (measured reference : R),
    c.Representable (c.lib.piControl g s measured reference).1
  state : ∀ (g : PIGains S R) (s : PIState R) (measured reference : R),
    c.RepresentablePI (c.lib.piControl g s measured reference).2
  initial : c.RepresentablePI ⟨0, c.lib.piInitRest⟩

/-- A configuration the model admits (R2). -/
structure Config.Valid (c : Config S R) (value : R → ℝ) : Prop where
  params : c.paramsOk = true
  rounding : c.RoundingOk value
  limits : c.lib.LimitsOk value
  format : c.PIFormatOk

/-- The reference model of R4 (row 15 of 93_implementation_defined.md): `rnd` is the identity. -/
def Config.ExactModel (c : Config S R) : Prop := ∀ x, c.rnd x = x

/-- The literals the source gives (R2, R3; row 20 of 93_implementation_defined.md), and the value the
table of R2 gives the three widths (log 5). -/
structure Config.SourceLiterals (c : Config S R) : Prop where
  widths : c.widths = .default
  decim : c.decim = 5
  inactStop : c.inactStop = 60000
  stopSpeedTh : c.stopSpeedTh = c.real.ofScale 110
  alignAngle : c.alignAngle = c.real.pi

/-! ### The informative library and the configurations of the tests -/

/-- The informative formulas of R152, with a value for the square root of 3 and a sine and cosine
given. Not normative: no claim about the machine rests on it. -/
def Library.informative [DecidableEq R] (r : Reals S R) (sqrt3 : S) (sincos : R → S × S) :
    Library S R where
  clarke a b _ := (a, (1 / sqrt3) • (a + (2 : S) • b))
  park alpha beta th :=
    ((sincos th).2 • alpha + (sincos th).1 • beta, (sincos th).2 • beta - (sincos th).1 • alpha)
  invpark d q th :=
    ((sincos th).2 • d - (sincos th).1 • q, (sincos th).1 • d + (sincos th).2 • q)
  svpwm alpha beta :=
    let half : S := 1 / 2
    let va := alpha
    let vb := (sqrt3 / 2) • beta - half • alpha
    let vc := -((sqrt3 / 2) • beta) - half • alpha
    let off := half • (r.max (r.max va vb) vc + r.min (r.min va vb) vc)
    (r.ofScale half + (va - off), r.ofScale half + (vb - off), r.ofScale half + (vc - off))
  sincos th := (r.ofScale (sincos th).1, r.ofScale (sincos th).2)
  piControl g s measured reference :=
    let err := reference - measured
    let u := g.kp • err + s.integ + g.ki • err
    let out := r.clamp u g.outMin g.outMax
    (out, ⟨if out = u then s.integ + g.ki • err else s.integ, s.rest⟩)
  piInitRest := []

/-- The parameters of 95_test_vectors.md (the column "used in tests" of R2; row G6 of
93_implementation_defined.md: examples, not properties of the hardware), in the exact model of R4, over
any representation of the real numbers and with any library. -/
def Config.testsWith (r : Reals S R) (lib : Library S R) : Config S R where
  real := r
  widths := .default
  decim := 5
  deltaMax := 1000
  avgW0 := 1
  avgW1 := 1
  avgW2 := 1
  avgW3 := 1
  nSettle := 4
  nCal := 4
  pper := 1000
  posUpperTh := 49152
  posLowerTh := 16384
  lockCount := 3
  slowDiv := 4
  inactStop := 3
  inactWarn := 2
  offsetMin := 0
  offsetMax := r.ofScale 2000
  currentGain := 1 / 1000
  tSlow := 5 / 1000
  alignAngle := r.pi
  olIqRef := r.ofScale (2 / 10)
  stopSpeedTh := r.ofScale 110
  stopMargin := r.ofScale 20
  stopDecStep := r.ofScale 50
  rampStepDefault := r.ofScale 5
  velCmdDefault := r.ofScale 300
  velCmdStep := r.ofScale 50
  velCmdMin := r.ofScale 150
  velCmdMax := r.ofScale 600
  rnd := fun x => x
  lib := lib
  gainsD := ⟨1, 1 / 10, 0, r.ofScale (-1), r.ofScale 1⟩
  gainsQ := ⟨1, 1 / 10, 0, r.ofScale (-1), r.ofScale 1⟩
  gainsVel := ⟨1 / 1000, 1 / 10000, 0, r.ofScale (-1 / 2), r.ofScale (1 / 2)⟩

theorem Library.informative_limits [DecidableEq R] {r : Reals S R} {scale : S →+* ℝ} {value : R → ℝ}
    (h : r.Sound scale value) (sqrt3 : S) (sincos : R → S × S) :
    (Library.informative r sqrt3 sincos).LimitsOk value := by
  intro g s m x hg
  simp only [Library.informative, Laws.value_clamp h]
  exact ⟨le_min (le_max_right _ _) hg, min_le_right _ _⟩

/-- In the exact model every number is a value of the format, so that what is left to ask of a
configuration is that its parameters and its library keep to their bounds. -/
theorem Config.ExactModel.valid {c : Config S R} {scale : S →+* ℝ} {value : R → ℝ}
    (hc : c.ExactModel) (h : c.real.Sound scale value) (params : c.paramsOk = true)
    (limits : c.lib.LimitsOk value) : c.Valid value where
  params := params
  rounding :=
    { mono := fun x y hxy => by rwa [hc, hc]
      idem := fun _ => hc _
      zero := hc _
      offsetMin := hc _
      offsetMax := hc _
      rampStep := hc _
      velCmdDefault := hc _
      velCmdMin := hc _
      velCmdMax := hc _
      turn := by
        rw [hc, hc, sub_self, h.zero]
        exact mul_pos two_pos Real.pi_pos }
  limits := limits
  format := ⟨fun _ _ _ _ => hc _, fun _ _ _ _ => ⟨hc _, fun _ _ => hc _⟩, ⟨hc _, fun _ _ => hc _⟩⟩

end

/-- The test configuration of 95_test_vectors.md over the numbers of the machine. Its sine and cosine are
exact at the angles 0, pi/2, pi and 3pi/2 only, and its square root of 3 is rounded to 16 places. -/
def Config.tests : Config ℚ Num :=
  .testsWith Num.reals <| .informative Num.reals (17320508075688772 / 10000000000000000) fun th =>
    if Num.reals.lt th (.ofRat 1) then (0, 1) else if Num.reals.lt th (.ofRat 2) then (1, 0)
    else if Num.reals.lt th (.ofRat 4) then (0, -1) else (-1, 0)

/-- The reference model of R4 over the real numbers themselves: `rnd` is the identity on `ℝ`, and the
library is that of R152 with the true square root of 3, sine and cosine. `CURRENT_GAIN`, `T_SLOW` and
every other real parameter of a `Config ℝ ℝ` may be any real number. -/
noncomputable def Config.exact : Config ℝ ℝ :=
  { Config.testsWith Reals.exact (.informative Reals.exact (Real.sqrt 3) fun th => (Real.sin th, Real.cos th))
    with inactStop := 60000 }

theorem Config.exact_exactModel : Config.exact.ExactModel := fun _ => rfl

theorem Config.exact_valid : Config.exact.Valid id := by
  refine Config.exact_exactModel.valid Laws.exact_sound ?_ (Library.informative_limits Laws.exact_sound _ _)
  have hi : Config.exact.integersOk = true := by decide +kernel
  have hr : Config.exact.realsOk = true := by
    simp only [Config.realsOk, Config.exact, Config.testsWith, Reals.lt, Reals.exact, Bool.and_eq_true,
      Bool.not_eq_true', decide_eq_true_eq, decide_eq_false_iff_not, id]
    norm_num
  rw [Config.paramsOk, hi, hr, Bool.and_self]

theorem Config.exact_literals : Config.exact.SourceLiterals := ⟨rfl, rfl, rfl, rfl, rfl⟩

/-- The test configuration with the source's inactivity literal: it shows that the constraints and
the literals can be met together. -/
def Config.sourceExample : Config ℚ Num := { Config.tests with inactStop := 60000 }

theorem Config.sourceExample_valid : Config.sourceExample.Valid Num.toReal :=
  Config.ExactModel.valid (fun _ => rfl) Laws.num_sound (by decide +kernel)
    (Library.informative_limits Laws.num_sound _ _)

theorem Config.sourceExample_literals : Config.sourceExample.SourceLiterals :=
  ⟨rfl, rfl, rfl, rfl, rfl⟩

/-- A configuration together with the facts R2 asks of it and the values the spec gives, over the numbers
that State can hold (log 1). -/
structure MachineConfig where
  cfg : Config ℚ Num := Config.sourceExample
  real : cfg.real = Num.reals := by exact rfl
  valid : cfg.Valid Num.toReal := by exact Config.sourceExample_valid
  literals : cfg.SourceLiterals := by exact Config.sourceExample_literals
  deriving Inhabited

/-- The configuration of the machine at hand. Nothing is known of it but its constraints and the values
the spec gives: every OPEN parameter, every library function and `rnd` are free (R2, R4, R142; log 4). -/
opaque Config.theMachine : MachineConfig

/-- The configuration record every rule reads (R2). Its widths are those the spec gives and its numbers
those of the machine, written out so that they compute. -/
def Config.machine : Config ℚ Num := { Config.theMachine.cfg with widths := .default, real := Num.reals }

theorem Config.machine_eq : Config.machine = Config.theMachine.cfg := by
  rw [Config.machine, ← Config.theMachine.literals.widths, ← Config.theMachine.real]

end Sys2Proof
end

