-- ==== Sys2Proof/Machine/State.lean ====
section
/-! DEFINITION. The state of the block as plain data: every register of 10_state.md in the groups of its
sections, the ports of 20_memory.md, and the model's own fields (operations in progress, the
environment's schedule), at the widths `w` of a configuration (R2) and with its real-valued registers
in the representation `R` of the real numbers (R4). Then the stops of a step and the state after reset
(R217). -/

namespace Sys2Proof.Machine

open Sys2Proof

/-! ### Enumerated registers -/

/-- `app_state` (R36), the "top-level lifecycle enum". -/
inductive AppState where
  | init
  | waitStart
  | start
  | running
  | stopDecrease
  | stopped
  deriving DecidableEq, Repr, Inhabited

/-- `fg_phase` (R37). -/
inductive FgPhase where
  | idle
  | settle
  | cal
  deriving DecidableEq, Repr, Inhabited

/-- `ctl_mode` (R19, R71). -/
inductive CtlMode where
  | openLoop
  | closedLoop
  deriving DecidableEq, Repr, Inhabited

/-- `direction` (R19, R73): +1 or -1. -/
inductive Direction where
  | plus
  | minus
  deriving DecidableEq, Repr, Inhabited

/-- `run_status` and `run_status_prev` (R19, R71). -/
inductive RunStatus where
  | stop
  | run
  deriving DecidableEq, Repr, Inhabited

/-- `PREEMPT` (R56): the grain of the interleaving. -/
inductive Preempt where
  /-- every event is one atomic step (R55), the default -/
  | eventAtomic
  /-- every register access is one atomic step (R56) -/
  | fieldAtomic
  deriving DecidableEq, Repr, Inhabited

/-- `PRIO` (R206): which interrupt may fall inside the other under `fieldAtomic`. -/
inductive Prio where
  | noNest
  | sampleHigh
  | controlHigh
  deriving DecidableEq, Repr, Inhabited

/-! ### Register groups -/

/-- The filter registers of one phase (R13). -/
structure PhaseFilter (w : Widths) where
  prevRaw : Count w
  med0 : Count w
  med1 : Count w
  med2 : Count w
  integ1 : Acc w
  integ2 : Acc w
  integ3 : Acc w
  comb1 : Acc w
  comb2 : Acc w
  comb3 : Acc w
  out0 : Acc w
  out1 : Acc w
  out2 : Acc w
  out3 : Acc w
  deriving DecidableEq, Repr, Inhabited

/-- The filter of both phases and its two shared counters (R13, R15). -/
structure Filter (w : Widths) where
  u : PhaseFilter w
  v : PhaseFilter w
  decCnt : Ctr w
  outCnt : Ctr w
  deriving DecidableEq, Repr, Inhabited

/-- Offsets and calibration working registers (R16, R17). -/
structure Calibration (w : Widths) (R : Type) where
  offsetU : R
  offsetV : R
  sumU : Sum
  sumV : Sum
  calN : Ctr w
  waitBase : Ctr w
  lastSeen : Ctr w
  deriving DecidableEq, Repr, Inhabited

/-- The position and speed estimator (R18). `comp` and `count` are `int[0,PPER)` (log 21). -/
structure Position (R : Type) where
  prev : Pos
  comp : Nat
  count : Nat
  angle : R
  velPrevRaw : Pos
  velEst : R
  deriving DecidableEq, Repr, Inhabited

/-- The control registers (R19). -/
structure Control (w : Widths) (R : Type) where
  mode : CtlMode
  changeMode : Bool
  alignActive : Bool
  direction : Direction
  lockCnt : Ctr w
  rotCnt : Ctr w
  velCmd : R
  velTarget : R
  velRamped : R
  idRef : R
  iqRef : R
  syncCnt : Ctr w
  runStatus : RunStatus
  runStatusPrev : RunStatus
  rampStep : R
  deriving DecidableEq, Repr, Inhabited

/-- The three PI controller states (R21). -/
structure Loops (R : Type) where
  d : PIState R
  q : PIState R
  vel : PIState R
  deriving DecidableEq, Repr, Inhabited

/-- The sequencer registers (R36, R37, R38). -/
structure Sequencer (w : Widths) where
  app : AppState
  fgPhase : FgPhase
  inactCnt : Ctr w
  deriving DecidableEq, Repr, Inhabited

/-- The peripheral-control and indicator registers (R40). -/
structure Periph where
  irqArmed : Bool
  posRun : Bool
  curRun : Bool
  pwmPinsEn : Bool
  pwmChEn : Bool
  indRun : Bool
  indIdle : Bool
  deriving DecidableEq, Repr, Inhabited

/-- The duty registers (R41). -/
structure Duty (R : Type) where
  u : R
  v : R
  w : R
  deriving DecidableEq, Repr, Inhabited

/-! ### Ports and the environment's schedule -/

/-- The input ports as they stand (R47, R49, R50). -/
structure Ports (w : Widths) where
  rst : Bool
  stb : Bool
  ev : EvWord
  curCntU : Count w
  curCntV : Count w
  posCnt : Pos
  btn : Buttons
  deriving DecidableEq, Repr, Inhabited

/-- One thing the environment does with the input ports (R60, R74; log 11). -/
inductive Stimulus (w : Widths) where
  /-- `rst` is asserted -/
  | rst
  /-- no event is presented -/
  | quiet
  /-- an event is presented; a counter port that is not named keeps its value -/
  | event (ev : EvWord) (u v : Option (Count w)) (pos : Option Pos) (btn : Buttons)
  /-- FG with no button while `fg_phase` is not IDLE: the rest of a DISPATCH (R75) -/
  | whileBusy
  deriving DecidableEq, Repr, Inhabited

/-! ### The model's own fields -/

/-- The value of one register, as an operation in progress has read it. -/
inductive Val (w : Widths) (R : Type) where
  | count (v : Count w)
  | acc (v : Acc w)
  | ctr (v : Ctr w)
  | pos (v : Pos)
  | sum (v : Sum)
  | nat (v : Nat)
  | num (v : R)
  | bit (v : Bool)
  | piState (v : PIState R)
  | app (v : AppState)
  | phase (v : FgPhase)
  | mode (v : CtlMode)
  | dir (v : Direction)
  | run (v : RunStatus)
  /-- the access was a write: nothing was read -/
  | wrote
  deriving DecidableEq, Repr, Inhabited

/-- The temporaries that the pseudocode passes between the rules of one event in parentheses: the
operands of FILT(c, raw), CURLOOP(i_d, i_q) and DUTYGEN(v_d, v_q), the results of CURACQ, CURLOOP and
CALPOLL. They are no registers and exist only while the operation is in progress (R42, log 12). -/
structure Temps (w : Widths) (R : Type) where
  phase : Phase
  raw : Count w
  iU : R
  iV : R
  iW : R
  iD : R
  iQ : R
  vD : R
  vQ : R
  done : Bool
  deriving DecidableEq, Repr, Inhabited

/-- An operation in progress: which one, the ports as they stood at the instant of its event (R53), its
operands and results where it is a sub-operation invoked by itself, and what its accesses so far have
read, oldest first (log 12, log 15). -/
structure Frame (w : Widths) (R : Type) where
  op : Instr
  ports : Ports w
  temps : Temps w R
  log : List (Val w R)
  deriving DecidableEq, Repr, Inhabited

/-- The state of a block with the widths `w` and the real numbers `R`; where they are not said, those of
the machine. -/
structure State (w : Widths := Config.machine.widths) (R : Type := Num) where
  /-- 10_state.md section 1 -/
  filt : Filter w
  /-- section 2 -/
  cal : Calibration w R
  /-- section 3 -/
  pos : Position R
  /-- section 4 -/
  ctl : Control w R
  /-- section 5 -/
  loops : Loops R
  /-- section 6 -/
  seq : Sequencer w
  /-- section 7, R40 -/
  per : Periph
  /-- section 7, R41 -/
  duty : Duty R
  /-- the pulse output `fault_clr` (R52; log 13) -/
  faultClr : Bool
  /-- `PREEMPT` (log 14) -/
  preempt : Preempt
  /-- `PRIO` (log 14) -/
  prio : Prio
  /-- operations in progress, innermost first (log 12, log 15) -/
  frames : List (Frame w R)
  /-- the input ports -/
  ports : Ports w
  /-- what the environment presents next, oldest first (log 11) -/
  script : List (Stimulus w)
  deriving DecidableEq, Repr, Inhabited

/-! ### The stops of a step -/

/-- "No operation of this block raises an exception, sets an error flag, returns an error code or
records a cause" (R197): there is no fault. -/
inductive Fault where
  deriving DecidableEq, Repr

/-- The inputs the model does not admit. -/
inductive Refusal where
  /-- Raised by an arm of `exec` whose instruction has no meaning yet. Safe. -/
  | notModelled (mnemonic : String)
  /-- Raised by the event port for the words 00100 to 01111 (R68: "the event port refuses them, and
  the model gives them no meaning"). Safe. -/
  | reservedWord (word : EvWord)
  /-- Raised by the event port for a word with `cls` = 1 (R68). Safe. -/
  | subOperationOnPort (word : EvWord)
  /-- Raised when the log of an operation in progress does not fit its operation, which no run
  reaches (log 18). Safe. -/
  | inconsistentFrame (op : Instr)
  deriving DecidableEq, Repr

/-! ### Reset -/

/-- The filter registers of a phase at reset: all 0 (R14). -/
def PhaseFilter.zero {w : Widths} : PhaseFilter w := ⟨0, 0, 0, 0, 0, 0, 0, 0, 0, 0, 0, 0, 0, 0⟩

/-- The PI state at reset: `pi_zero` of the library's initial state (R21, R217). -/
def piInitial {S R : Type} [AddCommGroup R] (c : Config S R) : PIState R := ⟨0, c.lib.piInitRest⟩

/-- No button pressed. -/
def noButtons : Buttons := ⟨false, false, false, false, false⟩

/-- The input ports as the model starts them (log 10). -/
def Ports.quiet {w : Widths} : Ports w := ⟨false, false, 0, 0, 0, 0, noButtons⟩

/-- The temporaries of an operation that nothing has invoked with operands (log 12). -/
def Temps.zero {w : Widths} {R : Type} [AddCommGroup R] : Temps w R := ⟨.u, 0, 0, 0, 0, 0, 0, 0, 0, false⟩

/-- The machine right after `rst` for a configuration `c`: the table of R217. The registers the table
marks "none" (`offset`, `cal_sum`, `cal_n`, `wait_base`, `last_seen`, the duties) are 0 by DESIGN
CHOICE (log 6, log 7, log 8: unsafe). -/
def State.resetWith {S R : Type} [AddCommGroup R] (c : Config S R) : State c.widths R where
  filt := ⟨.zero, .zero, 0, 0⟩
  cal := ⟨0, 0, 0, 0, 0, 0, 0⟩
  pos := ⟨0, 0, 0, 0, 0, 0⟩
  ctl :=
    { mode := .openLoop
      changeMode := false
      alignActive := true
      direction := .plus
      lockCnt := 0
      rotCnt := 0
      velCmd := c.velCmdDefault
      velTarget := c.velCmdDefault
      velRamped := 0
      idRef := 0
      iqRef := 0
      syncCnt := 0
      runStatus := .stop
      runStatusPrev := .stop
      rampStep := c.rampStepDefault }
  loops := ⟨piInitial c, piInitial c, piInitial c⟩
  seq := ⟨.init, .idle, 0⟩
  per := ⟨false, false, false, false, false, false, false⟩
  duty := ⟨0, 0, 0⟩
  faultClr := false
  preempt := .eventAtomic
  prio := .noNest
  frames := []
  ports := .quiet
  script := []

/-- The machine right after reset (R217). -/
def State.reset : State := State.resetWith Config.machine

end Sys2Proof.Machine
end

