-- ==== Sys2Proof/Machine/Ops.lean ====
section
/-! DEFINITION. The named operations over the state: the registers by name (`Reg`), the one operation
that reads a register and the one that writes it, programs of register accesses (`Prog`) and the two
ways to run them, and what stands in this block for taking and leaving an exception: admitting an
event and ending it (R203, R208, R209). -/

namespace Sys2Proof.Machine

open Sys2Proof

/-! ### Registers by name -/

/-- The types of the registers. -/
inductive Kind where
  | count
  | acc
  | ctr
  | pos
  | sum
  | nat
  | num
  | bit
  | piState
  | app
  | phase
  | mode
  | dir
  | run
  deriving DecidableEq, Repr

/-- The values a register of a kind holds. -/
abbrev Kind.type (w : Widths) (R : Type) : Kind → Type
  | .count => Count w
  | .acc => Acc w
  | .ctr => Ctr w
  | .pos => Pos
  | .sum => Sum
  | .nat => Nat
  | .num => R
  | .bit => Bool
  | .piState => PIState R
  | .app => AppState
  | .phase => FgPhase
  | .mode => CtlMode
  | .dir => Direction
  | .run => RunStatus

/-- Every register a rule can name (10_state.md), and the pulse output `fault_clr` (R52). -/
inductive Reg : Kind → Type where
  | prevRaw (c : Phase) : Reg .count
  | med0 (c : Phase) : Reg .count
  | med1 (c : Phase) : Reg .count
  | med2 (c : Phase) : Reg .count
  | integ1 (c : Phase) : Reg .acc
  | integ2 (c : Phase) : Reg .acc
  | integ3 (c : Phase) : Reg .acc
  | comb1 (c : Phase) : Reg .acc
  | comb2 (c : Phase) : Reg .acc
  | comb3 (c : Phase) : Reg .acc
  | out0 (c : Phase) : Reg .acc
  | out1 (c : Phase) : Reg .acc
  | out2 (c : Phase) : Reg .acc
  | out3 (c : Phase) : Reg .acc
  | offset (c : Phase) : Reg .num
  | calSum (c : Phase) : Reg .sum
  | decCnt : Reg .ctr
  | outCnt : Reg .ctr
  | calN : Reg .ctr
  | waitBase : Reg .ctr
  | lastSeen : Reg .ctr
  | posPrev : Reg .pos
  | posComp : Reg .nat
  | posCount : Reg .nat
  | angle : Reg .num
  | velPrevRaw : Reg .pos
  | velEst : Reg .num
  | ctlMode : Reg .mode
  | changeMode : Reg .bit
  | alignActive : Reg .bit
  | direction : Reg .dir
  | lockCnt : Reg .ctr
  | rotCnt : Reg .ctr
  | velCmd : Reg .num
  | velTarget : Reg .num
  | velRamped : Reg .num
  | idRef : Reg .num
  | iqRef : Reg .num
  | syncCnt : Reg .ctr
  | runStatus : Reg .run
  | runStatusPrev : Reg .run
  | rampStep : Reg .num
  | piD : Reg .piState
  | piQ : Reg .piState
  | piVel : Reg .piState
  | appState : Reg .app
  | fgPhase : Reg .phase
  | inactCnt : Reg .ctr
  | irqArmed : Reg .bit
  | posRun : Reg .bit
  | curRun : Reg .bit
  | pwmPinsEn : Reg .bit
  | pwmChEn : Reg .bit
  | indRun : Reg .bit
  | indIdle : Reg .bit
  | dutyU : Reg .num
  | dutyV : Reg .num
  | dutyW : Reg .num
  | faultClr : Reg .bit

/-- The filter registers of phase `c`. -/
def Filter.ofPhase {w : Widths} (f : Filter w) : Phase → PhaseFilter w
  | .u => f.u
  | .v => f.v

/-- `f` with the filter registers of phase `c` replaced. -/
def Filter.withPhase {w : Widths} (f : Filter w) (c : Phase) (p : PhaseFilter w) : Filter w :=
  match c with
  | .u => { f with u := p }
  | .v => { f with v := p }

/-- Reading a register: the one operation that does (R53: the whole register). -/
def State.get {w : Widths} {R : Type} (s : State w R) : (κ : Kind) → Reg κ → κ.type w R
  | _, .prevRaw c => (s.filt.ofPhase c).prevRaw
  | _, .med0 c => (s.filt.ofPhase c).med0
  | _, .med1 c => (s.filt.ofPhase c).med1
  | _, .med2 c => (s.filt.ofPhase c).med2
  | _, .integ1 c => (s.filt.ofPhase c).integ1
  | _, .integ2 c => (s.filt.ofPhase c).integ2
  | _, .integ3 c => (s.filt.ofPhase c).integ3
  | _, .comb1 c => (s.filt.ofPhase c).comb1
  | _, .comb2 c => (s.filt.ofPhase c).comb2
  | _, .comb3 c => (s.filt.ofPhase c).comb3
  | _, .out0 c => (s.filt.ofPhase c).out0
  | _, .out1 c => (s.filt.ofPhase c).out1
  | _, .out2 c => (s.filt.ofPhase c).out2
  | _, .out3 c => (s.filt.ofPhase c).out3
  | _, .offset .u => s.cal.offsetU
  | _, .offset .v => s.cal.offsetV
  | _, .calSum .u => s.cal.sumU
  | _, .calSum .v => s.cal.sumV
  | _, .decCnt => s.filt.decCnt
  | _, .outCnt => s.filt.outCnt
  | _, .calN => s.cal.calN
  | _, .waitBase => s.cal.waitBase
  | _, .lastSeen => s.cal.lastSeen
  | _, .posPrev => s.pos.prev
  | _, .posComp => s.pos.comp
  | _, .posCount => s.pos.count
  | _, .angle => s.pos.angle
  | _, .velPrevRaw => s.pos.velPrevRaw
  | _, .velEst => s.pos.velEst
  | _, .ctlMode => s.ctl.mode
  | _, .changeMode => s.ctl.changeMode
  | _, .alignActive => s.ctl.alignActive
  | _, .direction => s.ctl.direction
  | _, .lockCnt => s.ctl.lockCnt
  | _, .rotCnt => s.ctl.rotCnt
  | _, .velCmd => s.ctl.velCmd
  | _, .velTarget => s.ctl.velTarget
  | _, .velRamped => s.ctl.velRamped
  | _, .idRef => s.ctl.idRef
  | _, .iqRef => s.ctl.iqRef
  | _, .syncCnt => s.ctl.syncCnt
  | _, .runStatus => s.ctl.runStatus
  | _, .runStatusPrev => s.ctl.runStatusPrev
  | _, .rampStep => s.ctl.rampStep
  | _, .piD => s.loops.d
  | _, .piQ => s.loops.q
  | _, .piVel => s.loops.vel
  | _, .appState => s.seq.app
  | _, .fgPhase => s.seq.fgPhase
  | _, .inactCnt => s.seq.inactCnt
  | _, .irqArmed => s.per.irqArmed
  | _, .posRun => s.per.posRun
  | _, .curRun => s.per.curRun
  | _, .pwmPinsEn => s.per.pwmPinsEn
  | _, .pwmChEn => s.per.pwmChEn
  | _, .indRun => s.per.indRun
  | _, .indIdle => s.per.indIdle
  | _, .dutyU => s.duty.u
  | _, .dutyV => s.duty.v
  | _, .dutyW => s.duty.w
  | _, .faultClr => s.faultClr

/-- Writing a register: the one operation that does (R53). -/
def State.set {w : Widths} {R : Type} (s : State w R) : (κ : Kind) → Reg κ → κ.type w R → State w R
  | _, .prevRaw c, x => { s with filt := s.filt.withPhase c { s.filt.ofPhase c with prevRaw := x } }
  | _, .med0 c, x => { s with filt := s.filt.withPhase c { s.filt.ofPhase c with med0 := x } }
  | _, .med1 c, x => { s with filt := s.filt.withPhase c { s.filt.ofPhase c with med1 := x } }
  | _, .med2 c, x => { s with filt := s.filt.withPhase c { s.filt.ofPhase c with med2 := x } }
  | _, .integ1 c, x => { s with filt := s.filt.withPhase c { s.filt.ofPhase c with integ1 := x } }
  | _, .integ2 c, x => { s with filt := s.filt.withPhase c { s.filt.ofPhase c with integ2 := x } }
  | _, .integ3 c, x => { s with filt := s.filt.withPhase c { s.filt.ofPhase c with integ3 := x } }
  | _, .comb1 c, x => { s with filt := s.filt.withPhase c { s.filt.ofPhase c with comb1 := x } }
  | _, .comb2 c, x => { s with filt := s.filt.withPhase c { s.filt.ofPhase c with comb2 := x } }
  | _, .comb3 c, x => { s with filt := s.filt.withPhase c { s.filt.ofPhase c with comb3 := x } }
  | _, .out0 c, x => { s with filt := s.filt.withPhase c { s.filt.ofPhase c with out0 := x } }
  | _, .out1 c, x => { s with filt := s.filt.withPhase c { s.filt.ofPhase c with out1 := x } }
  | _, .out2 c, x => { s with filt := s.filt.withPhase c { s.filt.ofPhase c with out2 := x } }
  | _, .out3 c, x => { s with filt := s.filt.withPhase c { s.filt.ofPhase c with out3 := x } }
  | _, .offset .u, x => { s with cal := { s.cal with offsetU := x } }
  | _, .offset .v, x => { s with cal := { s.cal with offsetV := x } }
  | _, .calSum .u, x => { s with cal := { s.cal with sumU := x } }
  | _, .calSum .v, x => { s with cal := { s.cal with sumV := x } }
  | _, .decCnt, x => { s with filt := { s.filt with decCnt := x } }
  | _, .outCnt, x => { s with filt := { s.filt with outCnt := x } }
  | _, .calN, x => { s with cal := { s.cal with calN := x } }
  | _, .waitBase, x => { s with cal := { s.cal with waitBase := x } }
  | _, .lastSeen, x => { s with cal := { s.cal with lastSeen := x } }
  | _, .posPrev, x => { s with pos := { s.pos with prev := x } }
  | _, .posComp, x => { s with pos := { s.pos with comp := x } }
  | _, .posCount, x => { s with pos := { s.pos with count := x } }
  | _, .angle, x => { s with pos := { s.pos with angle := x } }
  | _, .velPrevRaw, x => { s with pos := { s.pos with velPrevRaw := x } }
  | _, .velEst, x => { s with pos := { s.pos with velEst := x } }
  | _, .ctlMode, x => { s with ctl := { s.ctl with mode := x } }
  | _, .changeMode, x => { s with ctl := { s.ctl with changeMode := x } }
  | _, .alignActive, x => { s with ctl := { s.ctl with alignActive := x } }
  | _, .direction, x => { s with ctl := { s.ctl with direction := x } }
  | _, .lockCnt, x => { s with ctl := { s.ctl with lockCnt := x } }
  | _, .rotCnt, x => { s with ctl := { s.ctl with rotCnt := x } }
  | _, .velCmd, x => { s with ctl := { s.ctl with velCmd := x } }
  | _, .velTarget, x => { s with ctl := { s.ctl with velTarget := x } }
  | _, .velRamped, x => { s with ctl := { s.ctl with velRamped := x } }
  | _, .idRef, x => { s with ctl := { s.ctl with idRef := x } }
  | _, .iqRef, x => { s with ctl := { s.ctl with iqRef := x } }
  | _, .syncCnt, x => { s with ctl := { s.ctl with syncCnt := x } }
  | _, .runStatus, x => { s with ctl := { s.ctl with runStatus := x } }
  | _, .runStatusPrev, x => { s with ctl := { s.ctl with runStatusPrev := x } }
  | _, .rampStep, x => { s with ctl := { s.ctl with rampStep := x } }
  | _, .piD, x => { s with loops := { s.loops with d := x } }
  | _, .piQ, x => { s with loops := { s.loops with q := x } }
  | _, .piVel, x => { s with loops := { s.loops with vel := x } }
  | _, .appState, x => { s with seq := { s.seq with app := x } }
  | _, .fgPhase, x => { s with seq := { s.seq with fgPhase := x } }
  | _, .inactCnt, x => { s with seq := { s.seq with inactCnt := x } }
  | _, .irqArmed, x => { s with per := { s.per with irqArmed := x } }
  | _, .posRun, x => { s with per := { s.per with posRun := x } }
  | _, .curRun, x => { s with per := { s.per with curRun := x } }
  | _, .pwmPinsEn, x => { s with per := { s.per with pwmPinsEn := x } }
  | _, .pwmChEn, x => { s with per := { s.per with pwmChEn := x } }
  | _, .indRun, x => { s with per := { s.per with indRun := x } }
  | _, .indIdle, x => { s with per := { s.per with indIdle := x } }
  | _, .dutyU, x => { s with duty := { s.duty with u := x } }
  | _, .dutyV, x => { s with duty := { s.duty with v := x } }
  | _, .dutyW, x => { s with duty := { s.duty with w := x } }
  | _, .faultClr, x => { s with faultClr := x }

/-! ### Temporaries

Not registers (R42): they belong to the operation in progress and go when it ends. -/

/-- The temporaries of the innermost operation in progress; with none in progress, those of an operation
invoked without operands. -/
def State.temps {w : Widths} {R : Type} [AddCommGroup R] (s : State w R) : Temps w R :=
  match s.frames with
  | [] => .zero
  | f :: _ => f.temps

/-- A change of the temporaries of the innermost operation in progress. -/
def State.record {w : Widths} {R : Type} (s : State w R) (out : Temps w R → Temps w R) : State w R :=
  match s.frames with
  | [] => s
  | f :: fs => { s with frames := { f with temps := out f.temps } :: fs }

/-! ### Programs of register accesses -/

/-- An operation as the sequence of its register accesses, in the order its pseudocode gives, each
access depending on the values read before it. Under `eventAtomic` a whole program is one step (R55);
under `fieldAtomic` each access is (R56). -/
inductive Prog (w : Widths) (R : Type) where
  /-- the operation has ended, and what its results make of its temporaries -/
  | done (out : Temps w R → Temps w R)
  /-- read a register -/
  | read {κ : Kind} (r : Reg κ) (k : κ.type w R → Prog w R)
  /-- write a register -/
  | write {κ : Kind} (r : Reg κ) (x : κ.type w R) (k : Prog w R)

/-- The end of an operation that has no result. -/
def Prog.stop {w : Widths} {R : Type} : Prog w R := .done id

/-- Performing a whole program: every read returns the latest write before it (R58). -/
def Prog.run {w : Widths} {R : Type} : Prog w R → State w R → State w R
  | .done _, s => s
  | .read r k, s => (k (s.get _ r)).run s
  | .write r x k, s => k.run (s.set _ r x)

/-- The results of a whole program. -/
def Prog.out {w : Widths} {R : Type} : Prog w R → State w R → Temps w R → Temps w R
  | .done f, _ => f
  | .read r k, s => (k (s.get _ r)).out s
  | .write r x k, s => k.out (s.set _ r x)

/-- A register value as a logged value. -/
def Val.ofKind {w : Widths} {R : Type} : (κ : Kind) → κ.type w R → Val w R
  | .count, x => .count x
  | .acc, x => .acc x
  | .ctr, x => .ctr x
  | .pos, x => .pos x
  | .sum, x => .sum x
  | .nat, x => .nat x
  | .num, x => .num x
  | .bit, x => .bit x
  | .piState, x => .piState x
  | .app, x => .app x
  | .phase, x => .phase x
  | .mode, x => .mode x
  | .dir, x => .dir x
  | .run, x => .run x

/-- A logged value as a value of a kind, where it is one. -/
def Val.toKind {w : Widths} {R : Type} : (κ : Kind) → Val w R → Option (κ.type w R)
  | .count, .count x => some x
  | .acc, .acc x => some x
  | .ctr, .ctr x => some x
  | .pos, .pos x => some x
  | .sum, .sum x => some x
  | .nat, .nat x => some x
  | .num, .num x => some x
  | .bit, .bit x => some x
  | .piState, .piState x => some x
  | .app, .app x => some x
  | .phase, .phase x => some x
  | .mode, .mode x => some x
  | .dir, .dir x => some x
  | .run, .run x => some x
  | _, _ => none

/-- What is left of a program after the accesses of a log; `none` where the log does not fit it. -/
def Prog.resume {w : Widths} {R : Type} : Prog w R → List (Val w R) → Option (Prog w R)
  | p, [] => some p
  | .done _, _ :: _ => none
  | .read (κ := κ) _ k, v :: vs =>
    match Val.toKind κ v with
    | some x => (k x).resume vs
    | none => none
  | .write _ _ k, v :: vs =>
    match v with
    | .wrote => k.resume vs
    | _ => none

/-- The next access of a program: the state after it, its log entry and what is left; `none` where the
program has ended. -/
def Prog.access {w : Widths} {R : Type} : Prog w R → State w R → Option (State w R × Val w R × Prog w R)
  | .done _, _ => none
  | .read (κ := κ) r k, s => some (s, Val.ofKind κ (s.get _ r), k (s.get _ r))
  | .write r x k, s => some (s.set _ r x, .wrote, k)

/-- The program has ended. -/
def Prog.isDone {w : Widths} {R : Type} : Prog w R → Bool
  | .done _ => true
  | .read _ _ => false
  | .write _ _ _ => false

/-- The number of accesses a program makes from state `s` when nothing falls between them. -/
def Prog.length {w : Widths} {R : Type} : Prog w R → State w R → Nat
  | .done _, _ => 0
  | .read r k, s => (k (s.get _ r)).length s + 1
  | .write r x k, s => k.length (s.set _ r x) + 1

/-- A part of a program that is there only under a condition (`if b: f`). -/
def Prog.onlyIf {w : Widths} {R : Type} (b : Bool) (f : Prog w R → Prog w R) (k : Prog w R) : Prog w R :=
  if b then f k else k

/-! ### Admission, entry and return

The block takes no exception (R197). What it has in the place of trap entry is the admission of an
event, which saves nothing and goes to the rule of the event (R208), and in the place of trap return
the end of that rule, which restores nothing (R209). -/

/-- Masking (R203): SAMPLE is admitted while the handlers are registered and the sampling hardware
runs, CONTROL while they are registered and the PWM channels run, everything else always. In Stopped
both are therefore still admitted until the FG step of that state has run MSTOP (R188), where the last
clause of R205 says that nothing of theirs changes in Stopped: R203 is followed (DESIGN CHOICE,
log 24). -/
def admitted {w : Widths} {R : Type} (i : Instr) (s : State w R) : Bool :=
  match i with
  | .sample => s.per.irqArmed && s.per.curRun
  | .control => s.per.irqArmed && s.per.pwmChEn
  | _ => true

/-- Performing an operation as one atomic step (R55): an admitted one runs wholly, a masked event is
dropped and changes nothing (R69, R203). -/
def perform {w : Widths} {R : Type} (i : Instr) (body : Prog w R) (s : State w R) :
    Host.Outcome (State w R) Fault Refusal :=
  .next (if admitted i s then body.run s else s)

/-- Performing a sub-operation that has results, by itself: they go to the temporaries of the operation
in progress (log 12). -/
def performResult {w : Widths} {R : Type} (body : Prog w R) (s : State w R) :
    Host.Outcome (State w R) Fault Refusal :=
  .next ((body.run s).record (body.out s))

/-- Entry under `fieldAtomic` (R208): an admitted event becomes the innermost operation in progress,
with the ports as they stand; a masked event is dropped. Nothing is saved. -/
def enterEvent {w : Widths} {R : Type} [AddCommGroup R] (i : Instr) (s : State w R) : State w R :=
  if admitted i s then { s with frames := ⟨i, s.ports, .zero, []⟩ :: s.frames } else s

/-- Return under `fieldAtomic` (R209): the innermost operation has ended; nothing is restored. -/
def leaveEvent {w : Widths} {R : Type} (s : State w R) : State w R := { s with frames := s.frames.tail }

end Sys2Proof.Machine
end

