-- ==== Sys2Proof/Machine/Operands.lean ====
section
/-! DEFINITION. The operand forms of the block: a port sampled at the event (20_memory.md rules R47, R49,
R53) and the signed and directional readings of a register. An operation word carries no operand
(R64). -/

namespace Sys2Proof.Machine

open Sys2Proof

/-- `PortRead(cur_cnt_u)` and `PortRead(cur_cnt_v)` (R47). -/
def portCurrent {w : Widths} (p : Ports w) : Phase → Count w
  | .u => p.curCntU
  | .v => p.curCntV

/-- `PortRead(pos_cnt)` (R47). -/
def portPosition {w : Widths} (p : Ports w) : Pos := p.posCnt

/-- `direction` as the integer +1 or -1 of arithmetic (R73). -/
def Direction.sign : Direction → Int
  | .plus => 1
  | .minus => -1

/-- `-direction` (R158). -/
def Direction.flip : Direction → Direction
  | .plus => .minus
  | .minus => .plus

/-- `zext(out_dl[c][0])` into a calibration sum (R100). -/
def extendOutput {w : Widths} (x : Acc w) : Sum := x.setWidth SUM_W

/-- The median, a `CW`-bit value, as an integrator addend (R78 (d)). -/
def extendMedian {w : Widths} (m : Count w) : Acc w := m.setWidth w.aw

/-- `sext_16((raw - base) mod 2^16)`: the signed 16-bit movement (R114, R116). -/
def signedMovement (raw base : Pos) : Int := (raw - base).toInt

end Sys2Proof.Machine
end

