-- ==== Sys2Proof/Machine/Environment.lean ====
section
/-! DEFINITION. What stands outside the block (20_memory.md rules R48 to R50, R60): how the environment
drives the input ports from its schedule, power-up reset (R217, R218), and the one-event pulse of
`fault_clr` (R52). -/

namespace Sys2Proof.Machine

open Sys2Proof

variable {R : Type}

/-- The input ports after their event has been taken: the strobe, `rst` and the press events are gone
(R49, R50), the counters hold (R48, R74: "a port keeps its value until a later line sets it"). -/
def releasePorts {w : Widths} (p : Ports w) : Ports w :=
  { p with rst := false, stb := false, btn := noButtons }

/-- The ports with an event presented; a port that is not named keeps its value (R50, R74). -/
def presentEvent {w : Widths} (p : Ports w) (ev : EvWord) (u v : Option (Count w)) (pos : Option Pos)
    (btn : Buttons) : Ports w :=
  { p with
    stb := true
    ev := ev
    curCntU := u.getD p.curCntU
    curCntV := v.getD p.curCntV
    posCnt := pos.getD p.posCnt
    btn := btn }

/-- The ports and the rest of the schedule when the next stimulus is presented on the released ports
`p`. `busy` says whether `fg_phase` is not IDLE, `inEvent` whether an operation is in progress: the rest
of a DISPATCH (R75) waits for it to end. -/
def nextStimulus {w : Widths} (p : Ports w) (busy inEvent : Bool) :
    List (Stimulus w) → Ports w × List (Stimulus w)
  | [] => (p, [])
  | .rst :: rest => ({ p with rst := true }, rest)
  | .quiet :: rest => (p, rest)
  | .event ev u v pos btn :: rest => (presentEvent p ev u v pos btn, rest)
  | .whileBusy :: rest =>
    if inEvent then (p, .whileBusy :: rest)
    else if busy then (presentEvent p 0b00011 none none none noButtons, .whileBusy :: rest)
    else nextStimulus p busy inEvent rest

/-- `fg_phase` is not IDLE: the foreground agent is inside the motor-start sequence (R37). -/
def startBusy {w : Widths} (s : State w R) : Bool :=
  match s.seq.fgPhase with
  | .idle => false
  | .settle => true
  | .cal => true

/-- The environment takes back the event that has been taken and presents its next stimulus (log 11).
No register changes. -/
def present {w : Widths} (s : State w R) : State w R :=
  let next := nextStimulus (releasePorts s.ports) (startBusy s) (!s.frames.isEmpty) s.script
  { s with ports := next.1, script := next.2 }

/-- Presenting only where no event waits on the port (R50: one event at a time). -/
def presentUnlessWaiting {w : Widths} (s : State w R) : State w R :=
  if s.ports.stb then s else present s

/-- An operation in progress has made an access: its event is under way. -/
def underWay {w : Widths} (s : State w R) : Bool := s.frames.any fun f => !f.log.isEmpty

/-- The pulse of `fault_clr` is one event long (R52): it ends when a step begins that finds no event
under way. Under `eventAtomic` that is the step after MSTART_END's, under `fieldAtomic` the step after
the last access of MSTART_END's event (log 13). -/
def endPulse {w : Widths} (s : State w R) : State w R :=
  if underWay s then s else { s with faultClr := false }

/-- Asserting `rst` (R217): every register takes its reset value; the input ports, the configuration
switches and the schedule are not touched (R218). An operation in progress ends, and an event that is
strobed on the port together with `rst` is not performed: `present`, which follows, takes it back with
`rst`, so that it is lost (DESIGN CHOICE, log 9). -/
def powerUp (s : State) : State :=
  { State.reset with preempt := s.preempt, prio := s.prio, ports := s.ports, script := s.script }

end Sys2Proof.Machine
end

