-- ==== Sys2Proof/Machine/Flags.lean ====
section
/-! DEFINITION. The conditions the rules test on counters, status bits and the angle: every one-bit
decision of the block that is more than reading a bit. -/

namespace Sys2Proof.Machine

open Sys2Proof

variable {S R : Type} [Field S] [AddCommGroup R] [Module S R]

/-- `dec_cnt = DECIM`: this SAMPLE is a decimation event (R77, R86). -/
def decimationDue (c : Config S R) (decCnt : Ctr c.widths) : Bool := decide (decCnt.toNat = c.decim)

/-- The settle wait is over: `(out_cnt - wait_base) mod 2^CTR_W >= N_SETTLE` (R99). -/
def settleOver (c : Config S R) (outCnt waitBase : Ctr c.widths) : Bool :=
  decide (c.nSettle ≤ (outCnt - waitBase).toNat)

/-- `out_cnt != last_seen`: the generation token has changed (R59, R100). -/
def newSample {w : Widths} (outCnt lastSeen : Ctr w) : Bool := decide (outCnt ≠ lastSeen)

/-- `cal_n = N_CAL`: the accumulation is complete (R100). -/
def calibrationOver (c : Config S R) (calN : Ctr c.widths) : Bool := decide (calN.toNat = c.nCal)

/-- The counter went from the upper band to the lower band: overflow (R106, both comparisons strict). -/
def wrappedUp (c : Config S R) (prev raw : Pos) : Bool :=
  decide (c.posUpperTh < prev.toNat) && decide (raw.toNat < c.posLowerTh)

/-- The counter went from the lower band to the upper band: underflow (R106). -/
def wrappedDown (c : Config S R) (prev raw : Pos) : Bool :=
  decide (prev.toNat < c.posLowerTh) && decide (c.posUpperTh < raw.toNat)

/-- The first slow loop of a run: `run_status_prev = Stop` and `run_status = Run` (R115). -/
def resyncDue (prev now : RunStatus) : Bool :=
  match prev, now with
  | .stop, .run => true
  | _, _ => false

/-- An alignment counter has not reached the lock time: `cnt < LOCK_COUNT_FOR_LOCK_TIME` (R128). -/
def lockPending (c : Config S R) (cnt : Ctr c.widths) : Bool := decide (cnt.toNat < c.lockCount)

/-- `sync_cnt >= SLOW_DIV` (R165). -/
def gateDue (c : Config S R) (syncCnt : Ctr c.widths) : Bool := decide (c.slowDiv ≤ syncCnt.toNat)

/-- `inact_cnt >= INACT_WARN_COUNT` (R162, R163). -/
def inactivityWarn (c : Config S R) (inactCnt : Ctr c.widths) : Bool := decide (c.inactWarn ≤ inactCnt.toNat)

/-- `inact_cnt >= INACT_STOP_COUNT` (R162, R163). -/
def inactivityStop (c : Config S R) (inactCnt : Ctr c.widths) : Bool := decide (c.inactStop ≤ inactCnt.toNat)

/-- Directional velocity, `direction * vel_est` (R117). -/
def directionalVelocity (_ : Config S R) (d : Direction) (velEst : R) : R := (d.sign : S) • velEst

/-- `direction * vel_est <= STOP_SPEED_TH` (R186). -/
def slowEnough (c : Config S R) (d : Direction) (velEst : R) : Bool :=
  c.real.le (directionalVelocity c d velEst) c.stopSpeedTh

/-- `abs(direction * vel_est - vel_target) <= STOP_MARGIN` (R186). -/
def withinMargin (c : Config S R) (d : Direction) (velEst velTarget : R) : Bool :=
  c.real.le (c.real.abs (directionalVelocity c d velEst - velTarget)) c.stopMargin

end Sys2Proof.Machine
end

