-- ==== Sys2Proof/Machine/Filter.lean ====
section
/-! DEFINITION. The current decimation pipeline and the offset calibration (40_current_filter.md): SAMPLE,
FILT, DECIMATE, CURACQ, SETTLEPOLL, CALPOLL. Each rule is a function from what follows it to a program,
so that an operation can run inside another in place (00_scope.md section 6, `do NAME`). -/

namespace Sys2Proof.Machine

open Sys2Proof

variable {S R : Type} [Field S] [AddCommGroup R] [Module S R]

/-! ### FILT (R78 to R85) -/

/-- Step (a): `(raw - prev_raw) mod 2^CW` (R79). -/
def firstDelta {w : Widths} (raw prevRaw : Count w) : Count w := raw - prevRaw

/-- Step (b): `min(delta, DELTA_MAX)` (R80). -/
def clampDelta (c : Config S R) (delta : Count c.widths) : Count c.widths :=
  if delta.toNat ≤ c.deltaMax then delta else BitVec.ofNat c.widths.cw c.deltaMax

/-- The smaller of two counts. -/
def minCount {w : Widths} (a b : Count w) : Count w := if a.toNat ≤ b.toNat then a else b

/-- The larger of two counts. -/
def maxCount {w : Widths} (a b : Count w) : Count w := if a.toNat ≤ b.toNat then b else a

/-- `median3(a, b, c)` (00_scope.md section 6): `max(min(a, b), min(max(a, b), c))`. -/
def median3 {w : Widths} (a b d : Count w) : Count w :=
  maxCount (minCount a b) (minCount (maxCount a b) d)

/-- FILT(c, raw) (R78). -/
def filt (c : Config S R) (ph : Phase) (raw : Count c.widths) (k : Prog c.widths R) : Prog c.widths R :=
  .read (.prevRaw ph) fun prevRaw =>
  .write (.prevRaw ph) raw <|
  .read (.med1 ph) fun m1 =>
  .write (.med2 ph) m1 <|
  .read (.med0 ph) fun m0 =>
  .write (.med1 ph) m0 <|
  .write (.med0 ph) (clampDelta c (firstDelta raw prevRaw)) <|
  .read (.med0 ph) fun d0 =>
  .read (.med1 ph) fun d1 =>
  .read (.med2 ph) fun d2 =>
  .read (.integ1 ph) fun i1 =>
  .write (.integ1 ph) (i1 + extendMedian (median3 d0 d1 d2)) <|
  .read (.integ2 ph) fun i2 =>
  .read (.integ1 ph) fun i1' =>
  .write (.integ2 ph) (i2 + i1') <|
  .read (.integ3 ph) fun i3 =>
  .read (.integ2 ph) fun i2' =>
  .write (.integ3 ph) (i3 + i2') k

/-! ### DECIMATE (R89 to R92) -/

/-- One phase of DECIMATE: three combs and the output delay line (R89, R90, R91). -/
def decimatePhase {w : Widths} (ph : Phase) (k : Prog w R) : Prog w R :=
  .read (.integ3 ph) fun x =>
  .read (.comb1 ph) fun p1 =>
  .write (.comb1 ph) x <|
  .read (.comb2 ph) fun p2 =>
  .write (.comb2 ph) (x - p1) <|
  .read (.comb3 ph) fun p3 =>
  .write (.comb3 ph) (x - p1 - p2) <|
  .read (.out2 ph) fun o2 =>
  .write (.out3 ph) o2 <|
  .read (.out1 ph) fun o1 =>
  .write (.out2 ph) o1 <|
  .read (.out0 ph) fun o0 =>
  .write (.out1 ph) o0 <|
  .write (.out0 ph) (x - p1 - p2 - p3) k

/-- DECIMATE (R89): both phases, then `out_cnt` (R59, R92). -/
def decimate {w : Widths} (k : Prog w R) : Prog w R :=
  decimatePhase .u <|
  decimatePhase .v <|
  .read .outCnt fun n =>
  .write .outCnt (n + 1) k

/-! ### SAMPLE (R77, R86) -/

/-- SAMPLE (R77) once admitted. -/
def sampleBody (c : Config S R) (p : Ports c.widths) (k : Prog c.widths R) : Prog c.widths R :=
  filt c .u (portCurrent p .u) <|
  filt c .v (portCurrent p .v) <|
  .read .decCnt fun n =>
  .write .decCnt (n + 1) <|
  .read .decCnt fun n' =>
  Prog.onlyIf (decimationDue c n') (fun k => .write .decCnt 0 <| decimate k) k

/-! ### CURACQ (R94 to R97) -/

/-- The weighted average over the output delay line, exact in the rationals (R95). -/
def weightedAverage (c : Config S R) (o0 o1 o2 o3 : Acc c.widths) : S :=
  ((c.avgW0 * o0.toNat + c.avgW1 * o1.toNat + c.avgW2 * o2.toNat + c.avgW3 * o3.toNat : Nat) : S)
    / (c.avgWSum : S)

/-- Offset removal and scaling (R96). -/
def phaseCurrent (c : Config S R) (avg : S) (offset : R) : R :=
  c.rnd (c.currentGain • (c.real.ofScale avg - offset))

/-- The third phase current (R97). -/
def thirdCurrent (c : Config S R) (iU iV : R) : R := c.rnd (-iU - iV)

/-- CURACQ (R94); its results go to what follows. The reads of `out_dl` are in the order of R56 (a). -/
def curAcq (c : Config S R) (k : R → R → R → Prog c.widths R) : Prog c.widths R :=
  .read (.out0 .u) fun u0 =>
  .read (.out1 .u) fun u1 =>
  .read (.out2 .u) fun u2 =>
  .read (.out3 .u) fun u3 =>
  .read (.offset .u) fun offU =>
  .read (.out0 .v) fun v0 =>
  .read (.out1 .v) fun v1 =>
  .read (.out2 .v) fun v2 =>
  .read (.out3 .v) fun v3 =>
  .read (.offset .v) fun offV =>
  let iU := phaseCurrent c (weightedAverage c u0 u1 u2 u3) offU
  let iV := phaseCurrent c (weightedAverage c v0 v1 v2 v3) offV
  k iU iV (thirdCurrent c iU iV)

/-! ### SETTLEPOLL and CALPOLL (R98 to R102) -/

/-- SETTLEPOLL (R99). -/
def settlePoll (c : Config S R) (k : Prog c.widths R) : Prog c.widths R :=
  .read .outCnt fun n =>
  .read .waitBase fun base =>
  Prog.onlyIf (settleOver c n base)
    (fun k =>
      .write (.calSum .u) 0 <|
      .write (.calSum .v) 0 <|
      .write .calN 0 <|
      .read .outCnt fun n' =>
      .write .lastSeen n' <|
      .write .fgPhase .cal k) k

/-- The calibrated offset: the exact mean, clamped silently (R101). -/
def calibratedOffset (c : Config S R) (sum : Sum) : R :=
  c.rnd (c.real.clamp (c.real.ofScale ((sum.toNat : S) / (c.nCal : S))) c.offsetMin c.offsetMax)

/-- End of calibration (R101). -/
def endCalibration (c : Config S R) (k : Prog c.widths R) : Prog c.widths R :=
  .read (.calSum .u) fun sumU =>
  .write (.offset .u) (calibratedOffset c sumU) <|
  .read (.calSum .v) fun sumV =>
  .write (.offset .v) (calibratedOffset c sumV) k

/-- CALPOLL (R100); `done` goes to what follows. Under `fieldAtomic` a decimation event may fall between the
read of `out_cnt` for `last_seen` and the reads of `out_dl` (R56 (b)); the next poll then adds the same
output again, so that R224's "never counts a sample twice" holds under `eventAtomic` only (DESIGN CHOICE,
log 26). -/
def calPoll (c : Config S R) (k : Bool → Prog c.widths R) : Prog c.widths R :=
  .read .outCnt fun n =>
  .read .lastSeen fun seen =>
  if newSample n seen then
    .read .outCnt fun n' =>
    .write .lastSeen n' <|
    .read (.calSum .u) fun sumU =>
    .read (.out0 .u) fun u0 =>
    .write (.calSum .u) (sumU + extendOutput u0) <|
    .read (.calSum .v) fun sumV =>
    .read (.out0 .v) fun v0 =>
    .write (.calSum .v) (sumV + extendOutput v0) <|
    .read .calN fun m =>
    .write .calN (m + 1) <|
    .read .calN fun m' =>
    if calibrationOver c m' then endCalibration c (k true) else k false
  else k false

/-! ### The operations of the opcode table -/

/-- CURACQ by itself, with its results (log 12). -/
def opCuracq (c : Config S R) : Prog c.widths R :=
  curAcq c fun iU iV iW => .done fun t => { t with iU := iU, iV := iV, iW := iW }

/-- CALPOLL by itself, with its result (log 12). -/
def opCalpoll (c : Config S R) : Prog c.widths R :=
  calPoll c fun done => .done fun t => { t with done := done }

/-- SAMPLE, event 00001 (R77). -/
def execSample (s : State) : Host.Outcome State Fault Refusal :=
  perform .sample (sampleBody Config.machine s.ports .stop) s

/-- FILT, sub-operation 10000 (R78), its operands those of its invocation (log 12). -/
def execFilt (s : State) : Host.Outcome State Fault Refusal :=
  perform .filt (filt Config.machine s.temps.phase s.temps.raw .stop) s

/-- DECIMATE, sub-operation 10001 (R89). -/
def execDecimate (s : State) : Host.Outcome State Fault Refusal :=
  perform .decimate (decimate .stop) s

/-- CURACQ, sub-operation 10010 (R94). -/
def execCuracq (s : State) : Host.Outcome State Fault Refusal :=
  performResult (opCuracq Config.machine) s

/-- SETTLEPOLL, sub-operation 11011 (R99). -/
def execSettlepoll (s : State) : Host.Outcome State Fault Refusal :=
  perform .settlepoll (settlePoll Config.machine .stop) s

/-- CALPOLL, sub-operation 11100 (R100). -/
def execCalpoll (s : State) : Host.Outcome State Fault Refusal :=
  performResult (opCalpoll Config.machine) s

end Sys2Proof.Machine
end

