-- ==== Sys2Proof/Machine/Position.lean ====
section
/-! DEFINITION. The position and speed estimator (41_position_estimator.md): POSUPD and the functions
NORM and VELEST. -/

namespace Sys2Proof.Machine

open Sys2Proof

variable {S R : Type} [Field S] [AddCommGroup R] [Module S R]

/-- NORM(theta), angle normalisation (R111, R112). -/
def norm (c : Config S R) (theta : R) : R :=
  if c.real.le c.real.twoPi theta then c.rnd (theta - c.real.twoPi)
  else if c.real.lt theta 0 then c.rnd (theta + c.real.twoPi)
  else theta

/-- The new `pos_comp`: one span of 65536 counts added or taken on a wrap, reduced by the Euclidean
remainder (R104, R106, R107, R108). -/
def nextComp (c : Config S R) (prev raw : Pos) (comp : Nat) : Nat :=
  if wrappedUp c prev raw then (comp + 65536) % c.pper
  else if wrappedDown c prev raw then (((comp : Int) - 65536) % (c.pper : Int)).toNat
  else comp % c.pper

/-- `(raw + pos_comp) mod PPER` (R109). -/
def compensatedCount (c : Config S R) (raw : Pos) (comp : Nat) : Nat := (raw.toNat + comp) % c.pper

/-- `NORM(rnd(pos_count * TWO_PI / PPER))` (R110, R111). -/
def angleOfCount (c : Config S R) (count : Nat) : R :=
  norm c (c.rnd (((count : S) / (c.pper : S)) • c.real.twoPi))

/-- POSUPD (R104); the port is sampled once (R105). -/
def posUpd (c : Config S R) (p : Ports c.widths) (k : Prog c.widths R) : Prog c.widths R :=
  let raw := portPosition p
  .read .posPrev fun prev =>
  .read .posComp fun comp =>
  .write .posComp (nextComp c prev raw comp) <|
  .write .posPrev raw <|
  .read .posComp fun comp' =>
  .write .posCount (compensatedCount c raw comp') <|
  .read .posCount fun count =>
  .write .angle (angleOfCount c count) k

/-- `dlt * TWO_PI / (PPER * T_SLOW)`, rounded (R114). -/
def velocityOf (c : Config S R) (dlt : Int) : R :=
  c.rnd (((dlt : S) / ((c.pper : S) * c.tSlow)) • c.real.twoPi)

/-- VELEST (R114, R115, R116). -/
def velEst (c : Config S R) (p : Ports c.widths) (k : Prog c.widths R) : Prog c.widths R :=
  let raw := portPosition p
  .read .runStatusPrev fun statusPrev =>
  .read .runStatus fun status =>
  Prog.onlyIf (resyncDue statusPrev status) (fun k => .write .velPrevRaw raw k) <|
  .read .velPrevRaw fun base =>
  .write .velEst (velocityOf c (signedMovement raw base)) <|
  .write .velPrevRaw raw <|
  .read .runStatus fun status' =>
  .write .runStatusPrev status' k

/-- POSUPD, sub-operation 10110 (R104). -/
def execPosupd (s : State) : Host.Outcome State Fault Refusal :=
  perform .posupd (posUpd Config.machine s.ports .stop) s

end Sys2Proof.Machine
end

