-- ==== Sys2Proof/Machine/PwmDuty.lean ====
section
/-! DEFINITION. The PWM duty generator (43_pwm_duty.md): DUTYGEN and the level and pulse output ports
(20_memory.md rules R51, R52). The library functions are `Config.lib` (R142 to R148). -/

namespace Sys2Proof.Machine

open Sys2Proof

variable {S R : Type} [Field S] [AddCommGroup R] [Module S R]

/-- A pair of library results, each rounded (R4, R121; log 3). -/
def roundPair (c : Config S R) (x : R × R) : R × R := (c.rnd x.1, c.rnd x.2)

/-- `invpark(v_d, v_q, angle)` as DUTYGEN uses it (R141, R145). -/
def statorVoltage (c : Config S R) (vD vQ angle : R) : R × R :=
  roundPair c (c.lib.invpark vD vQ angle)

/-- `svpwm(v_alpha, v_beta)` (R146): passed through apart from `rnd` (R150). -/
def dutyTriple (c : Config S R) (v : R × R) : R × R × R :=
  let d := c.lib.svpwm v.1 v.2
  (c.rnd d.1, c.rnd d.2.1, c.rnd d.2.2)

/-- DUTYGEN(v_d, v_q) (R141): duty1, duty2, duty3 to U, V, W (R149). The duty registers drive the
ports of the same name (R51). -/
def dutyGen (c : Config S R) (vD vQ : R) (k : Prog c.widths R) : Prog c.widths R :=
  .read .angle fun angle =>
  let d := dutyTriple c (statorVoltage c vD vQ angle)
  .write .dutyU d.1 <|
  .write .dutyV d.2.1 <|
  .write .dutyW d.2.2 k

/-- DUTYGEN, sub-operation 10111 (R141), its operands those of its invocation (log 12). -/
def execDutygen (s : State) : Host.Outcome State Fault Refusal :=
  perform .dutygen (dutyGen Config.machine s.temps.vD s.temps.vQ .stop) s

/-- The output ports as the platform sees them (R51, R52). -/
structure Outputs (R : Type) where
  dutyU : R
  dutyV : R
  dutyW : R
  pwmPinsEn : Bool
  pwmChEn : Bool
  posRun : Bool
  curRun : Bool
  irqArmed : Bool
  indRun : Bool
  indIdle : Bool
  faultClr : Bool
  deriving DecidableEq, Repr

/-- Each level output is the register of its name; `fault_clr` is the pulse (R51, R52). -/
def State.outputs {w : Widths} {R : Type} (s : State w R) : Outputs R :=
  { dutyU := s.duty.u
    dutyV := s.duty.v
    dutyW := s.duty.w
    pwmPinsEn := s.per.pwmPinsEn
    pwmChEn := s.per.pwmChEn
    posRun := s.per.posRun
    curRun := s.per.curRun
    irqArmed := s.per.irqArmed
    indRun := s.per.indRun
    indIdle := s.per.indIdle
    faultClr := s.faultClr }

end Sys2Proof.Machine
end

