-- ==== Sys2Proof/Machine/VectorControl.lean ====
section
/-! DEFINITION. The vector control state machine (42_vector_control.md): CONTROL, CURLOOP, ANGUPD, ALIGN
and the handover. -/

namespace Sys2Proof.Machine

open Sys2Proof

variable {S R : Type} [Field S] [AddCommGroup R] [Module S R]

/-- `pi_zero(s)`: the integrator term 0, every other field in its initial value (R21). -/
def piZero (c : Config S R) (s : PIState R) : PIState R := { s with integ := 0, rest := c.lib.piInitRest }

/-- The open-loop q-axis reference, `rnd(direction * OL_IQ_REF)` (R124, R125). -/
def openLoopIq (c : Config S R) (d : Direction) : R := c.rnd ((d.sign : S) • c.olIqRef)

/-- The two current PI calls of CURLOOP (R124): `pi_control` with the measured value first. -/
def currentPIs (c : Config S R) (iD iQ : R) (k : R → R → Prog c.widths R) : Prog c.widths R :=
  .read .piD fun sD =>
  .read .idRef fun idRef =>
  .write .piD (c.lib.piControl c.gainsD sD iD idRef).2 <|
  .read .piQ fun sQ =>
  .read .iqRef fun iqRef =>
  .write .piQ (c.lib.piControl c.gainsQ sQ iQ iqRef).2 <|
  k (c.lib.piControl c.gainsD sD iD idRef).1 (c.lib.piControl c.gainsQ sQ iQ iqRef).1

/-- CURLOOP(i_d, i_q) (R124, R125, R126, R133); `v_d`, `v_q` go to what follows. -/
def curLoop (c : Config S R) (iD iQ : R) (k : R → R → Prog c.widths R) : Prog c.widths R :=
  .read .ctlMode fun mode =>
  match mode with
  | .openLoop =>
    .read .direction fun d =>
    .write .iqRef (openLoopIq c d) <|
    .write .idRef 0 <|
    currentPIs c iD iQ k
  | .closedLoop =>
    .read .changeMode fun edge =>
    if edge then
      .read .piVel fun sV =>
      .write .piVel (piZero c sV) <|
      .write .idRef 0 <|
      .write .changeMode false <|
      currentPIs c iD iQ k
    else
      .write .idRef 0 <|
      currentPIs c iD iQ k

/-- The handover (R130). -/
def handover {w : Widths} (k : Prog w R) : Prog w R :=
  .write .alignActive false <|
  .write .posComp 0 <|
  .write .posPrev 0 <|
  .write .velPrevRaw 0 <|
  .write .posCount 0 <|
  .write .angle 0 <|
  .write .ctlMode .closedLoop <|
  .write .changeMode true k

/-- The angle of the field lock, `NORM(rnd(ALIGN_ANGLE))` (R128). -/
def lockAngle (c : Config S R) : R := norm c (c.rnd c.alignAngle)

/-- The angle of the forced rotation, `NORM(rnd(ALIGN_ANGLE + direction * pi/2))` (R128). -/
def rotationAngle (c : Config S R) (d : Direction) : R :=
  norm c (c.rnd (c.alignAngle + ((d.sign : S) / 2) • c.real.pi))

/-- ALIGN (R128, R131). -/
def align (c : Config S R) (k : Prog c.widths R) : Prog c.widths R :=
  .read .alignActive fun active =>
  if active then
    .read .lockCnt fun lock =>
    if lockPending c lock then
      .write .angle (lockAngle c) <|
      .read .lockCnt fun lock' =>
      .write .lockCnt (lock' + 1) k
    else
      .read .rotCnt fun rot =>
      if lockPending c rot then
        .read .direction fun d =>
        .write .angle (rotationAngle c d) <|
        .read .rotCnt fun rot' =>
        .write .rotCnt (rot' + 1) k
      else handover k
  else k

/-- ANGUPD (R127). -/
def angUpd (c : Config S R) (p : Ports c.widths) (k : Prog c.widths R) : Prog c.widths R :=
  .read .ctlMode fun mode =>
  match mode with
  | .openLoop => align c k
  | .closedLoop => posUpd c p k

/-- `clarke(i_u, i_v, i_w)` as CONTROL uses it (R121, R143). -/
def statorCurrent (c : Config S R) (iU iV iW : R) : R × R := roundPair c (c.lib.clarke iU iV iW)

/-- `park(i_alpha, i_beta, angle)` as CONTROL uses it (R121, R144). -/
def rotorCurrent (c : Config S R) (i : R × R) (angle : R) : R × R :=
  roundPair c (c.lib.park i.1 i.2 angle)

/-- CONTROL (R119) once admitted: seven steps in the fixed order of R120. -/
def controlBody (c : Config S R) (p : Ports c.widths) (k : Prog c.widths R) : Prog c.widths R :=
  curAcq c fun iU iV iW =>
  .read .angle fun angle =>
  let i := rotorCurrent c (statorCurrent c iU iV iW) angle
  curLoop c i.1 i.2 fun vD vQ =>
  angUpd c p <|
  dutyGen c vD vQ <|
  .read .syncCnt fun n =>
  .write .syncCnt (n + 1) k

/-- CURLOOP by itself, with its results (log 12). -/
def opCurloop (c : Config S R) (iD iQ : R) : Prog c.widths R :=
  curLoop c iD iQ fun vD vQ => .done fun t => { t with vD := vD, vQ := vQ }

/-- CONTROL, event 00010 (R119). -/
def execControl (s : State) : Host.Outcome State Fault Refusal :=
  perform .control (controlBody Config.machine s.ports .stop) s

/-- CURLOOP, sub-operation 10011 (R124), its operands those of its invocation (log 12). -/
def execCurloop (s : State) : Host.Outcome State Fault Refusal :=
  performResult (opCurloop Config.machine s.temps.iD s.temps.iQ) s

/-- ANGUPD, sub-operation 10100 (R127). -/
def execAngupd (s : State) : Host.Outcome State Fault Refusal :=
  perform .angupd (angUpd Config.machine s.ports .stop) s

/-- ALIGN, sub-operation 10101 (R128). -/
def execAlign (s : State) : Host.Outcome State Fault Refusal :=
  perform .align (align Config.machine .stop) s

end Sys2Proof.Machine
end

