-- ==== Sys2Proof/Machine/Scheduler.lean ====
section
/-! DEFINITION. The real-time scheduler and the application state machine (44_scheduler.md): IDLE, FG, INIT,
CPRESET, MSTART_BEGIN, MSTART_END, MSTOP, SLOWLOOP and the function GATE. -/

namespace Sys2Proof.Machine

open Sys2Proof

variable {S R : Type} [Field S] [AddCommGroup R] [Module S R]

/-! ### The parts of FG -/

/-- GATE() (R165): the test and, when it fires, the reset of `sync_cnt`; the answer goes to what
follows. -/
def gate (c : Config S R) (k : Bool → Prog c.widths R) : Prog c.widths R :=
  .read .syncCnt fun n =>
  if gateDue c n then .write .syncCnt 0 <| k true else k false

/-- INIT (R156). -/
def initOp {w : Widths} (k : Prog w R) : Prog w R :=
  .write .pwmPinsEn false <|
  .write .irqArmed true <|
  .write .direction .plus k

/-- CPRESET (R172): every ControlParameters register but `direction` (R173). -/
def cpReset (c : Config S R) (k : Prog c.widths R) : Prog c.widths R :=
  .write .ctlMode .openLoop <|
  .write .changeMode false <|
  .write .alignActive true <|
  .write .lockCnt 0 <|
  .write .rotCnt 0 <|
  .write .velCmd c.velCmdDefault <|
  .write .velTarget c.velCmdDefault <|
  .write .velRamped 0 <|
  .write .idRef 0 <|
  .write .iqRef 0 <|
  .write .syncCnt 0 <|
  .write .runStatus .stop <|
  .write .runStatusPrev .stop <|
  .write .rampStep c.rampStepDefault k

/-- MSTART_BEGIN (R174). -/
def mstartBegin (c : Config S R) (k : Prog c.widths R) : Prog c.widths R :=
  cpReset c <|
  .write .runStatus .run <|
  .read .piD fun sD =>
  .write .piD (piZero c sD) <|
  .read .piQ fun sQ =>
  .write .piQ (piZero c sQ) <|
  .read .piVel fun sV =>
  .write .piVel (piZero c sV) <|
  .write .posPrev 0 <|
  .write .posComp 0 <|
  .write .posCount 0 <|
  .write .angle 0 <|
  .write .velPrevRaw 0 <|
  .write .velEst 0 <|
  .write .posRun true <|
  .write .curRun true <|
  .read .outCnt fun n =>
  .write .waitBase n <|
  .write .fgPhase .settle k

/-- MSTART_END (R175): PWM on, and the `fault_clr` pulse (R52). -/
def mstartEnd {w : Widths} (k : Prog w R) : Prog w R :=
  .write .pwmPinsEn true <|
  .write .pwmChEn true <|
  .write .faultClr true k

/-- MSTOP (R177). -/
def mstop (c : Config S R) (k : Prog c.widths R) : Prog c.widths R :=
  .write .pwmPinsEn false <|
  .write .pwmChEn false <|
  cpReset c <|
  .write .posRun false <|
  .write .curRun false <|
  .read .piVel fun sV =>
  .write .piVel (piZero c sV) k

/-- The ramp upwards, `rnd(min(vel_ramped + ramp_step, vel_target))` (R166, R167). -/
def rampUp (c : Config S R) (ramped step target : R) : R := c.rnd (c.real.min (ramped + step) target)

/-- The ramp downwards, `rnd(max(vel_ramped - ramp_step, vel_target))` (R166, R167). -/
def rampDown (c : Config S R) (ramped step target : R) : R := c.rnd (c.real.max (ramped - step) target)

/-- The ramp of SLOWLOOP (R166, R167). -/
def ramp (c : Config S R) (k : Prog c.widths R) : Prog c.widths R :=
  .read .velRamped fun r =>
  .read .velTarget fun t =>
  if c.real.lt r t then
    .read .velRamped fun r' =>
    .read .rampStep fun st =>
    .read .velTarget fun t' =>
    .write .velRamped (rampUp c r' st t') k
  else if c.real.lt t r then
    .read .velRamped fun r' =>
    .read .rampStep fun st =>
    .read .velTarget fun t' =>
    .write .velRamped (rampDown c r' st t') k
  else k

/-- The reference of the velocity PI, `rnd(direction * vel_ramped)` (R166, R169). -/
def velocityReference (c : Config S R) (d : Direction) (ramped : R) : R := c.rnd ((d.sign : S) • ramped)

/-- SLOWLOOP (R166): ramp, VELEST, velocity PI. -/
def slowLoop (c : Config S R) (p : Ports c.widths) (k : Prog c.widths R) : Prog c.widths R :=
  ramp c <|
  velEst c p <|
  .read .piVel fun sV =>
  .read .velEst fun v =>
  .read .direction fun d =>
  .read .velRamped fun r =>
  .write .piVel (c.lib.piControl c.gainsVel sV v (velocityReference c d r)).2 <|
  .write .iqRef (c.lib.piControl c.gainsVel sV v (velocityReference c d r)).1 k

/-! ### The state steps (R155 to R188) -/

/-- Init step (R155). -/
def initStep {w : Widths} (k : Prog w R) : Prog w R := initOp <| .write .appState .waitStart k

/-- WaitStart step (R158): the direction button first. -/
def waitStartStep {w : Widths} (p : Ports w) (k : Prog w R) : Prog w R :=
  Prog.onlyIf p.btn.dir (fun k => .read .direction fun d => .write .direction d.flip k) <|
  Prog.onlyIf p.btn.start (fun k => .write .appState .start k) k

/-- Start step (R160). -/
def startStep (c : Config S R) (k : Prog c.widths R) : Prog c.widths R :=
  .read .fgPhase fun ph =>
  match ph with
  | .idle => .write .indRun true <| mstartBegin c k
  | .settle => settlePoll c k
  | .cal =>
    calPoll c fun done =>
    Prog.onlyIf done
      (fun k =>
        mstartEnd <|
        .write .inactCnt 0 <|
        .write .fgPhase .idle <|
        .write .appState .running k) k

/-- The commanded velocity after an increment (R162, R164). -/
def incremented (c : Config S R) (v : R) : R := c.rnd (c.real.min (v + c.velCmdStep) c.velCmdMax)

/-- The commanded velocity after a decrement (R162, R164). -/
def decremented (c : Config S R) (v : R) : R := c.rnd (c.real.max (v - c.velCmdStep) c.velCmdMin)

/-- The button part of the Running step (R162, R164), with `next` as the gate part left it. -/
def runningButtons (c : Config S R) (b : Buttons) (next : AppState) (k : Prog c.widths R) :
    Prog c.widths R :=
  Prog.onlyIf b.inc (fun k => .read .velCmd fun v => .write .velCmd (incremented c v) k) <|
  Prog.onlyIf b.dec (fun k => .read .velCmd fun v => .write .velCmd (decremented c v) k) <|
  Prog.onlyIf b.reset (fun k => .write .velCmd c.velCmdDefault k) <|
  Prog.onlyIf (b.inc || b.dec || b.reset)
    (fun k => .read .velCmd fun v => .write .velTarget v k) <|
  Prog.onlyIf (b.start || b.inc || b.dec || b.reset) (fun k => .write .inactCnt 0 k) <|
  .write .appState (if b.start then .stopDecrease else next) k

/-- Running step (R162): the gate part first, the buttons second. -/
def runningStep (c : Config S R) (p : Ports c.widths) (k : Prog c.widths R) : Prog c.widths R :=
  gate c fun fired =>
  if fired then
    slowLoop c p <|
    .read .inactCnt fun n =>
    .write .inactCnt (n + 1) <|
    .read .inactCnt fun n1 =>
    Prog.onlyIf (inactivityWarn c n1) (fun k => .write .indIdle true k) <|
    .read .inactCnt fun n2 =>
    runningButtons c p.btn (if inactivityStop c n2 then .stopDecrease else .running) k
  else runningButtons c p.btn .running k

/-- The lowered target, `rnd(max(vel_target - STOP_DEC_STEP, 0))` (R186). -/
def loweredTarget (c : Config S R) (target : R) : R := c.rnd (c.real.max (target - c.stopDecStep) 0)

/-- StopDecrease step (R186): the exit test before the gate. -/
def stopDecreaseStep (c : Config S R) (p : Ports c.widths) (k : Prog c.widths R) : Prog c.widths R :=
  .read .direction fun d =>
  .read .velEst fun v =>
  if slowEnough c d v then .write .appState .stopped k
  else
    gate c fun fired =>
    if fired then
      slowLoop c p <|
      .read .direction fun d' =>
      .read .velEst fun v' =>
      .read .velTarget fun t =>
      Prog.onlyIf (withinMargin c d' v' t)
        (fun k => .read .velTarget fun t' => .write .velTarget (loweredTarget c t') k) k
    else k

/-- Stopped step (R188). -/
def stoppedStep (c : Config S R) (k : Prog c.widths R) : Prog c.widths R :=
  .write .indRun false <|
  .write .indIdle false <|
  mstop c <|
  .write .appState .waitStart k

/-- FG (R153): exactly one state's rule. -/
def fgBody (c : Config S R) (p : Ports c.widths) (k : Prog c.widths R) : Prog c.widths R :=
  .read .appState fun st =>
  match st with
  | .init => initStep k
  | .waitStart => waitStartStep p k
  | .start => startStep c k
  | .running => runningStep c p k
  | .stopDecrease => stopDecreaseStep c p k
  | .stopped => stoppedStep c k

/-! ### The operations of the opcode table -/

/-- IDLE, event 00000 (R66): no register, no port. -/
def execIdle (s : State) : Host.Outcome State Fault Refusal := perform .idle .stop s

/-- FG, event 00011 (R153), never masked. -/
def execFg (s : State) : Host.Outcome State Fault Refusal :=
  perform .fg (fgBody Config.machine s.ports .stop) s

/-- INIT, sub-operation 11000 (R156). -/
def execInit (s : State) : Host.Outcome State Fault Refusal := perform .init (initOp .stop) s

/-- CPRESET, sub-operation 11001 (R172). -/
def execCpreset (s : State) : Host.Outcome State Fault Refusal :=
  perform .cpreset (cpReset Config.machine .stop) s

/-- MSTART_BEGIN, sub-operation 11010 (R174). -/
def execMstartBegin (s : State) : Host.Outcome State Fault Refusal :=
  perform .mstartBegin (mstartBegin Config.machine .stop) s

/-- MSTART_END, sub-operation 11101 (R175). -/
def execMstartEnd (s : State) : Host.Outcome State Fault Refusal :=
  perform .mstartEnd (mstartEnd .stop) s

/-- MSTOP, sub-operation 11110 (R177). -/
def execMstop (s : State) : Host.Outcome State Fault Refusal :=
  perform .mstop (mstop Config.machine .stop) s

/-- SLOWLOOP, sub-operation 11111 (R166). -/
def execSlowloop (s : State) : Host.Outcome State Fault Refusal :=
  perform .slowloop (slowLoop Config.machine s.ports .stop) s

end Sys2Proof.Machine
end

