-- ==== Sys2Proof/Machine/Programs.lean ====
section
/-! DEFINITION. The program of accesses of every operation, for a configuration and the ports of its
event: what an operation in progress runs access by access (R56), and what it runs as a whole for any
configuration. -/

namespace Sys2Proof.Machine

open Sys2Proof

variable {S R : Type} [Field S] [AddCommGroup R] [Module S R]

/-- The program of an operation, with the ports and the operands it was invoked with. -/
def opProgram (c : Config S R) (p : Ports c.widths) (t : Temps c.widths R) : Instr → Prog c.widths R
  | .idle => .stop
  | .sample => sampleBody c p .stop
  | .control => controlBody c p .stop
  | .fg => fgBody c p .stop
  | .filt => filt c t.phase t.raw .stop
  | .decimate => decimate .stop
  | .curacq => opCuracq c
  | .curloop => opCurloop c t.iD t.iQ
  | .angupd => angUpd c p .stop
  | .align => align c .stop
  | .posupd => posUpd c p .stop
  | .dutygen => dutyGen c t.vD t.vQ .stop
  | .init => initOp .stop
  | .cpreset => cpReset c .stop
  | .mstartBegin => mstartBegin c .stop
  | .settlepoll => settlePoll c .stop
  | .calpoll => opCalpoll c
  | .mstartEnd => mstartEnd .stop
  | .mstop => mstop c .stop
  | .slowloop => slowLoop c p .stop

/-- The operations with results in parentheses (R94, R100, R124). -/
abbrev hasResult : Instr → Bool
  | .idle => false
  | .sample => false
  | .control => false
  | .fg => false
  | .filt => false
  | .decimate => false
  | .curacq => true
  | .curloop => true
  | .angupd => false
  | .align => false
  | .posupd => false
  | .dutygen => false
  | .init => false
  | .cpreset => false
  | .mstartBegin => false
  | .settlepoll => false
  | .calpoll => true
  | .mstartEnd => false
  | .mstop => false
  | .slowloop => false

/-- An operation performed whole under a configuration `c`: the meaning of the operation with the
parameters as an argument (R2). Its results, where it has any, go to the temporaries. -/
def performWith (c : Config S R) (i : Instr) (s : State c.widths R) : State c.widths R :=
  match hasResult i with
  | true =>
    ((opProgram c s.ports s.temps i).run s).record ((opProgram c s.ports s.temps i).out s)
  | false => if admitted i s then (opProgram c s.ports s.temps i).run s else s

/-- What is left of an operation in progress. -/
def Frame.rest (f : Frame Config.machine.widths Num) : Option (Prog Config.machine.widths Num) :=
  (opProgram Config.machine f.ports f.temps f.op).resume f.log

end Sys2Proof.Machine
end

