-- ==== Sys2Proof/Machine/Dispatch.lean ====
section
/-! DEFINITION. Which meaning each operation has: one arm per constructor of `Instr`. -/

namespace Sys2Proof.Machine

open Sys2Proof

/-- The meaning of every operation of the opcode table. -/
def exec (i : Instr) (s : State) : Host.Outcome State Fault Refusal :=
  match i with
  -- events (R65)
  | .idle => Sys2Proof.Machine.execIdle s
  | .sample => Sys2Proof.Machine.execSample s
  | .control => Sys2Proof.Machine.execControl s
  | .fg => Sys2Proof.Machine.execFg s
  -- sub-operations (R67)
  | .filt => Sys2Proof.Machine.execFilt s
  | .decimate => Sys2Proof.Machine.execDecimate s
  | .curacq => Sys2Proof.Machine.execCuracq s
  | .curloop => Sys2Proof.Machine.execCurloop s
  | .angupd => Sys2Proof.Machine.execAngupd s
  | .align => Sys2Proof.Machine.execAlign s
  | .posupd => Sys2Proof.Machine.execPosupd s
  | .dutygen => Sys2Proof.Machine.execDutygen s
  | .init => Sys2Proof.Machine.execInit s
  | .cpreset => Sys2Proof.Machine.execCpreset s
  | .mstartBegin => Sys2Proof.Machine.execMstartBegin s
  | .settlepoll => Sys2Proof.Machine.execSettlepoll s
  | .calpoll => Sys2Proof.Machine.execCalpoll s
  | .mstartEnd => Sys2Proof.Machine.execMstartEnd s
  | .mstop => Sys2Proof.Machine.execMstop s
  | .slowloop => Sys2Proof.Machine.execSlowloop s

end Sys2Proof.Machine
end

