-- ==== Sys2Proof/Machine/Sequence.lean ====
section
/-! DEFINITION. One step of the machine under either grain of interleaving (20_memory.md rules R50, R55, R56,
R58; 60_exceptions.md rules R206 to R209): fetching the word of the event port, performing an event,
and advancing an operation in progress by one access. -/

namespace Sys2Proof.Machine

open Sys2Proof

/-- The operation on the event port. Reserved words and sub-operations are refused (R65, R68). -/
def fetch (s : State) : Except Refusal Instr :=
  match decode s.ports.ev with
  | .error _ => .error (.reservedWord s.ports.ev)
  | .ok i => if i.onEventPort then .ok i else .error (.subOperationOnPort s.ports.ev)

/-- A next state with `f` done to it; a stop as it is. -/
def mapNext (f : State → State) :
    Host.Outcome State Fault Refusal → Host.Outcome State Fault Refusal
  | .next s => .next (f s)
  | .fault e => .fault e
  | .refused r => .refused r

/-! ### Whole events (R55) -/

/-- The event on the port, performed as one step; then the environment presents its next stimulus. -/
def stepEvent (s : State) : Host.Outcome State Fault Refusal :=
  match fetch s with
  | .error r => .refused r
  | .ok i => mapNext present (exec i s)

/-- The innermost operation in progress, run to its end: one that has made no access yet is performed
by its meaning, another from where it stands. -/
def stepFinish (f : Frame Config.machine.widths Num) (s : State) : Host.Outcome State Fault Refusal :=
  match f.log with
  | [] => mapNext (fun t => presentUnlessWaiting (leaveEvent t)) (exec f.op s)
  | _ :: _ =>
    match f.rest with
    | none => .refused (.inconsistentFrame f.op)
    | some p => .next (presentUnlessWaiting (leaveEvent (p.run s)))

/-- A step under `eventAtomic`. -/
def stepAtomic (s : State) : Host.Outcome State Fault Refusal :=
  match s.frames with
  | f :: _ => stepFinish f s
  | [] => if s.ports.stb then stepEvent s else .next (present s)

/-! ### One access at a time (R56, R206) -/

/-- Whether an event of agent `a` may fall inside an operation of agent `inside` (R206). The
foreground never preempts; an interrupt never nests in itself. -/
def mayPreempt (prio : Prio) (a inside : Agent) : Bool :=
  match a, inside with
  | .sampling, .foreground => true
  | .control, .foreground => true
  | .sampling, .control => decide (prio = .sampleHigh)
  | .control, .sampling => decide (prio = .controlHigh)
  | .sampling, .sampling => false
  | .control, .control => false
  | .foreground, _ => false

/-- Whether the event `i` can be taken now: IDLE always, another when nothing is in progress or it may
preempt what is (R206, R209; log 17). -/
def mayTake (i : Instr) (s : State) : Bool :=
  match i, s.frames with
  | .idle, _ => true
  | _, [] => true
  | _, f :: _ => mayPreempt s.prio i.agent f.op.agent

/-- Taking an event: IDLE has no effect, another becomes the innermost operation in progress if it
is admitted (R203, R208). -/
def takeEvent (i : Instr) (s : State) : State :=
  match i with
  | .idle => s
  | _ => enterEvent i s

/-- One register access of the innermost operation in progress; after its last access it ends
(R56, R209). -/
def stepAccess (s : State) : Host.Outcome State Fault Refusal :=
  match s.frames with
  | [] => .next (presentUnlessWaiting s)
  | f :: fs =>
    match f.rest with
    | none => .refused (.inconsistentFrame f.op)
    | some p =>
      match p.access s with
      | none => .next (presentUnlessWaiting (leaveEvent s))
      | some (s', v, rest) =>
        if rest.isDone then .next (presentUnlessWaiting (leaveEvent s'))
        else .next (presentUnlessWaiting { s' with frames := { f with log := f.log ++ [v] } :: fs })

/-- A step under `fieldAtomic`: an event that can be taken is taken, otherwise the innermost operation
makes one access. -/
def stepField (s : State) : Host.Outcome State Fault Refusal :=
  if s.ports.stb then
    match fetch s with
    | .error r => .refused r
    | .ok i => if mayTake i s then .next (present (takeEvent i s)) else stepAccess s
  else stepAccess s

/-- One step: `rst` before everything (R217), then the grain that `preempt` selects (R55, R56). An event
strobed together with `rst` is discarded, since `present` releases the strobe with `rst`: the spec does
not say what becomes of it (DESIGN CHOICE, log 9: unsafe). -/
def advance (s : State) : Host.Outcome State Fault Refusal :=
  if s.ports.rst then .next (present (powerUp s))
  else
    match s.preempt with
    | .eventAtomic => stepAtomic (endPulse s)
    | .fieldAtomic => stepField (endPulse s)

/-! ### Where an instruction is stored for the next step -/

/-- An event word stands on the event port with its strobe (R50), nothing being in progress. -/
def withEvent (s : State) (w : EvWord) : State :=
  { s with
    preempt := .eventAtomic
    frames := []
    ports := { s.ports with rst := false, stb := true, ev := w } }

/-- A sub-operation has just been invoked: it is the one operation in progress (R67; log 12). -/
def withInvocation (s : State) (i : Instr) : State :=
  { s with
    preempt := .eventAtomic
    frames := [⟨i, s.ports, .zero, []⟩]
    ports := { s.ports with rst := false } }

/-- The word of an instruction stored where the next step takes its instruction from: an event word, or
a word that is none, on the event port, a sub-operation's word as an invocation. -/
def withWord (s : State) (w : EvWord) : State :=
  match decode w with
  | .error _ => withEvent s w
  | .ok i => if i.onEventPort then withEvent s w else withInvocation s i

end Sys2Proof.Machine
end

