-- ==== Sys2Proof/Machine/Step.lean ====
section
/-! DEFINITION. The step of the machine, and where its next instruction stands. -/

namespace Sys2Proof.Machine

open Sys2Proof

/-- One step of the machine (R50, R55, R56, R217). -/
def step (s : State) : Host.Outcome State Fault Refusal := advance s

/-- `s` with the instruction whose bits are `w` stored where `step` takes its next one from (log 10,
log 12). An operation word has 5 bits, so higher bits have no place to stand. -/
def State.withFetchWord (s : State) (_nbits w : Nat) : State := withWord s (BitVec.ofNat EV_W w)

end Sys2Proof.Machine
end

