-- ==== Sys2Proof/Machine/Codes.lean ====
section
/-! DEFINITION. The encodings of the enumerated registers (30_encoding.md rules R70 to R73) and the
serialisation of an integer register in a trace (20_memory.md rule R62). -/

namespace Sys2Proof.Machine

open Sys2Proof

/-- `app_state`, 3 bits (R70). -/
def appStateCode : AppState → BitVec 3
  | .init => 0b000
  | .waitStart => 0b001
  | .start => 0b010
  | .running => 0b011
  | .stopDecrease => 0b100
  | .stopped => 0b101

/-- The `app_state` of a code; 110 and 111 are no state (R70). -/
def appStateOfCode (b : BitVec 3) : Option AppState :=
  match b.toNat with
  | 0 => some .init
  | 1 => some .waitStart
  | 2 => some .start
  | 3 => some .running
  | 4 => some .stopDecrease
  | 5 => some .stopped
  | _ => none

/-- `ctl_mode`, 1 bit (R71). -/
def ctlModeCode : CtlMode → BitVec 1
  | .openLoop => 0
  | .closedLoop => 1

/-- The `ctl_mode` of a code (R71). -/
def ctlModeOfCode (b : BitVec 1) : CtlMode := if b = 0 then .openLoop else .closedLoop

/-- `run_status` and `run_status_prev`, 1 bit each (R71). -/
def runStatusCode : RunStatus → BitVec 1
  | .stop => 0
  | .run => 1

/-- The run status of a code (R71). -/
def runStatusOfCode (b : BitVec 1) : RunStatus := if b = 0 then .stop else .run

/-- `fg_phase`, 2 bits (R72). -/
def fgPhaseCode : FgPhase → BitVec 2
  | .idle => 0b00
  | .settle => 0b01
  | .cal => 0b10

/-- The `fg_phase` of a code; 11 is no phase (R72). -/
def fgPhaseOfCode (b : BitVec 2) : Option FgPhase :=
  match b.toNat with
  | 0 => some .idle
  | 1 => some .settle
  | 2 => some .cal
  | _ => none

/-- `direction`, 1 bit: 0 means +1, 1 means -1 (R73). -/
def directionCode : Direction → BitVec 1
  | .plus => 0
  | .minus => 1

/-- The `direction` of a code (R73). -/
def directionOfCode (b : BitVec 1) : Direction := if b = 0 then .plus else .minus

/-- `n` bytes of a number, least significant first. -/
def littleEndian : Nat → Nat → List (BitVec 8)
  | 0, _ => []
  | n + 1, v => BitVec.ofNat 8 v :: littleEndian n (v / 256)

/-- An integer register in a trace: one little-endian word of its width rounded up to whole bytes
(R62: "the spec's own choice, with no hardware meaning"). -/
def serialize {w : Nat} (v : BitVec w) : List (BitVec 8) := littleEndian ((w + 7) / 8) v.toNat

end Sys2Proof.Machine
end

