-- ==== Sys2Proof/Machine/Trace.lean ====
section
/-! DEFINITION. The trace language (30_encoding.md rules R74, R75): a written trace expanded into the
schedule of the environment. An ill-formed trace is refused (row 6 of
93_implementation_defined.md). -/

namespace Sys2Proof.Machine

open Sys2Proof

/-- An integer of a trace line as a port word (R74). -/
def portWord (w : Nat) (v : Int) : BitVec w := BitVec.ofInt w v

/-- An optional port setting. -/
def portWordOpt (w : Nat) : Option Int → Option (BitVec w)
  | none => none
  | some v => some (portWord w v)

/-- `n` lines SAMPLE, each advancing the two counter ports modulo `2^CW` (R75). -/
def samplesFrom {w : Widths} (du dv : Int) : Nat → Count w → Count w → List (Stimulus w)
  | 0, _, _ => []
  | n + 1, u, v =>
    let u' := u + portWord w.cw du
    let v' := v + portWord w.cw dv
    .event 0b00001 (some u') (some v') none noButtons :: samplesFrom du dv n u' v'

/-- `n` lines CONTROL, each advancing the position port modulo 65536 (R75). -/
def controlsFrom {w : Widths} (dpos : Int) : Nat → Pos → List (Stimulus w)
  | 0, _ => []
  | n + 1, pos =>
    let pos' := pos + portWord POS_W dpos
    .event 0b00010 none none (some pos') noButtons :: controlsFrom dpos n pos'

/-- The counter ports after a line, from their values before it (R74, R75). -/
def lineAfter {w : Widths} (l : TraceLine) (u v : Count w) (pos : Pos) : Count w × Count w × Pos :=
  match l with
  | .reset => (u, v, pos)
  | .idle => (u, v, pos)
  | .sample u' v' => ((portWordOpt w.cw u').getD u, (portWordOpt w.cw v').getD v, pos)
  | .control p => (u, v, (portWordOpt POS_W p).getD pos)
  | .fg p _ => (u, v, (portWordOpt POS_W p).getD pos)
  | .dispatch p _ => (u, v, (portWordOpt POS_W p).getD pos)
  | .samples n du dv => (u + portWord w.cw (n * du), v + portWord w.cw (n * dv), pos)
  | .controls n dpos => (u, v, pos + portWord POS_W (n * dpos.getD 0))

/-- The stimuli of one line, from the counter ports before it (R74, R75). -/
def lineStimuli {w : Widths} (l : TraceLine) (u v : Count w) (pos : Pos) : List (Stimulus w) :=
  match l with
  | .reset => [.rst]
  | .idle => [.event 0b00000 none none none noButtons]
  | .sample u' v' => [.event 0b00001 (portWordOpt w.cw u') (portWordOpt w.cw v') none noButtons]
  | .control p => [.event 0b00010 none none (portWordOpt POS_W p) noButtons]
  | .fg p b => [.event 0b00011 none none (portWordOpt POS_W p) b]
  | .dispatch p b => [.event 0b00011 none none (portWordOpt POS_W p) b, .whileBusy]
  | .samples n du dv => samplesFrom du dv n u v
  | .controls n dpos => controlsFrom (dpos.getD 0) n pos

/-- The schedule of a trace, from the counter ports before it. -/
def expandTrace {w : Widths} : List TraceLine → Count w → Count w → Pos → List (Stimulus w)
  | [], _, _, _ => []
  | l :: ls, u, v, pos =>
    lineStimuli l u v pos ++
      expandTrace ls (lineAfter l u v pos).1 (lineAfter l u v pos).2.1 (lineAfter l u v pos).2.2

/-- A machine whose environment is about to present a trace; `none` where the trace is ill formed
(R74). -/
def State.loadTrace {w : Widths} {R : Type} (s : State w R) (t : List TraceLine) : Option (State w R) :=
  if traceWf w t then
    some (present
      { s with script := expandTrace t s.ports.curCntU s.ports.curCntV s.ports.posCnt })
  else none

end Sys2Proof.Machine
end

