-- ==== Sys2Proof/Safety.lean ====
section
/-! DEFINITION. The terms of the claims: the effect of every rule as one next state (what a reader expects
of the rule, beside the order of accesses that Machine/ gives), the invariant of a machine that takes
whole events, the bounds the environment owes, and runs as sequences of states. -/

namespace Sys2Proof.Safety

open Sys2Proof Sys2Proof.Machine

section
variable {S R : Type} [Field S] [AddCommGroup R] [Module S R]

/-! ### The filter and the calibration -/

/-- The filter registers of a phase after FILT with the reading `raw` (R78). -/
def filteredPhase (c : Config S R) (raw : Count c.widths) (f : PhaseFilter c.widths) : PhaseFilter c.widths :=
  let d := clampDelta c (raw - f.prevRaw)
  let m := extendMedian (median3 d f.med0 f.med1)
  { f with
    prevRaw := raw
    med0 := d
    med1 := f.med0
    med2 := f.med1
    integ1 := f.integ1 + m
    integ2 := f.integ2 + (f.integ1 + m)
    integ3 := f.integ3 + (f.integ2 + (f.integ1 + m)) }

/-- The state after FILT(c, raw) (R78). -/
def filtState (c : Config S R) (ph : Phase) (raw : Count c.widths) (s : State c.widths R) : State c.widths R :=
  { s with filt := s.filt.withPhase ph (filteredPhase c raw (s.filt.ofPhase ph)) }

/-- The filter registers of a phase after DECIMATE (R89). -/
def decimatedPhase {w : Widths} (f : PhaseFilter w) : PhaseFilter w :=
  let c1 := f.integ3 - f.comb1
  let c2 := c1 - f.comb2
  { f with
    comb1 := f.integ3
    comb2 := c1
    comb3 := c2
    out0 := c2 - f.comb3
    out1 := f.out0
    out2 := f.out1
    out3 := f.out2 }

/-- The state after DECIMATE (R89). -/
def decimateState {w : Widths} (s : State w R) : State w R :=
  { s with
    filt :=
      { s.filt with
        u := decimatedPhase s.filt.u
        v := decimatedPhase s.filt.v
        outCnt := s.filt.outCnt + 1 } }

/-- The state after an admitted SAMPLE (R77). -/
def sampleState (c : Config S R) (s : State c.widths R) : State c.widths R :=
  let u := filteredPhase c s.ports.curCntU s.filt.u
  let v := filteredPhase c s.ports.curCntV s.filt.v
  if (s.filt.decCnt + 1).toNat = c.decim then
    decimateState { s with filt := { s.filt with u := u, v := v, decCnt := 0 } }
  else { s with filt := { s.filt with u := u, v := v, decCnt := s.filt.decCnt + 1 } }

/-- `avg_c` of a phase (R94, R95). -/
def averageOf (c : Config S R) (f : PhaseFilter c.widths) : S :=
  ((c.avgW0 : S) * f.out0.toNat + c.avgW1 * f.out1.toNat + c.avgW2 * f.out2.toNat
    + c.avgW3 * f.out3.toNat) / (c.avgW0 + c.avgW1 + c.avgW2 + c.avgW3 : S)

/-- `i_u` (R94, R96). -/
def currentU (c : Config S R) (s : State c.widths R) : R :=
  c.rnd (c.currentGain • (c.real.ofScale (averageOf c s.filt.u) - s.cal.offsetU))

/-- `i_v` (R94, R96). -/
def currentV (c : Config S R) (s : State c.widths R) : R :=
  c.rnd (c.currentGain • (c.real.ofScale (averageOf c s.filt.v) - s.cal.offsetV))

/-- `i_w` (R94, R97). -/
def currentW (c : Config S R) (s : State c.widths R) : R := c.rnd (-(currentU c s) - currentV c s)

/-- The state after SETTLEPOLL (R99). -/
def settleState (c : Config S R) (s : State c.widths R) : State c.widths R :=
  if c.nSettle ≤ (s.filt.outCnt - s.cal.waitBase).toNat then
    { s with
      cal := { s.cal with sumU := 0, sumV := 0, calN := 0, lastSeen := s.filt.outCnt }
      seq := { s.seq with fgPhase := .cal } }
  else s

/-- The offset of a calibration sum: its mean, clamped (R101). -/
def meanOffset (c : Config S R) (sum : Sum) : R :=
  c.rnd (c.real.min (c.real.max (c.real.ofScale ((sum.toNat : S) / (c.nCal : S))) c.offsetMin) c.offsetMax)

/-- CALPOLL returns done (R100). -/
def calDone (c : Config S R) (s : State c.widths R) : Bool :=
  decide (s.filt.outCnt ≠ s.cal.lastSeen) && decide ((s.cal.calN + 1).toNat = c.nCal)

/-- The state after CALPOLL (R100, R101). -/
def calState (c : Config S R) (s : State c.widths R) : State c.widths R :=
  let sumU := s.cal.sumU + s.filt.u.out0.setWidth SUM_W
  let sumV := s.cal.sumV + s.filt.v.out0.setWidth SUM_W
  if s.filt.outCnt = s.cal.lastSeen then s
  else if (s.cal.calN + 1).toNat = c.nCal then
    { s with
      cal :=
        { s.cal with
          lastSeen := s.filt.outCnt
          sumU := sumU
          sumV := sumV
          calN := s.cal.calN + 1
          offsetU := meanOffset c sumU
          offsetV := meanOffset c sumV } }
  else
    { s with
      cal :=
        { s.cal with
          lastSeen := s.filt.outCnt
          sumU := sumU
          sumV := sumV
          calN := s.cal.calN + 1 } }

/-! ### The estimator -/

/-- `pos_comp` after POSUPD (R104). -/
def compAfter (c : Config S R) (prev raw : Pos) (comp : Nat) : Nat :=
  if c.posUpperTh < prev.toNat ∧ raw.toNat < c.posLowerTh then (comp + 65536) % c.pper
  else if prev.toNat < c.posLowerTh ∧ c.posUpperTh < raw.toNat then
    (((comp : Int) - 65536) % (c.pper : Int)).toNat
  else comp % c.pper

/-- The state after POSUPD (R104). -/
def posUpdState (c : Config S R) (s : State c.widths R) : State c.widths R :=
  let raw := s.ports.posCnt
  let comp := compAfter c s.pos.prev raw s.pos.comp
  let count := (raw.toNat + comp) % c.pper
  { s with
    pos :=
      { s.pos with
        prev := raw
        comp := comp
        count := count
        angle := norm c (c.rnd (((count : S) / c.pper) • c.real.twoPi)) } }

/-- The velocity baseline VELEST subtracts (R114, R115). -/
def baselineOf {w : Widths} (s : State w R) : Pos :=
  if s.ctl.runStatusPrev = .stop ∧ s.ctl.runStatus = .run then s.ports.posCnt else s.pos.velPrevRaw

/-- `vel_est` after VELEST (R114). -/
def velocityAfter (c : Config S R) (s : State c.widths R) : R :=
  c.rnd ((((s.ports.posCnt - baselineOf s).toInt : S) / (c.pper * c.tSlow)) • c.real.twoPi)

/-- The state after VELEST (R114). -/
def velEstState (c : Config S R) (s : State c.widths R) : State c.widths R :=
  { s with
    pos := { s.pos with velEst := velocityAfter c s, velPrevRaw := s.ports.posCnt }
    ctl := { s.ctl with runStatusPrev := s.ctl.runStatus } }

/-! ### The vector control state machine -/

/-- `pi_zero` (R21). -/
def zeroedPI (c : Config S R) : PIState R := ⟨0, c.lib.piInitRest⟩

/-- `direction` as +1 or -1 (R73). -/
def signOf : Direction → Int
  | .plus => 1
  | .minus => -1

/-- The registers CURLOOP sets before the two PI calls (R124). -/
def curLoopRefs (c : Config S R) (s : State c.widths R) : State c.widths R :=
  match s.ctl.mode with
  | .openLoop =>
    { s with ctl := { s.ctl with iqRef := c.rnd ((signOf s.ctl.direction : S) • c.olIqRef), idRef := 0 } }
  | .closedLoop =>
    if s.ctl.changeMode then
      { s with
        loops := { s.loops with vel := zeroedPI c }
        ctl := { s.ctl with idRef := 0, changeMode := false } }
    else { s with ctl := { s.ctl with idRef := 0 } }

/-- `v_d` and the new `pi_d` of CURLOOP (R124). -/
def piDCall (c : Config S R) (iD : R) (s : State c.widths R) : R × PIState R :=
  c.lib.piControl c.gainsD s.loops.d iD (curLoopRefs c s).ctl.idRef

/-- `v_q` and the new `pi_q` of CURLOOP (R124). -/
def piQCall (c : Config S R) (iQ : R) (s : State c.widths R) : R × PIState R :=
  c.lib.piControl c.gainsQ s.loops.q iQ (curLoopRefs c s).ctl.iqRef

/-- The state after CURLOOP(i_d, i_q) (R124). -/
def curLoopState (c : Config S R) (iD iQ : R) (s : State c.widths R) : State c.widths R :=
  let t := curLoopRefs c s
  { t with loops := { t.loops with d := (piDCall c iD s).2, q := (piQCall c iQ s).2 } }

/-- The state after the handover (R130). -/
def handoverState {w : Widths} (s : State w R) : State w R :=
  { s with
    ctl := { s.ctl with alignActive := false, mode := .closedLoop, changeMode := true }
    pos := { s.pos with comp := 0, prev := 0, velPrevRaw := 0, count := 0, angle := 0 } }

/-- The state after ALIGN (R128, R130, R131). -/
def alignState (c : Config S R) (s : State c.widths R) : State c.widths R :=
  if s.ctl.alignActive then
    if s.ctl.lockCnt.toNat < c.lockCount then
      { s with
        pos := { s.pos with angle := norm c (c.rnd c.alignAngle) }
        ctl := { s.ctl with lockCnt := s.ctl.lockCnt + 1 } }
    else if s.ctl.rotCnt.toNat < c.lockCount then
      { s with
        pos :=
          { s.pos with
            angle := norm c (c.rnd (c.alignAngle + ((signOf s.ctl.direction : S) / 2) • c.real.pi)) }
        ctl := { s.ctl with rotCnt := s.ctl.rotCnt + 1 } }
    else handoverState s
  else s

/-- The state after ANGUPD (R127). -/
def angUpdState (c : Config S R) (s : State c.widths R) : State c.widths R :=
  match s.ctl.mode with
  | .openLoop => alignState c s
  | .closedLoop => posUpdState c s

/-- The state after DUTYGEN(v_d, v_q) (R141, R149). -/
def dutyState (c : Config S R) (vD vQ : R) (s : State c.widths R) : State c.widths R :=
  let ab := c.lib.invpark vD vQ s.pos.angle
  let d := c.lib.svpwm (c.rnd ab.1) (c.rnd ab.2)
  { s with duty := ⟨c.rnd d.1, c.rnd d.2.1, c.rnd d.2.2⟩ }

/-- `i_d` and `i_q` of CONTROL: Clarke, then Park at the angle the previous CONTROL left (R119,
R121). -/
def rotorCurrents (c : Config S R) (s : State c.widths R) : R × R :=
  let ab := c.lib.clarke (currentU c s) (currentV c s) (currentW c s)
  let dq := c.lib.park (c.rnd ab.1) (c.rnd ab.2) s.pos.angle
  (c.rnd dq.1, c.rnd dq.2)

/-- The state after an admitted CONTROL (R119, R120): CURLOOP, ANGUPD, DUTYGEN at the new angle
(R122), then `sync_cnt` (R138). -/
def controlState (c : Config S R) (s : State c.widths R) : State c.widths R :=
  let i := rotorCurrents c s
  let t := dutyState c (piDCall c i.1 s).1 (piQCall c i.2 s).1
    (angUpdState c (curLoopState c i.1 i.2 s))
  { t with ctl := { t.ctl with syncCnt := t.ctl.syncCnt + 1 } }

/-! ### The scheduler -/

/-- The control registers after CPRESET (R172, R173). -/
def resetControl (c : Config S R) (d : Direction) : Control c.widths R :=
  { mode := .openLoop
    changeMode := false
    alignActive := true
    direction := d
    lockCnt := 0
    rotCnt := 0
    velCmd := c.velCmdDefault
    velTarget := c.velCmdDefault
    velRamped := 0
    idRef := 0
    iqRef := 0
    syncCnt := 0
    runStatus := .stop
    runStatusPrev := .stop
    rampStep := c.rampStepDefault }

/-- The state after INIT (R156). -/
def initState {w : Widths} (s : State w R) : State w R :=
  { s with
    per := { s.per with pwmPinsEn := false, irqArmed := true }
    ctl := { s.ctl with direction := .plus } }

/-- The state after CPRESET (R172). -/
def cpResetState (c : Config S R) (s : State c.widths R) : State c.widths R :=
  { s with ctl := resetControl c s.ctl.direction }

/-- The state after MSTART_BEGIN (R174). -/
def mstartBeginState (c : Config S R) (s : State c.widths R) : State c.widths R :=
  { s with
    ctl := { resetControl c s.ctl.direction with runStatus := .run }
    loops := ⟨zeroedPI c, zeroedPI c, zeroedPI c⟩
    pos := ⟨0, 0, 0, 0, 0, 0⟩
    per := { s.per with posRun := true, curRun := true }
    cal := { s.cal with waitBase := s.filt.outCnt }
    seq := { s.seq with fgPhase := .settle } }

/-- The state after MSTART_END (R175). -/
def mstartEndState {w : Widths} (s : State w R) : State w R :=
  { s with per := { s.per with pwmPinsEn := true, pwmChEn := true }, faultClr := true }

/-- The state after MSTOP (R177). -/
def mstopState (c : Config S R) (s : State c.widths R) : State c.widths R :=
  { s with
    per := { s.per with pwmPinsEn := false, pwmChEn := false, posRun := false, curRun := false }
    ctl := resetControl c s.ctl.direction
    loops := { s.loops with vel := zeroedPI c } }

/-- `vel_ramped` after the ramp of SLOWLOOP (R166, R167). -/
def rampedAfter (c : Config S R) (s : State c.widths R) : R :=
  if c.real.lt s.ctl.velRamped s.ctl.velTarget then
    c.rnd (c.real.min (s.ctl.velRamped + s.ctl.rampStep) s.ctl.velTarget)
  else if c.real.lt s.ctl.velTarget s.ctl.velRamped then
    c.rnd (c.real.max (s.ctl.velRamped - s.ctl.rampStep) s.ctl.velTarget)
  else s.ctl.velRamped

/-- The velocity PI of SLOWLOOP: output and new state (R166, R169). -/
def velocityPI (c : Config S R) (s : State c.widths R) : R × PIState R :=
  c.lib.piControl c.gainsVel s.loops.vel (velocityAfter c s)
    (c.rnd ((signOf s.ctl.direction : S) • rampedAfter c s))

/-- The state after SLOWLOOP (R166). -/
def slowLoopState (c : Config S R) (s : State c.widths R) : State c.widths R :=
  { s with
    pos := { s.pos with velEst := velocityAfter c s, velPrevRaw := s.ports.posCnt }
    ctl :=
      { s.ctl with
        velRamped := rampedAfter c s
        runStatusPrev := s.ctl.runStatus
        iqRef := (velocityPI c s).1 }
    loops := { s.loops with vel := (velocityPI c s).2 } }

/-- The state after the Init step (R155). -/
def initStepState {w : Widths} (s : State w R) : State w R :=
  { initState s with seq := { s.seq with app := .waitStart } }

/-- `-direction` (R158). -/
def flipped : Direction → Direction
  | .plus => .minus
  | .minus => .plus

/-- The state after the WaitStart step (R158). -/
def waitStartState {w : Widths} (s : State w R) : State w R :=
  { s with
    ctl :=
      { s.ctl with
        direction := if s.ports.btn.dir then flipped s.ctl.direction else s.ctl.direction }
    seq := { s.seq with app := if s.ports.btn.start then .start else s.seq.app } }

/-- The state after the Start step (R160). -/
def startStepState (c : Config S R) (s : State c.widths R) : State c.widths R :=
  match s.seq.fgPhase with
  | .idle =>
    mstartBeginState c { s with per := { s.per with indRun := true } }
  | .settle => settleState c s
  | .cal =>
    if calDone c s then
      { mstartEndState (calState c s) with seq := ⟨.running, .idle, 0⟩ }
    else calState c s

/-- `vel_cmd` after the three speed buttons, in the order increment, decrement, reset (R162, R164). -/
def commandAfter (c : Config S R) (b : Buttons) (v : R) : R :=
  let v1 := if b.inc then c.rnd (c.real.min (v + c.velCmdStep) c.velCmdMax) else v
  let v2 := if b.dec then c.rnd (c.real.max (v1 - c.velCmdStep) c.velCmdMin) else v1
  if b.reset then c.velCmdDefault else v2

/-- The state after the button part of the Running step (R162), from the state the gate part left and
the state it chose next. -/
def buttonsState (c : Config S R) (next : AppState) (s : State c.widths R) : State c.widths R :=
  let b := s.ports.btn
  let speed := b.inc || b.dec || b.reset
  { s with
    ctl :=
      { s.ctl with
        velCmd := commandAfter c b s.ctl.velCmd
        velTarget := if speed then commandAfter c b s.ctl.velCmd else s.ctl.velTarget }
    seq :=
      { s.seq with
        inactCnt := if b.start || speed then 0 else s.seq.inactCnt
        app := if b.start then .stopDecrease else next } }

/-- The state after GATE has fired (R165). -/
def gatedState {w : Widths} (s : State w R) : State w R := { s with ctl := { s.ctl with syncCnt := 0 } }

/-- The state after the gate part of a Running step whose gate fires (R162, R163). -/
def inactivityState (c : Config S R) (s : State c.widths R) : State c.widths R :=
  let t := slowLoopState c (gatedState s)
  { t with
    seq := { t.seq with inactCnt := t.seq.inactCnt + 1 }
    per :=
      { t.per with
        indIdle := if c.inactWarn ≤ (t.seq.inactCnt + 1).toNat then true else t.per.indIdle } }

/-- The state after the Running step (R162). -/
def runningState (c : Config S R) (s : State c.widths R) : State c.widths R :=
  if c.slowDiv ≤ s.ctl.syncCnt.toNat then
    buttonsState c
      (if c.inactStop ≤ (s.seq.inactCnt + 1).toNat then .stopDecrease else .running)
      (inactivityState c s)
  else buttonsState c .running s

/-- The state after the StopDecrease step (R186). -/
def stopDecreaseState (c : Config S R) (s : State c.widths R) : State c.widths R :=
  if c.real.le ((signOf s.ctl.direction : S) • s.pos.velEst) c.stopSpeedTh then
    { s with seq := { s.seq with app := .stopped } }
  else if c.slowDiv ≤ s.ctl.syncCnt.toNat then
    let t := slowLoopState c (gatedState s)
    if c.real.le (c.real.abs ((signOf t.ctl.direction : S) • t.pos.velEst - t.ctl.velTarget)) c.stopMargin then
      { t with ctl := { t.ctl with velTarget := c.rnd (c.real.max (t.ctl.velTarget - c.stopDecStep) 0) } }
    else t
  else s

/-- The state after the Stopped step (R188). -/
def stoppedState (c : Config S R) (s : State c.widths R) : State c.widths R :=
  let t := mstopState c { s with per := { s.per with indRun := false, indIdle := false } }
  { t with seq := { t.seq with app := .waitStart } }

/-- The state after FG (R153). -/
def fgState (c : Config S R) (s : State c.widths R) : State c.widths R :=
  match s.seq.app with
  | .init => initStepState s
  | .waitStart => waitStartState s
  | .start => startStepState c s
  | .running => runningState c s
  | .stopDecrease => stopDecreaseState c s
  | .stopped => stoppedState c s

end

/-! ### The invariant -/

/-- The ranges the spec gives registers: `dec_cnt` (R15), `pos_comp` and `pos_count` (R18, R109),
`angle` (R5), the alignment counters and `cal_n` (R212), the commanded velocity (R164), and the velocity
references as magnitudes with the step between them (R167; log 25). -/
structure RangesOk (c : Config ℚ Num) (s : State c.widths Num) : Prop where
  decCnt : s.filt.decCnt.toNat < c.decim
  comp : s.pos.comp < c.pper
  count : s.pos.count < c.pper
  angleLow : 0 ≤ s.pos.angle.toReal
  angleHigh : s.pos.angle.toReal < 2 * Real.pi
  lockCnt : s.ctl.lockCnt.toNat ≤ c.lockCount
  rotCnt : s.ctl.rotCnt.toNat ≤ c.lockCount
  calN : s.seq.fgPhase = .cal → s.cal.calN.toNat < c.nCal
  velCmdLow : c.velCmdMin.toReal ≤ s.ctl.velCmd.toReal
  velCmdHigh : s.ctl.velCmd.toReal ≤ c.velCmdMax.toReal
  velTarget : 0 ≤ s.ctl.velTarget.toReal
  velRamped : 0 ≤ s.ctl.velRamped.toReal
  rampStep : 0 < s.ctl.rampStep.toReal

/-- Every real-valued register holds a value of NUM (R4; log 2, log 3). -/
structure FormatOk (c : Config ℚ Num) (s : State c.widths Num) : Prop where
  offsetU : c.Representable s.cal.offsetU
  offsetV : c.Representable s.cal.offsetV
  angle : c.Representable s.pos.angle
  velEst : c.Representable s.pos.velEst
  velCmd : c.Representable s.ctl.velCmd
  velTarget : c.Representable s.ctl.velTarget
  velRamped : c.Representable s.ctl.velRamped
  idRef : c.Representable s.ctl.idRef
  iqRef : c.Representable s.ctl.iqRef
  rampStep : c.Representable s.ctl.rampStep
  piD : c.RepresentablePI s.loops.d
  piQ : c.RepresentablePI s.loops.q
  piVel : c.RepresentablePI s.loops.vel
  dutyU : c.Representable s.duty.u
  dutyV : c.Representable s.duty.v
  dutyW : c.Representable s.duty.w

/-- The mode of the vector control (R20, R123): open loop exactly while the alignment is active, and the
one-shot flag only in closed loop. -/
structure ModeOk {w : Widths} {R : Type} (s : State w R) : Prop where
  align : s.ctl.alignActive = true ↔ s.ctl.mode = .openLoop
  edge : s.ctl.changeMode = true → s.ctl.mode = .closedLoop

/-- The sequencer and the peripherals (R37, R174, R175, R177): the place in the start sequence, and which
hardware runs in which application state. MSTOP runs in the FG step that leaves Stopped (R188), so that
the PWM and the captures still run in Stopped; the last clause of R205 reads as if they did not (the
model follows R186, R188 and R203; DESIGN CHOICE, log 24). -/
structure LifecycleOk {w : Widths} {R : Type} (s : State w R) : Prop where
  phase : s.seq.fgPhase ≠ .idle → s.seq.app = .start
  armed : s.seq.app ≠ .init → s.per.irqArmed = true
  pwm : s.per.pwmChEn = true ↔
    (s.seq.app = .running ∨ s.seq.app = .stopDecrease ∨ s.seq.app = .stopped)
  current : s.per.curRun = true ↔
    ((s.seq.app = .running ∨ s.seq.app = .stopDecrease ∨ s.seq.app = .stopped) ∨
      s.seq.fgPhase ≠ .idle)
  pins : s.per.pwmPinsEn = s.per.pwmChEn
  capture : s.per.posRun = s.per.curRun

/-- The offsets lie in their band while the PWM runs (R16, R176, R223). -/
def OffsetsOk (c : Config ℚ Num) (s : State c.widths Num) : Prop :=
  s.per.pwmChEn = true →
    (c.offsetMin.toReal ≤ s.cal.offsetU.toReal ∧ s.cal.offsetU.toReal ≤ c.offsetMax.toReal) ∧
      (c.offsetMin.toReal ≤ s.cal.offsetV.toReal ∧ s.cal.offsetV.toReal ≤ c.offsetMax.toReal)

/-- The invariant of a machine that takes whole events (R55). -/
structure MachineInvariant (s : State) : Prop where
  atomic : s.preempt = .eventAtomic
  noFrames : s.frames = []
  ranges : RangesOk Config.machine s
  format : FormatOk Config.machine s
  mode : ModeOk s
  lifecycle : LifecycleOk s
  offsets : OffsetsOk Config.machine s

/-! ### Transitions, runs and the environment -/

/-- The transitions of the application state machine (R190). -/
def lifecycleEdge (a b : AppState) : Prop :=
  match a, b with
  | .init, .waitStart => True
  | .waitStart, .start => True
  | .waitStart, .waitStart => True
  | .start, .start => True
  | .start, .running => True
  | .running, .stopDecrease => True
  | .running, .running => True
  | .stopDecrease, .stopped => True
  | .stopDecrease, .stopDecrease => True
  | .stopped, .waitStart => True
  | _, _ => False

/-- The input ports of the machine. -/
abbrev MachinePorts := Ports Config.machine.widths

/-- The temporaries of an operation of the machine. -/
abbrev MachineTemps := Temps Config.machine.widths Num

/-- An operation in progress of the machine. -/
abbrev MachineFrame := Frame Config.machine.widths Num

/-- `f 0, f 1, …, f n` are the states of a run of `n` operations `i`, the environment setting the input
ports to `p k` before the operation number `k`. -/
def RunOf (i : Instr) (p : Nat → MachinePorts) (f : Nat → State) (n : Nat) : Prop :=
  ∀ k, k < n → exec i { f k with ports := p k } = .next (f (k + 1))

/-- The counter readings of both phases grow by `D` from one SAMPLE to the next, the first one from
`prev_raw` (R93). -/
def ConstantDelta (D : Count Config.machine.widths) (f : State) (p : Nat → MachinePorts) : Prop :=
  ∀ k, (p k).curCntU = f.filt.u.prevRaw + BitVec.ofNat _ (k + 1) * D ∧
    (p k).curCntV = f.filt.v.prevRaw + BitVec.ofNat _ (k + 1) * D

/-- The movement bound of `pos_cnt` between two POSUPDs (R231). -/
def movementBound (c : Config ℚ Num) : Nat :=
  min c.posLowerTh (min (65535 - c.posUpperTh) (c.posUpperTh - c.posLowerTh))

/-- A sequence of events, each with the input ports it finds: the whole of what an environment can do
between two resets under `eventAtomic` (R58, R60). -/
def runEvents : List (Instr × MachinePorts) → State → State
  | [], s => s
  | e :: es, s => runEvents es (performWith Config.machine e.1 { s with ports := e.2 })

/-- The FG step about to be taken runs a slow loop (R162, R165, R186). -/
def slowLoopDue (c : Config ℚ Num) (s : State c.widths Num) : Bool :=
  gateDue c s.ctl.syncCnt &&
    (match s.seq.app with
      | .running => true
      | .stopDecrease => !slowEnough c s.ctl.direction s.pos.velEst
      | _ => false)

/-- The number of slow loops in a sequence of events. -/
def slowLoops : List (Instr × MachinePorts) → State → Nat
  | [], _ => 0
  | e :: es, s =>
    (if e.1 = .fg ∧ slowLoopDue Config.machine s = true then 1 else 0)
      + slowLoops es (performWith Config.machine e.1 { s with ports := e.2 })

/-- The number of admitted CONTROLs in a sequence of events. -/
def admittedControls : List (Instr × MachinePorts) → State → Nat
  | [], _ => 0
  | e :: es, s =>
    (if e.1 = .control ∧ admitted .control s = true then 1 else 0)
      + admittedControls es (performWith Config.machine e.1 { s with ports := e.2 })

/-- `n` steps of the machine, none of which stops. -/
def steps : Nat → State → Option State
  | 0, s => some s
  | n + 1, s =>
    match step s with
    | .next t => steps n t
    | .fault _ => none
    | .refused _ => none

end Sys2Proof.Safety
end

