-- ==== Sys2Proof/Certificates/Slice0/Obligations.lean ====
section
/-! DEFINITION. The statements for the provers. The states an operation leaves are named in Safety.lean,
each with the rule it is read from; a record update `{ s with … }` states the frame too, since every
field it does not name is unchanged. Inequalities between real-valued registers are between the real
numbers they stand for (`Num.toReal`). -/

open Sys2Proof Sys2Proof.Machine Sys2Proof.Safety

/-! ### Encoding -/

/-- The decoder undoes the encoder, and a word that decodes to an operation is its encoding (R63, R76). -/
def Obligations.DecodeUndoesEncode : Prop :=
  (∀ i : Instr, decode (encode i) = .ok i) ∧
    ∀ (w : EvWord) (i : Instr), decode w = .ok i → encode i = w

/-- Words of the tables of R65 and R67, written out, decode to their operations. -/
def Obligations.TableWordsDecode : Prop :=
  decode 0b00001#5 = .ok .sample ∧ decode 0b00010#5 = .ok .control ∧ decode 0b00011#5 = .ok .fg ∧
    decode 0b10001#5 = .ok .decimate ∧ decode 0b10110#5 = .ok .posupd ∧
    decode 0b11010#5 = .ok .mstartBegin ∧ decode 0b11101#5 = .ok .mstartEnd ∧
    decode 0b11111#5 = .ok .slowloop

/-- R68: the event port refuses the reserved words and every word with `cls` = 1, under either grain of
interleaving, whenever it takes a word. -/
def Obligations.EventPortRefusesOtherWords : Prop :=
  ∀ s : State, s.ports.rst = false → s.ports.stb = true →
    (s.preempt = .eventAtomic ∧ s.frames = [] ∨ s.preempt = .fieldAtomic) →
    (4 ≤ s.ports.ev.toNat → s.ports.ev.toNat ≤ 15 →
        step s = .refused (.reservedWord s.ports.ev)) ∧
      (16 ≤ s.ports.ev.toNat → step s = .refused (.subOperationOnPort s.ports.ev))

/-- R70 to R73: the codes of the enumerated registers, that each is read back, and the integer that
`direction` stands for. -/
def Obligations.RegisterCodesReadBack : Prop :=
  (appStateCode .init = 0b000#3 ∧ appStateCode .waitStart = 0b001#3 ∧ appStateCode .start = 0b010#3 ∧
      appStateCode .running = 0b011#3 ∧ appStateCode .stopDecrease = 0b100#3 ∧
      appStateCode .stopped = 0b101#3 ∧ appStateOfCode 0b110#3 = none ∧ appStateOfCode 0b111#3 = none) ∧
    (ctlModeCode .openLoop = 0#1 ∧ ctlModeCode .closedLoop = 1#1 ∧ runStatusCode .stop = 0#1 ∧
      runStatusCode .run = 1#1) ∧
    (fgPhaseCode .idle = 0b00#2 ∧ fgPhaseCode .settle = 0b01#2 ∧ fgPhaseCode .cal = 0b10#2 ∧
      fgPhaseOfCode 0b11#2 = none) ∧
    (directionCode .plus = 0#1 ∧ directionCode .minus = 1#1 ∧ Direction.plus.sign = 1 ∧
      Direction.minus.sign = -1) ∧
    (∀ a, appStateOfCode (appStateCode a) = some a) ∧ (∀ m, ctlModeOfCode (ctlModeCode m) = m) ∧
    (∀ r, runStatusOfCode (runStatusCode r) = r) ∧ (∀ p, fgPhaseOfCode (fgPhaseCode p) = some p) ∧
    ∀ d, directionOfCode (directionCode d) = d

/-- R75: line number `k` of `SAMPLES n du dv` presents SAMPLE with each counter port advanced `k + 1`
times modulo `2^CW`, and there are `n` lines; the same for `CONTROLS n dpos` and the position port. -/
def Obligations.PseudoOperationsAdvanceThePorts : Prop :=
  ∀ w : Widths,
    (∀ (n : Nat) (du dv : Int) (u v : Count w), (samplesFrom du dv n u v).length = n ∧
      ∀ k, k < n → (samplesFrom du dv n u v)[k]? =
        some (.event 0b00001#5 (some (BitVec.ofInt w.cw (u.toNat + (k + 1) * du)))
          (some (BitVec.ofInt w.cw (v.toNat + (k + 1) * dv))) none noButtons)) ∧
    ∀ (n : Nat) (d : Int) (x : Pos), (controlsFrom (w := w) d n x).length = n ∧
      ∀ k, k < n → (controlsFrom (w := w) d n x)[k]? =
        some (.event 0b00010#5 none none (some (BitVec.ofInt POS_W (x.toNat + (k + 1) * d))) noButtons)

/-! ### The step -/

/-- R50, R55: with nothing in progress and an event on the port, a step is `exec` of the decoded event,
after which the environment presents its next stimulus, which changes ports and schedule alone. The
end of the `fault_clr` pulse at the beginning of a step is the model's choice (log 13), and so is the
schedule (log 11). With no event on the port the step changes no register. -/
def Obligations.StepRunsTheEventOnThePort : Prop :=
  (∀ (s : State) (i : Instr), s.preempt = .eventAtomic → s.frames = [] → s.ports.rst = false →
      s.ports.stb = true → decode s.ports.ev = .ok i → i.opClass = .event →
      step s = mapNext present (exec i { s with faultClr := false })) ∧
    (∀ s : State, s.preempt = .eventAtomic → s.frames = [] → s.ports.rst = false →
      s.ports.stb = false → step s = .next (present { s with faultClr := false })) ∧
    ∀ t : State, present t = { t with ports := (present t).ports, script := (present t).script }

/-- An invocation of an operation by itself, with the operands `u` (log 12, the model's choice): a step
runs `exec` of it, and then the operation is no longer in progress. -/
def Obligations.StepRunsTheInvokedOperation : Prop :=
  ∀ (s : State) (i : Instr) (u : MachineTemps), s.preempt = .eventAtomic →
    s.ports.rst = false → s.frames = [⟨i, s.ports, u, []⟩] →
    step s = mapNext (fun t => presentUnlessWaiting (leaveEvent t)) (exec i { s with faultClr := false })

/-- R197: no operation stops. Every operation is its program of accesses performed whole, with its results
recorded where it has any (log 12), or, for a masked event, nothing. -/
def Obligations.EveryOperationCompletes : Prop :=
  ∀ (i : Instr) (s : State), exec i s = .next (performWith Config.machine i s)

/-- R217: asserting `rst` puts every register to which the table gives a value in that value. -/
def Obligations.ResetPutsRegistersInTheirValues : Prop :=
  ∀ s : State, s.ports.rst = true → ∃ t, step s = .next t ∧
    t.filt = ⟨.zero, .zero, 0, 0⟩ ∧ t.pos = ⟨0, 0, 0, 0, 0, 0⟩ ∧
    t.ctl = resetControl Config.machine .plus ∧
    t.loops = ⟨zeroedPI Config.machine, zeroedPI Config.machine, zeroedPI Config.machine⟩ ∧
    t.seq = ⟨.init, .idle, 0⟩ ∧ t.per = ⟨false, false, false, false, false, false, false⟩

/-! ### What each operation does: the current filter -/

/-- R66. -/
def Obligations.IdleChangesNothing : Prop :=
  decode 0b00000#5 = .ok .idle ∧ ∀ s : State, exec .idle s = .next s

/-- R77: SAMPLE. -/
def Obligations.SampleResult : Prop :=
  decode 0b00001#5 = .ok .sample ∧ Instr.sample.agent = .sampling ∧
    ∀ s : State, exec .sample s =
      .next (if s.per.irqArmed = true ∧ s.per.curRun = true then sampleState Config.machine s else s)

/-- FILT(c, raw) (R78), its operands those of its invocation (log 12, the model's choice). -/
def Obligations.FiltResult : Prop :=
  decode 0b10000#5 = .ok .filt ∧
    ∀ s : State, exec .filt s = .next (filtState Config.machine s.temps.phase s.temps.raw s)

/-- R89: DECIMATE. -/
def Obligations.DecimateResult : Prop :=
  decode 0b10001#5 = .ok .decimate ∧ ∀ s : State, exec .decimate s = .next (decimateState s)

/-- CURACQ (R94 to R97): no register changes; its results are temporaries of the operation in progress
(log 12, the model's choice). -/
def Obligations.CuracqResult : Prop :=
  decode 0b10010#5 = .ok .curacq ∧
    ∀ s : State, exec .curacq s =
      .next (s.record fun t =>
        { t with
          iU := currentU Config.machine s
          iV := currentV Config.machine s
          iW := currentW Config.machine s })

/-- R99: SETTLEPOLL. -/
def Obligations.SettlepollResult : Prop :=
  decode 0b11011#5 = .ok .settlepoll ∧
    ∀ s : State, exec .settlepoll s = .next (settleState Config.machine s)

/-- CALPOLL (R100, R101), its result `done` a temporary of the operation in progress (log 12, the model's
choice). -/
def Obligations.CalpollResult : Prop :=
  decode 0b11100#5 = .ok .calpoll ∧
    ∀ s : State, exec .calpoll s =
      .next ((calState Config.machine s).record fun t =>
        { t with done := calDone Config.machine s })

/-! ### The estimator, the vector control, the duties -/

/-- R104: POSUPD. -/
def Obligations.PosupdResult : Prop :=
  decode 0b10110#5 = .ok .posupd ∧
    ∀ s : State, exec .posupd s = .next (posUpdState Config.machine s)

/-- CURLOOP(i_d, i_q) (R124), its operands those of its invocation and its results temporaries of the
operation in progress (log 12, the model's choice). -/
def Obligations.CurloopResult : Prop :=
  decode 0b10011#5 = .ok .curloop ∧
    ∀ s : State, exec .curloop s =
      .next ((curLoopState Config.machine s.temps.iD s.temps.iQ s).record fun t =>
        { t with
          vD := (piDCall Config.machine s.temps.iD s).1
          vQ := (piQCall Config.machine s.temps.iQ s).1 })

/-- R127: ANGUPD. -/
def Obligations.AngupdResult : Prop :=
  decode 0b10100#5 = .ok .angupd ∧
    ∀ s : State,
      (s.ctl.mode = .openLoop → exec .angupd s = .next (alignState Config.machine s)) ∧
        (s.ctl.mode = .closedLoop → exec .angupd s = .next (posUpdState Config.machine s))

/-- R128, with the handover R130 and the unreachable state R131: ALIGN. -/
def Obligations.AlignResult : Prop :=
  decode 0b10101#5 = .ok .align ∧
    ∀ s : State, exec .align s = .next (alignState Config.machine s)

/-- DUTYGEN(v_d, v_q) (R141, R149), its operands those of its invocation (log 12, the model's choice). -/
def Obligations.DutygenResult : Prop :=
  decode 0b10111#5 = .ok .dutygen ∧
    ∀ s : State, exec .dutygen s =
      .next (dutyState Config.machine s.temps.vD s.temps.vQ s)

/-- R119: CONTROL, its seven steps in the order of R120, dropped where it is masked. -/
def Obligations.ControlResult : Prop :=
  decode 0b00010#5 = .ok .control ∧ Instr.control.agent = .control ∧
    ∀ s : State, exec .control s =
      .next (if s.per.irqArmed = true ∧ s.per.pwmChEn = true then controlState Config.machine s else s)

/-! ### The scheduler -/

/-- R156: INIT. -/
def Obligations.InitResult : Prop :=
  decode 0b11000#5 = .ok .init ∧ ∀ s : State, exec .init s = .next (initState s)

/-- R172, R173: CPRESET writes every control register but `direction`. -/
def Obligations.CpresetResult : Prop :=
  decode 0b11001#5 = .ok .cpreset ∧
    ∀ s : State, exec .cpreset s = .next { s with ctl := resetControl Config.machine s.ctl.direction }

/-- R174: MSTART_BEGIN. -/
def Obligations.MstartBeginResult : Prop :=
  decode 0b11010#5 = .ok .mstartBegin ∧
    ∀ s : State, exec .mstartBegin s = .next (mstartBeginState Config.machine s)

/-- R175: MSTART_END. -/
def Obligations.MstartEndResult : Prop :=
  decode 0b11101#5 = .ok .mstartEnd ∧
    ∀ s : State, exec .mstartEnd s =
      .next { s with per := { s.per with pwmPinsEn := true, pwmChEn := true }, faultClr := true }

/-- R177: MSTOP. -/
def Obligations.MstopResult : Prop :=
  decode 0b11110#5 = .ok .mstop ∧
    ∀ s : State, exec .mstop s = .next (mstopState Config.machine s)

/-- R166: SLOWLOOP. -/
def Obligations.SlowloopResult : Prop :=
  decode 0b11111#5 = .ok .slowloop ∧
    ∀ s : State, exec .slowloop s = .next (slowLoopState Config.machine s)

/-- R155: the FG step in Init. -/
def Obligations.FgInInit : Prop :=
  ∀ s : State, s.seq.app = .init →
    exec .fg s = .next { initState s with seq := { s.seq with app := .waitStart } }

/-- R158: the FG step in WaitStart. -/
def Obligations.FgInWaitStart : Prop :=
  ∀ s : State, s.seq.app = .waitStart → exec .fg s = .next (waitStartState s)

/-- R160: the FG step in Start. -/
def Obligations.FgInStart : Prop :=
  ∀ s : State, s.seq.app = .start → exec .fg s = .next (startStepState Config.machine s)

/-- R162: the FG step in Running. -/
def Obligations.FgInRunning : Prop :=
  ∀ s : State, s.seq.app = .running → exec .fg s = .next (runningState Config.machine s)

/-- R186: the FG step in StopDecrease. -/
def Obligations.FgInStopDecrease : Prop :=
  ∀ s : State, s.seq.app = .stopDecrease → exec .fg s = .next (stopDecreaseState Config.machine s)

/-- R188: the FG step in Stopped. -/
def Obligations.FgInStopped : Prop :=
  ∀ s : State, s.seq.app = .stopped → exec .fg s = .next (stoppedState Config.machine s)

/-! ### Properties of the filter -/

/-- `median3` is the middle element of the three (00_scope.md section 6; R81), at every width. -/
def Obligations.MedianIsTheMiddleElement : Prop :=
  ∀ (w : Widths) (a b d : Count w),
    median3 a b d ∈ [a, b, d] ∧
      2 ≤ ([a, b, d].filter fun x => decide (x.toNat ≤ (median3 a b d).toNat)).length ∧
      2 ≤ ([a, b, d].filter fun x => decide ((median3 a b d).toNat ≤ x.toNat)).length

/-- R79, R80: what FILT stores as the newest delta is the difference of the readings modulo `2^CW`,
clamped from above at `DELTA_MAX`. -/
def Obligations.StoredDeltaIsClamped : Prop :=
  ∀ s : State, ∃ t, exec .filt s = .next t ∧
    (t.filt.ofPhase s.temps.phase).med0.toNat =
      min ((s.temps.raw.toNat + 2 ^ Config.machine.widths.cw
          - (s.filt.ofPhase s.temps.phase).prevRaw.toNat) % 2 ^ Config.machine.widths.cw)
        Config.machine.deltaMax

/-- R88: from a zero filter, the output of the decimation event at admitted SAMPLE number `t` is the sum
over `j` = 0..12 of `h[j] * m[t - j]`, exactly, `m[i]` being the median of SAMPLE `i` and 0 for
`i` = 0 and before. -/
def Obligations.DecimatedOutputIsTheFilterSum : Prop :=
  ∀ (p : Nat → MachinePorts) (f : Nat → State) (n : Nat), RunOf .sample p f n →
    (f 0).per.irqArmed = true → (f 0).per.curRun = true →
    (f 0).filt = ⟨.zero, .zero, 0, 0⟩ →
    ∀ (c : Phase) (t : Nat), 0 < t → t ≤ n → t % 5 = 0 →
      ((f t).filt.ofPhase c).out0.toNat =
        ([1, 3, 6, 10, 15, 18, 19, 18, 15, 10, 6, 3, 1].zipIdx.map fun hj =>
          if hj.2 < t then
            hj.1 * (median3 ((f (t - hj.2)).filt.ofPhase c).med0 ((f (t - hj.2)).filt.ofPhase c).med1
              ((f (t - hj.2)).filt.ofPhase c).med2).toNat
          else 0).sum

/-- R93: with the counters of both phases growing by a constant `D` from one SAMPLE to the next, every
decimation event from the fourth on gives exactly `125 * D`, from any filter state whose decimation
counter is 0, in a run of any length. The 5 between decimation events, the 20 SAMPLEs of the first four
and the gain 125 rest on the source's literal `DECIM` = 5, which the model pins (log 4). -/
def Obligations.SteadyStateGainIs125 : Prop :=
  ∀ (p : Nat → MachinePorts) (f : Nat → State) (n : Nat) (D : Count Config.machine.widths),
    RunOf .sample p f n →
    (f 0).per.irqArmed = true → (f 0).per.curRun = true → (f 0).filt.decCnt = 0 →
    D.toNat ≤ Config.machine.deltaMax → ConstantDelta D (f 0) p →
    ∀ (c : Phase) (t : Nat), 20 ≤ t → t ≤ n → t % 5 = 0 →
      ((f t).filt.ofPhase c).out0.toNat = 125 * D.toNat

/-- R226: without new samples a poll of the start sequence changes nothing. -/
def Obligations.PollWithoutSamplesChangesNothing : Prop :=
  ∀ s : State, s.seq.app = .start →
    (s.seq.fgPhase = .settle ∧
        (s.filt.outCnt - s.cal.waitBase).toNat < Config.machine.nSettle ∨
      s.seq.fgPhase = .cal ∧ s.filt.outCnt = s.cal.lastSeen) →
    exec .fg s = .next s

/-- R16, R101, R223: the FG step that leaves Start for Running leaves both offsets inside their band, the
PWM pins and channels enabled and the `fault_clr` pulse begun. -/
def Obligations.OffsetsAreCalibratedBeforePwm : Prop :=
  ∀ s t : State, exec .fg s = .next t → s.seq.app = .start → t.seq.app = .running →
    (Config.machine.offsetMin.toReal ≤ t.cal.offsetU.toReal ∧
        t.cal.offsetU.toReal ≤ Config.machine.offsetMax.toReal) ∧
      (Config.machine.offsetMin.toReal ≤ t.cal.offsetV.toReal ∧
        t.cal.offsetV.toReal ≤ Config.machine.offsetMax.toReal) ∧
      t.per.pwmPinsEn = true ∧ t.per.pwmChEn = true ∧ t.faultClr = true

/-! ### Properties of the estimator -/

/-- R109: after every POSUPD the compensated count is `(raw + pos_comp) mod PPER`, and it and the
compensation are in [0, PPER), for every reading and every earlier state. -/
def Obligations.CompensatedCountStaysInRange : Prop :=
  ∀ s : State, ∃ t, exec .posupd s = .next t ∧
    t.pos.count = (s.ports.posCnt.toNat + t.pos.comp) % Config.machine.pper ∧
    t.pos.count < Config.machine.pper ∧ t.pos.comp < Config.machine.pper

/-- R231: for a true signed movement `d` inside the bound, the wrap detector finds exactly the wraps that
happened, and `pos_count` moves by `d` modulo `PPER`. -/
def Obligations.MovementInsideTheBoundIsTracked : Prop :=
  ∀ (s : State) (d : Int), d.natAbs ≤ movementBound Config.machine →
    s.ports.posCnt = BitVec.ofInt POS_W (s.pos.prev.toNat + d) →
    s.pos.count = (s.pos.prev.toNat + s.pos.comp) % Config.machine.pper →
    (wrappedUp Config.machine s.pos.prev s.ports.posCnt = true ↔ 65536 ≤ (s.pos.prev.toNat : Int) + d) ∧
      (wrappedDown Config.machine s.pos.prev s.ports.posCnt = true ↔ (s.pos.prev.toNat : Int) + d < 0) ∧
      ∃ t, exec .posupd s = .next t ∧
        (t.pos.count : Int) = ((s.pos.count : Int) + d) % (Config.machine.pper : Int)

/-- R113: in exact arithmetic (R4: `rnd` the identity) NORM adds -2pi, 0 or 2pi, and its result is in
[0, 2pi) exactly when `-2pi <= theta < 4pi`, `pi` being the real number (R5). It is said of every sound
representation of the real numbers: of the real numbers themselves (`Reals.exact`) and of the machine's
(`Num.reals`). -/
def Obligations.NormIsValidOnItsRange : Prop :=
  ∀ (S R : Type) [Field S] [AddCommGroup R] [Module S R] (c : Config S R) (scale : S →+* ℝ)
      (value : R → ℝ) (th : R), c.real.Sound scale value → c.ExactModel →
    (Machine.norm c th = th - c.real.twoPi ∨ Machine.norm c th = th ∨
        Machine.norm c th = th + c.real.twoPi) ∧
      (0 ≤ value (Machine.norm c th) ∧ value (Machine.norm c th) < 2 * Real.pi ↔
        -(2 * Real.pi) ≤ value th ∧ value th < 4 * Real.pi)

/-- R116, R232: the 16-bit signed delta is the true movement `d` when `-32768 <= d <= 32767`, and a
movement of exactly +32768 counts reads as -32768. -/
def Obligations.SignedDeltaIsTheMovement : Prop :=
  ∀ (base : Pos) (d : Int), -32768 ≤ d → d ≤ 32768 →
    signedMovement (BitVec.ofInt POS_W (base.toNat + d)) base = if d = 32768 then -32768 else d

/-- R115: the first slow loop of a run resynchronises: it leaves a velocity of 0, and after it the
statuses agree, so that the next slow loop takes the movement from the reading of this one. -/
def Obligations.FirstSlowLoopResynchronises : Prop :=
  ∀ s : State, s.ctl.runStatusPrev = .stop → s.ctl.runStatus = .run →
    ∃ t, exec .slowloop s = .next t ∧ t.pos.velEst = 0 ∧ t.ctl.runStatusPrev = .run ∧
      t.pos.velPrevRaw = s.ports.posCnt ∧
      ∀ p : MachinePorts, ∃ t', exec .slowloop { t with ports := p } = .next t' ∧
        t'.pos.velEst =
          Config.machine.rnd (((signedMovement p.posCnt s.ports.posCnt : ℚ) /
            (Config.machine.pper * Config.machine.tSlow)) • Num.reals.twoPi)

/-! ### Properties of the vector control -/

/-- R134, R147: the voltage commands of CURLOOP and the reference that SLOWLOOP writes lie inside the
output limits of their gain records, and are values of NUM (R4; that `pi_control` is a function into NUM
is log 3's reading). That the commands stand in the temporaries of the operation in progress is the
model's choice (log 12). -/
def Obligations.ControllerOutputsStayInTheirLimits : Prop :=
  ∀ s : State,
    (s.frames ≠ [] → ∃ t, exec .curloop s = .next t ∧
      (Config.machine.gainsD.outMin.toReal ≤ t.temps.vD.toReal ∧
        t.temps.vD.toReal ≤ Config.machine.gainsD.outMax.toReal) ∧
      (Config.machine.gainsQ.outMin.toReal ≤ t.temps.vQ.toReal ∧
        t.temps.vQ.toReal ≤ Config.machine.gainsQ.outMax.toReal) ∧
      Config.machine.Representable t.temps.vD ∧ Config.machine.Representable t.temps.vQ) ∧
    ∃ t, exec .slowloop s = .next t ∧
      (Config.machine.gainsVel.outMin.toReal ≤ t.ctl.iqRef.toReal ∧
        t.ctl.iqRef.toReal ≤ Config.machine.gainsVel.outMax.toReal) ∧
      Config.machine.Representable t.ctl.iqRef

/-- R129, counting admitted CONTROLs from 1 after MSTART, with `L = LOCK_COUNT_FOR_LOCK_TIME`: the angle
is the first one for CONTROLs 1 to L, the second one for L + 1 to 2L, and CONTROL 2L + 1 runs the
handover; the flag is down until then and the mode is open loop. -/
def Obligations.AlignmentFollowsItsSchedule : Prop :=
  ∀ (p : Nat → MachinePorts) (f : Nat → State) (n : Nat), RunOf .control p f n →
    (f 0).per.irqArmed = true → (f 0).per.pwmChEn = true →
    (f 0).ctl.mode = .openLoop → (f 0).ctl.alignActive = true → (f 0).ctl.changeMode = false →
    (f 0).ctl.lockCnt = 0 → (f 0).ctl.rotCnt = 0 →
    ∀ k, 1 ≤ k → k ≤ n →
      (k ≤ Config.machine.lockCount →
        (f k).pos.angle = Machine.norm Config.machine (Config.machine.rnd Config.machine.alignAngle) ∧
          (f k).ctl.lockCnt.toNat = k ∧ (f k).ctl.rotCnt = 0) ∧
      (Config.machine.lockCount < k → k ≤ 2 * Config.machine.lockCount →
        (f k).pos.angle =
            Machine.norm Config.machine (Config.machine.rnd (Config.machine.alignAngle
              + ((signOf (f 0).ctl.direction : ℚ) / 2) • Sys2Proof.Num.pi)) ∧
          (f k).ctl.lockCnt.toNat = Config.machine.lockCount ∧
          (f k).ctl.rotCnt.toNat = k - Config.machine.lockCount) ∧
      (k ≤ 2 * Config.machine.lockCount →
        (f k).ctl.mode = .openLoop ∧ (f k).ctl.alignActive = true ∧ (f k).ctl.changeMode = false) ∧
      (k = 2 * Config.machine.lockCount + 1 →
        (f k).ctl.mode = .closedLoop ∧ (f k).ctl.alignActive = false ∧
          (f k).ctl.changeMode = true ∧ (f k).pos.angle = 0 ∧ (f k).pos.comp = 0 ∧
          (f k).pos.prev = 0 ∧ (f k).pos.count = 0 ∧ (f k).pos.velPrevRaw = 0) ∧
      (2 * Config.machine.lockCount + 1 < k →
        (f k).ctl.mode = .closedLoop ∧ (f k).ctl.changeMode = false)

/-- R20, R132: the mode-just-changed flag is raised by the handover alone, which needs the alignment
active and ends it; and an alignment that has ended is started again by CPRESET alone, inside
MSTART_BEGIN or MSTOP. -/
def Obligations.ModeChangeIsRaisedByTheHandoverOnly : Prop :=
  ∀ (i : Instr) (s t : State), exec i s = .next t →
    (s.ctl.changeMode = false → t.ctl.changeMode = true →
      (i = .control ∨ i = .angupd ∨ i = .align) ∧
        s.ctl.alignActive = true ∧ t.ctl.alignActive = false ∧
        Config.machine.lockCount ≤ s.ctl.lockCnt.toNat ∧ Config.machine.lockCount ≤ s.ctl.rotCnt.toNat ∧
        t.ctl.mode = .closedLoop) ∧
      (s.ctl.alignActive = false → t.ctl.alignActive = true →
        (i = .cpreset ∨ i = .mstartBegin ∨ i = .mstop ∨
          i = .fg ∧ (s.seq.app = .start ∧ s.seq.fgPhase = .idle ∨ s.seq.app = .stopped)) ∧
          t.ctl.changeMode = false)

/-! ### Properties of the scheduler -/

/-- R190, R36: an FG step takes only the transitions of the table, and nothing else moves `app_state`. -/
def Obligations.LifecycleHasNoOtherTransition : Prop :=
  ∀ (i : Instr) (s t : State), exec i s = .next t →
    (i = .fg → lifecycleEdge s.seq.app t.seq.app) ∧ (i ≠ .fg → t.seq.app = s.seq.app)

/-- R136: only INIT and the WaitStart step write `direction`. -/
def Obligations.DirectionIsFixedDuringARun : Prop :=
  ∀ (i : Instr) (s t : State), exec i s = .next t → t.ctl.direction ≠ s.ctl.direction →
    i = .init ∨ i = .fg ∧ (s.seq.app = .init ∨ s.seq.app = .waitStart ∧ s.ports.btn.dir = true)

/-- R163, with the source's literal 60000: with no button pressed, the Running step that runs a slow loop
counts it, raises the idle-soon indicator from the lower threshold on, and leaves for StopDecrease
exactly from the 60000th on. -/
def Obligations.InactivityStopsTheMotor : Prop :=
  ∀ s : State, s.seq.app = .running → s.ports.btn = noButtons →
    Config.machine.slowDiv ≤ s.ctl.syncCnt.toNat → s.seq.inactCnt.toNat + 1 < 2 ^ Config.machine.widths.ctr →
    ∃ t, exec .fg s = .next t ∧
      t.seq.inactCnt.toNat = s.seq.inactCnt.toNat + 1 ∧
      (t.seq.app = .stopDecrease ↔ 60000 ≤ s.seq.inactCnt.toNat + 1) ∧
      (t.seq.app = .running ↔ s.seq.inactCnt.toNat + 1 < 60000) ∧
      (t.per.indIdle = true ↔
        s.per.indIdle = true ∨ Config.machine.inactWarn ≤ s.seq.inactCnt.toNat + 1)

/-- R187: in StopDecrease the target never rises, stays at 0 or above, and falls by at most `STOP_DEC_STEP`
before rounding; `vel_ramped` moves toward the old target from either side, by at most `ramp_step` before
rounding, and does not pass it; the reference of the velocity PI keeps the sign of `direction`; and the
exit at or below 110 rad/s (R186, the source's literal, log 4) runs no slow loop. The premises are two
parts of the machine invariant: the magnitudes of R167 (log 25) and the format of NUM (log 2). -/
def Obligations.StopDecreaseNeverRaisesTheTarget : Prop :=
  ∀ s : State, s.seq.app = .stopDecrease → RangesOk Config.machine s → FormatOk Config.machine s →
    ∃ t, exec .fg s = .next t ∧
      (t.ctl.velTarget.toReal ≤ s.ctl.velTarget.toReal ∧ 0 ≤ t.ctl.velTarget.toReal ∧
        (Config.machine.rnd (s.ctl.velTarget - Config.machine.stopDecStep)).toReal ≤
          t.ctl.velTarget.toReal) ∧
      (s.ctl.velTarget.toReal ≤ s.ctl.velRamped.toReal →
        s.ctl.velTarget.toReal ≤ t.ctl.velRamped.toReal ∧
          t.ctl.velRamped.toReal ≤ s.ctl.velRamped.toReal ∧
          (Config.machine.rnd (s.ctl.velRamped - s.ctl.rampStep)).toReal ≤ t.ctl.velRamped.toReal) ∧
      (s.ctl.velRamped.toReal ≤ s.ctl.velTarget.toReal →
        s.ctl.velRamped.toReal ≤ t.ctl.velRamped.toReal ∧
          t.ctl.velRamped.toReal ≤ s.ctl.velTarget.toReal ∧
          t.ctl.velRamped.toReal ≤ (Config.machine.rnd (s.ctl.velRamped + s.ctl.rampStep)).toReal) ∧
      0 ≤ (signOf s.ctl.direction : ℝ) *
        (velocityReference Config.machine t.ctl.direction t.ctl.velRamped).toReal ∧
      ((signOf s.ctl.direction : ℝ) * s.pos.velEst.toReal ≤ 110 →
        t = { s with seq := { s.seq with app := .stopped } })

/-- R165, R228: over any sequence of events, the slow loops run at most once per `SLOW_DIV` admitted
CONTROLs, the ticks already counted at its beginning included. -/
def Obligations.SlowLoopsAreRateLimited : Prop :=
  ∀ (es : List (Instr × MachinePorts)) (s : State),
    Config.machine.slowDiv * slowLoops es s ≤ s.ctl.syncCnt.toNat + admittedControls es s

/-- R52: the pulse of `fault_clr` begins only at MSTART_END, by itself or inside the FG step that leaves
Start for Running; and with an event under way (under `fieldAtomic`), no step but a reset ends it. -/
def Obligations.FaultClearIsPulsedAtStartOnly : Prop :=
  (∀ (i : Instr) (s t : State), exec i s = .next t → s.faultClr = false →
    (t.faultClr = true ↔
      i = .mstartEnd ∨
        i = .fg ∧ s.seq.app = .start ∧ s.seq.fgPhase = .cal ∧ calDone Config.machine s = true)) ∧
    ∀ s t : State, s.preempt = .fieldAtomic → s.ports.rst = false → underWay s = true →
      step s = .next t → s.faultClr = true → t.faultClr = true

/-- R210, with the table of 10_state.md section 9: what each agent's event leaves alone. -/
def Obligations.AgentsWriteOnlyTheirRegisters : Prop :=
  (∀ s t : State, exec .sample s = .next t → t = { s with filt := t.filt }) ∧
    (∀ s t : State, exec .control s = .next t →
      t = { s with
        pos := { t.pos with velEst := s.pos.velEst }
        ctl :=
          { s.ctl with
            mode := t.ctl.mode
            changeMode := t.ctl.changeMode
            alignActive := t.ctl.alignActive
            lockCnt := t.ctl.lockCnt
            rotCnt := t.ctl.rotCnt
            idRef := t.ctl.idRef
            iqRef := t.ctl.iqRef
            syncCnt := t.ctl.syncCnt }
        loops := t.loops
        duty := t.duty }) ∧
    ∀ s t : State, exec .fg s = .next t →
      t.filt = s.filt ∧ t.duty = s.duty ∧ t.frames = s.frames ∧
        (s.seq.app ≠ .start → t.cal = s.cal ∧
          t.pos = { s.pos with velEst := t.pos.velEst, velPrevRaw := t.pos.velPrevRaw }) ∧
        (s.seq.app ≠ .start → s.seq.app ≠ .stopped →
          t.ctl.mode = s.ctl.mode ∧ t.ctl.changeMode = s.ctl.changeMode ∧
            t.ctl.alignActive = s.ctl.alignActive ∧ t.ctl.lockCnt = s.ctl.lockCnt ∧
            t.ctl.rotCnt = s.ctl.rotCnt ∧ t.ctl.idRef = s.ctl.idRef ∧
            t.loops.d = s.loops.d ∧ t.loops.q = s.loops.q)

/-! ### The invariant -/

/-- The invariant of Safety.lean (ranges R5, R15, R18, R167, R212; format R4; mode R20, R123; lifecycle R37,
R174, R175, R177; offsets R16) holds at reset. Its clause on `PREEMPT` is the model's choice (log 14), and
so are the order of its lifecycle clause in Stopped (log 24) and the magnitudes (log 25). -/
def Obligations.InvariantHoldsAtReset : Prop := MachineInvariant State.reset

/-- Every step of a machine that takes whole events keeps the invariant. It rests on what a rounding
operator is taken to satisfy (log 2), on `pi_control` being a function into NUM (log 3) and on
the velocity limits being magnitudes (log 25). -/
def Obligations.InvariantIsKeptByEveryStep : Prop :=
  ∀ s t : State, MachineInvariant s → step s = .next t → MachineInvariant t

/-! ### One access at a time -/

/-- R55, R56, R58: under `field_atomic`, an event into which nothing falls leaves, when it has made its
last access, exactly what it leaves as one atomic step, the pulse of `fault_clr` included (R52; log 13). -/
def Obligations.UndisturbedEventIsAtomic : Prop :=
  ∀ (s : State) (i : Instr), s.preempt = .fieldAtomic → s.frames = [] → s.script = [] →
    s.ports.rst = false → s.ports.stb = true → decode s.ports.ev = .ok i → i.opClass = .event →
    i ≠ .idle → admitted i s = true →
    steps (1 + (opProgram Config.machine s.ports s.temps i).length { s with faultClr := false }) s =
      some { performWith Config.machine i { s with faultClr := false } with
        frames := []
        ports := { s.ports with rst := false, stb := false, btn := noButtons } }

/-- R206: which event may fall between two accesses of an operation in progress. That an event which may
not waits on the port while the operation makes its next access is the model's choice (log 17). -/
def Obligations.PriorityDecidesWhatPreempts : Prop :=
  ∀ (s : State) (i : Instr) (f : MachineFrame) (fs : List (MachineFrame)),
    s.preempt = .fieldAtomic →
    s.ports.rst = false → s.ports.stb = true → decode s.ports.ev = .ok i →
    (i = .sample ∨ i = .control ∨ i = .fg) → s.frames = f :: fs →
    (f.op = .sample ∨ f.op = .control ∨ f.op = .fg) →
    step s =
      if f.op = .fg ∧ i ≠ .fg ∨ i = .sample ∧ f.op = .control ∧ s.prio = .sampleHigh ∨
          i = .control ∧ f.op = .sample ∧ s.prio = .controlHigh then
        .next (present (if admitted i s then
          { endPulse s with frames := ⟨i, s.ports, .zero, []⟩ :: f :: fs }
          else endPulse s))
      else stepAccess (endPulse s)

/-- R228: between GATE's read of `sync_cnt` and its write a CONTROL can be taken, and the write that
follows puts 0 whatever the register has become: an increment made in between is lost. -/
def Obligations.GateCanLoseAControlTick : Prop :=
  ∀ (s : State) (n : Ctr Config.machine.widths) (p : MachinePorts) (u : MachineTemps),
    s.preempt = .fieldAtomic → s.ports.rst = false →
    s.frames = [⟨.fg, p, u, [.app .running, .ctr n]⟩] → Config.machine.slowDiv ≤ n.toNat →
    (s.ports.stb = true → s.ports.ev = 0b00010#5 → s.per.irqArmed = true → s.per.pwmChEn = true →
      ∃ t, step s = .next t ∧
        t.frames = [⟨.control, s.ports, .zero, []⟩, ⟨.fg, p, u, [.app .running, .ctr n]⟩]) ∧
      (s.ports.stb = false →
        ∃ t, step s = .next t ∧ t.ctl.syncCnt = 0 ∧
          t.frames = [⟨.fg, p, u, [.app .running, .ctr n, .wrote]⟩])
end

