-- ==== Sys2Proof/Laws/Config.lean ====
section
/-! SUPPORT. What is known of the configuration of the machine: the constraints of 00_scope.md rule R2 one
by one, and the literals of the source. Nothing else is. -/

namespace Sys2Proof.Laws

open Sys2Proof

theorem machine_valid : Config.machine.Valid Num.toReal := Config.machine_eq ▸ Config.theMachine.valid

theorem machine_literals : Config.machine.SourceLiterals := Config.machine_eq ▸ Config.theMachine.literals

/-- The numbers of the machine (log 1). -/
@[simp] theorem machine_real : Config.machine.real = Num.reals := rfl

/-- The widths the spec gives (R2). -/
theorem machine_widths : Config.machine.widths = .default := rfl

/-- The constraints of R2's integer table, in its order. -/
theorem machine_integers :
    1 ≤ Config.machine.decim ∧ Config.machine.deltaMax < 2 ^ Config.machine.widths.cw ∧
      125 * Config.machine.deltaMax < 2 ^ Config.machine.widths.aw ∧ 0 < Config.machine.avgWSum ∧
      1 ≤ Config.machine.nCal ∧ 1 ≤ Config.machine.pper ∧ 300 < Config.machine.posLowerTh ∧
      Config.machine.posLowerTh < Config.machine.posUpperTh ∧ Config.machine.posUpperTh < 65000 ∧
      1 ≤ Config.machine.slowDiv ∧ Config.machine.inactWarn < Config.machine.inactStop := by
  have h : Config.machine.integersOk = true := by
    have := machine_valid.params
    simp only [Config.paramsOk, Bool.and_eq_true] at this
    exact this.1
  simp only [Config.integersOk, Bool.and_eq_true, decide_eq_true_eq] at h
  tauto

/-- The last row of R2's integer table: every count parameter fits the counters. -/
theorem machine_counts :
    Config.machine.decim < 2 ^ Config.machine.widths.ctr ∧
      Config.machine.nSettle < 2 ^ Config.machine.widths.ctr ∧
      Config.machine.nCal < 2 ^ Config.machine.widths.ctr ∧
      Config.machine.lockCount < 2 ^ Config.machine.widths.ctr ∧
      Config.machine.slowDiv < 2 ^ Config.machine.widths.ctr ∧
      Config.machine.inactStop < 2 ^ Config.machine.widths.ctr ∧
      Config.machine.inactWarn < 2 ^ Config.machine.widths.ctr := by
  have h := machine_valid.params
  simp only [Config.paramsOk, Config.integersOk, Config.countsFit, Bool.and_eq_true,
    decide_eq_true_eq] at h
  tauto

/-- The constraints of R2's real table, in its order, then that the velocity limits are magnitudes and
those on the output limits. -/
theorem machine_reals :
    Config.machine.offsetMin.toReal ≤ Config.machine.offsetMax.toReal ∧ 0 < Config.machine.tSlow ∧
      0 ≤ Config.machine.olIqRef.toReal ∧ 0 ≤ Config.machine.stopMargin.toReal ∧
      0 < Config.machine.stopDecStep.toReal ∧ 0 < Config.machine.rampStepDefault.toReal ∧
      Config.machine.velCmdMin.toReal ≤ Config.machine.velCmdDefault.toReal ∧
      Config.machine.velCmdDefault.toReal ≤ Config.machine.velCmdMax.toReal ∧
      0 ≤ Config.machine.velCmdStep.toReal ∧ 0 ≤ Config.machine.velCmdMin.toReal ∧
      Config.machine.gainsD.outMin.toReal ≤ Config.machine.gainsD.outMax.toReal ∧
      Config.machine.gainsQ.outMin.toReal ≤ Config.machine.gainsQ.outMax.toReal ∧
      Config.machine.gainsVel.outMin.toReal ≤ Config.machine.gainsVel.outMax.toReal := by
  have h := machine_valid.params
  simp only [Config.paramsOk, Config.realsOk, Bool.and_eq_true, machine_real, reals_ofScale, le_iff,
    lt_iff, toReal_zero, toReal_ofRat, Rat.cast_pos] at h
  tauto

/-- `STOP_SPEED_TH` and `ALIGN_ANGLE`, the source's literals (R2). -/
theorem machine_stopSpeedTh : Config.machine.stopSpeedTh = Num.ofRat 110 := machine_literals.stopSpeedTh

theorem machine_alignAngle : Config.machine.alignAngle = Num.pi := machine_literals.alignAngle

/-- A counter below a count parameter counts up without wrapping. -/
theorem counter_succ {w : Widths} {x : Ctr w} {n : Nat} (hn : n < 2 ^ w.ctr) (h : x.toNat < n) :
    (x + 1).toNat = x.toNat + 1 := by
  have h1 : (x + 1).toNat = (x.toNat + 1) % 2 ^ w.ctr := by simp
  rw [h1, Nat.mod_eq_of_lt (by omega)]

end Sys2Proof.Laws
end

