-- ==== Sys2Proof/Laws/State.lean ====
section
/-! SUPPORT. One lemma per register for reading it and one for writing it, true by rfl: with these simp
reads and writes registers without unfolding `State.get` and `State.set`. Then what a write leaves
alone, said once for every register. -/

namespace Sys2Proof.Laws

open Sys2Proof Sys2Proof.Machine

variable {w : Widths} {R : Type}

/-! ### The two phases of the filter -/

@[simp] theorem ofPhase_u (f : Filter w) : f.ofPhase .u = f.u := rfl
@[simp] theorem ofPhase_v (f : Filter w) : f.ofPhase .v = f.v := rfl
@[simp] theorem withPhase_u (f : Filter w) (p : PhaseFilter w) : f.withPhase .u p = { f with u := p } := rfl
@[simp] theorem withPhase_v (f : Filter w) (p : PhaseFilter w) : f.withPhase .v p = { f with v := p } := rfl

@[simp] theorem ofPhase_withPhase (f : Filter w) (c : Phase) (p : PhaseFilter w) :
    (f.withPhase c p).ofPhase c = p := by cases c <;> rfl

@[simp] theorem withPhase_withPhase (f : Filter w) (c : Phase) (p q : PhaseFilter w) :
    (f.withPhase c p).withPhase c q = f.withPhase c q := by cases c <;> rfl

@[simp] theorem withPhase_decCnt (f : Filter w) (c : Phase) (p : PhaseFilter w) :
    (f.withPhase c p).decCnt = f.decCnt := by cases c <;> rfl

@[simp] theorem withPhase_outCnt (f : Filter w) (c : Phase) (p : PhaseFilter w) :
    (f.withPhase c p).outCnt = f.outCnt := by cases c <;> rfl

/-! ### Reading each register -/

@[simp] theorem get_prevRaw (s : State w R) (c : Phase) : s.get _ (.prevRaw c) = (s.filt.ofPhase c).prevRaw := rfl
@[simp] theorem get_med0 (s : State w R) (c : Phase) : s.get _ (.med0 c) = (s.filt.ofPhase c).med0 := rfl
@[simp] theorem get_med1 (s : State w R) (c : Phase) : s.get _ (.med1 c) = (s.filt.ofPhase c).med1 := rfl
@[simp] theorem get_med2 (s : State w R) (c : Phase) : s.get _ (.med2 c) = (s.filt.ofPhase c).med2 := rfl
@[simp] theorem get_integ1 (s : State w R) (c : Phase) : s.get _ (.integ1 c) = (s.filt.ofPhase c).integ1 := rfl
@[simp] theorem get_integ2 (s : State w R) (c : Phase) : s.get _ (.integ2 c) = (s.filt.ofPhase c).integ2 := rfl
@[simp] theorem get_integ3 (s : State w R) (c : Phase) : s.get _ (.integ3 c) = (s.filt.ofPhase c).integ3 := rfl
@[simp] theorem get_comb1 (s : State w R) (c : Phase) : s.get _ (.comb1 c) = (s.filt.ofPhase c).comb1 := rfl
@[simp] theorem get_comb2 (s : State w R) (c : Phase) : s.get _ (.comb2 c) = (s.filt.ofPhase c).comb2 := rfl
@[simp] theorem get_comb3 (s : State w R) (c : Phase) : s.get _ (.comb3 c) = (s.filt.ofPhase c).comb3 := rfl
@[simp] theorem get_out0 (s : State w R) (c : Phase) : s.get _ (.out0 c) = (s.filt.ofPhase c).out0 := rfl
@[simp] theorem get_out1 (s : State w R) (c : Phase) : s.get _ (.out1 c) = (s.filt.ofPhase c).out1 := rfl
@[simp] theorem get_out2 (s : State w R) (c : Phase) : s.get _ (.out2 c) = (s.filt.ofPhase c).out2 := rfl
@[simp] theorem get_out3 (s : State w R) (c : Phase) : s.get _ (.out3 c) = (s.filt.ofPhase c).out3 := rfl
@[simp] theorem get_offset_u (s : State w R) : s.get _ (.offset .u) = s.cal.offsetU := rfl
@[simp] theorem get_offset_v (s : State w R) : s.get _ (.offset .v) = s.cal.offsetV := rfl
@[simp] theorem get_calSum_u (s : State w R) : s.get _ (.calSum .u) = s.cal.sumU := rfl
@[simp] theorem get_calSum_v (s : State w R) : s.get _ (.calSum .v) = s.cal.sumV := rfl
@[simp] theorem get_decCnt (s : State w R) : s.get _ (.decCnt) = s.filt.decCnt := rfl
@[simp] theorem get_outCnt (s : State w R) : s.get _ (.outCnt) = s.filt.outCnt := rfl
@[simp] theorem get_calN (s : State w R) : s.get _ (.calN) = s.cal.calN := rfl
@[simp] theorem get_waitBase (s : State w R) : s.get _ (.waitBase) = s.cal.waitBase := rfl
@[simp] theorem get_lastSeen (s : State w R) : s.get _ (.lastSeen) = s.cal.lastSeen := rfl
@[simp] theorem get_posPrev (s : State w R) : s.get _ (.posPrev) = s.pos.prev := rfl
@[simp] theorem get_posComp (s : State w R) : s.get _ (.posComp) = s.pos.comp := rfl
@[simp] theorem get_posCount (s : State w R) : s.get _ (.posCount) = s.pos.count := rfl
@[simp] theorem get_angle (s : State w R) : s.get _ (.angle) = s.pos.angle := rfl
@[simp] theorem get_velPrevRaw (s : State w R) : s.get _ (.velPrevRaw) = s.pos.velPrevRaw := rfl
@[simp] theorem get_velEst (s : State w R) : s.get _ (.velEst) = s.pos.velEst := rfl
@[simp] theorem get_ctlMode (s : State w R) : s.get _ (.ctlMode) = s.ctl.mode := rfl
@[simp] theorem get_changeMode (s : State w R) : s.get _ (.changeMode) = s.ctl.changeMode := rfl
@[simp] theorem get_alignActive (s : State w R) : s.get _ (.alignActive) = s.ctl.alignActive := rfl
@[simp] theorem get_direction (s : State w R) : s.get _ (.direction) = s.ctl.direction := rfl
@[simp] theorem get_lockCnt (s : State w R) : s.get _ (.lockCnt) = s.ctl.lockCnt := rfl
@[simp] theorem get_rotCnt (s : State w R) : s.get _ (.rotCnt) = s.ctl.rotCnt := rfl
@[simp] theorem get_velCmd (s : State w R) : s.get _ (.velCmd) = s.ctl.velCmd := rfl
@[simp] theorem get_velTarget (s : State w R) : s.get _ (.velTarget) = s.ctl.velTarget := rfl
@[simp] theorem get_velRamped (s : State w R) : s.get _ (.velRamped) = s.ctl.velRamped := rfl
@[simp] theorem get_idRef (s : State w R) : s.get _ (.idRef) = s.ctl.idRef := rfl
@[simp] theorem get_iqRef (s : State w R) : s.get _ (.iqRef) = s.ctl.iqRef := rfl
@[simp] theorem get_syncCnt (s : State w R) : s.get _ (.syncCnt) = s.ctl.syncCnt := rfl
@[simp] theorem get_runStatus (s : State w R) : s.get _ (.runStatus) = s.ctl.runStatus := rfl
@[simp] theorem get_runStatusPrev (s : State w R) : s.get _ (.runStatusPrev) = s.ctl.runStatusPrev := rfl
@[simp] theorem get_rampStep (s : State w R) : s.get _ (.rampStep) = s.ctl.rampStep := rfl
@[simp] theorem get_piD (s : State w R) : s.get _ (.piD) = s.loops.d := rfl
@[simp] theorem get_piQ (s : State w R) : s.get _ (.piQ) = s.loops.q := rfl
@[simp] theorem get_piVel (s : State w R) : s.get _ (.piVel) = s.loops.vel := rfl
@[simp] theorem get_appState (s : State w R) : s.get _ (.appState) = s.seq.app := rfl
@[simp] theorem get_fgPhase (s : State w R) : s.get _ (.fgPhase) = s.seq.fgPhase := rfl
@[simp] theorem get_inactCnt (s : State w R) : s.get _ (.inactCnt) = s.seq.inactCnt := rfl
@[simp] theorem get_irqArmed (s : State w R) : s.get _ (.irqArmed) = s.per.irqArmed := rfl
@[simp] theorem get_posRun (s : State w R) : s.get _ (.posRun) = s.per.posRun := rfl
@[simp] theorem get_curRun (s : State w R) : s.get _ (.curRun) = s.per.curRun := rfl
@[simp] theorem get_pwmPinsEn (s : State w R) : s.get _ (.pwmPinsEn) = s.per.pwmPinsEn := rfl
@[simp] theorem get_pwmChEn (s : State w R) : s.get _ (.pwmChEn) = s.per.pwmChEn := rfl
@[simp] theorem get_indRun (s : State w R) : s.get _ (.indRun) = s.per.indRun := rfl
@[simp] theorem get_indIdle (s : State w R) : s.get _ (.indIdle) = s.per.indIdle := rfl
@[simp] theorem get_dutyU (s : State w R) : s.get _ (.dutyU) = s.duty.u := rfl
@[simp] theorem get_dutyV (s : State w R) : s.get _ (.dutyV) = s.duty.v := rfl
@[simp] theorem get_dutyW (s : State w R) : s.get _ (.dutyW) = s.duty.w := rfl
@[simp] theorem get_faultClr (s : State w R) : s.get _ (.faultClr) = s.faultClr := rfl

/-! ### Writing each register -/

@[simp] theorem set_prevRaw (s : State w R) (c : Phase) (x) :
    s.set _ (.prevRaw c) x = { s with filt := s.filt.withPhase c { s.filt.ofPhase c with prevRaw := x } } := rfl
@[simp] theorem set_med0 (s : State w R) (c : Phase) (x) :
    s.set _ (.med0 c) x = { s with filt := s.filt.withPhase c { s.filt.ofPhase c with med0 := x } } := rfl
@[simp] theorem set_med1 (s : State w R) (c : Phase) (x) :
    s.set _ (.med1 c) x = { s with filt := s.filt.withPhase c { s.filt.ofPhase c with med1 := x } } := rfl
@[simp] theorem set_med2 (s : State w R) (c : Phase) (x) :
    s.set _ (.med2 c) x = { s with filt := s.filt.withPhase c { s.filt.ofPhase c with med2 := x } } := rfl
@[simp] theorem set_integ1 (s : State w R) (c : Phase) (x) :
    s.set _ (.integ1 c) x = { s with filt := s.filt.withPhase c { s.filt.ofPhase c with integ1 := x } } := rfl
@[simp] theorem set_integ2 (s : State w R) (c : Phase) (x) :
    s.set _ (.integ2 c) x = { s with filt := s.filt.withPhase c { s.filt.ofPhase c with integ2 := x } } := rfl
@[simp] theorem set_integ3 (s : State w R) (c : Phase) (x) :
    s.set _ (.integ3 c) x = { s with filt := s.filt.withPhase c { s.filt.ofPhase c with integ3 := x } } := rfl
@[simp] theorem set_comb1 (s : State w R) (c : Phase) (x) :
    s.set _ (.comb1 c) x = { s with filt := s.filt.withPhase c { s.filt.ofPhase c with comb1 := x } } := rfl
@[simp] theorem set_comb2 (s : State w R) (c : Phase) (x) :
    s.set _ (.comb2 c) x = { s with filt := s.filt.withPhase c { s.filt.ofPhase c with comb2 := x } } := rfl
@[simp] theorem set_comb3 (s : State w R) (c : Phase) (x) :
    s.set _ (.comb3 c) x = { s with filt := s.filt.withPhase c { s.filt.ofPhase c with comb3 := x } } := rfl
@[simp] theorem set_out0 (s : State w R) (c : Phase) (x) :
    s.set _ (.out0 c) x = { s with filt := s.filt.withPhase c { s.filt.ofPhase c with out0 := x } } := rfl
@[simp] theorem set_out1 (s : State w R) (c : Phase) (x) :
    s.set _ (.out1 c) x = { s with filt := s.filt.withPhase c { s.filt.ofPhase c with out1 := x } } := rfl
@[simp] theorem set_out2 (s : State w R) (c : Phase) (x) :
    s.set _ (.out2 c) x = { s with filt := s.filt.withPhase c { s.filt.ofPhase c with out2 := x } } := rfl
@[simp] theorem set_out3 (s : State w R) (c : Phase) (x) :
    s.set _ (.out3 c) x = { s with filt := s.filt.withPhase c { s.filt.ofPhase c with out3 := x } } := rfl
@[simp] theorem set_offset_u (s : State w R) (x) :
    s.set _ (.offset .u) x = { s with cal := { s.cal with offsetU := x } } := rfl
@[simp] theorem set_offset_v (s : State w R) (x) :
    s.set _ (.offset .v) x = { s with cal := { s.cal with offsetV := x } } := rfl
@[simp] theorem set_calSum_u (s : State w R) (x) :
    s.set _ (.calSum .u) x = { s with cal := { s.cal with sumU := x } } := rfl
@[simp] theorem set_calSum_v (s : State w R) (x) :
    s.set _ (.calSum .v) x = { s with cal := { s.cal with sumV := x } } := rfl
@[simp] theorem set_decCnt (s : State w R) (x) :
    s.set _ (.decCnt) x = { s with filt := { s.filt with decCnt := x } } := rfl
@[simp] theorem set_outCnt (s : State w R) (x) :
    s.set _ (.outCnt) x = { s with filt := { s.filt with outCnt := x } } := rfl
@[simp] theorem set_calN (s : State w R) (x) :
    s.set _ (.calN) x = { s with cal := { s.cal with calN := x } } := rfl
@[simp] theorem set_waitBase (s : State w R) (x) :
    s.set _ (.waitBase) x = { s with cal := { s.cal with waitBase := x } } := rfl
@[simp] theorem set_lastSeen (s : State w R) (x) :
    s.set _ (.lastSeen) x = { s with cal := { s.cal with lastSeen := x } } := rfl
@[simp] theorem set_posPrev (s : State w R) (x) :
    s.set _ (.posPrev) x = { s with pos := { s.pos with prev := x } } := rfl
@[simp] theorem set_posComp (s : State w R) (x) :
    s.set _ (.posComp) x = { s with pos := { s.pos with comp := x } } := rfl
@[simp] theorem set_posCount (s : State w R) (x) :
    s.set _ (.posCount) x = { s with pos := { s.pos with count := x } } := rfl
@[simp] theorem set_angle (s : State w R) (x) :
    s.set _ (.angle) x = { s with pos := { s.pos with angle := x } } := rfl
@[simp] theorem set_velPrevRaw (s : State w R) (x) :
    s.set _ (.velPrevRaw) x = { s with pos := { s.pos with velPrevRaw := x } } := rfl
@[simp] theorem set_velEst (s : State w R) (x) :
    s.set _ (.velEst) x = { s with pos := { s.pos with velEst := x } } := rfl
@[simp] theorem set_ctlMode (s : State w R) (x) :
    s.set _ (.ctlMode) x = { s with ctl := { s.ctl with mode := x } } := rfl
@[simp] theorem set_changeMode (s : State w R) (x) :
    s.set _ (.changeMode) x = { s with ctl := { s.ctl with changeMode := x } } := rfl
@[simp] theorem set_alignActive (s : State w R) (x) :
    s.set _ (.alignActive) x = { s with ctl := { s.ctl with alignActive := x } } := rfl
@[simp] theorem set_direction (s : State w R) (x) :
    s.set _ (.direction) x = { s with ctl := { s.ctl with direction := x } } := rfl
@[simp] theorem set_lockCnt (s : State w R) (x) :
    s.set _ (.lockCnt) x = { s with ctl := { s.ctl with lockCnt := x } } := rfl
@[simp] theorem set_rotCnt (s : State w R) (x) :
    s.set _ (.rotCnt) x = { s with ctl := { s.ctl with rotCnt := x } } := rfl
@[simp] theorem set_velCmd (s : State w R) (x) :
    s.set _ (.velCmd) x = { s with ctl := { s.ctl with velCmd := x } } := rfl
@[simp] theorem set_velTarget (s : State w R) (x) :
    s.set _ (.velTarget) x = { s with ctl := { s.ctl with velTarget := x } } := rfl
@[simp] theorem set_velRamped (s : State w R) (x) :
    s.set _ (.velRamped) x = { s with ctl := { s.ctl with velRamped := x } } := rfl
@[simp] theorem set_idRef (s : State w R) (x) :
    s.set _ (.idRef) x = { s with ctl := { s.ctl with idRef := x } } := rfl
@[simp] theorem set_iqRef (s : State w R) (x) :
    s.set _ (.iqRef) x = { s with ctl := { s.ctl with iqRef := x } } := rfl
@[simp] theorem set_syncCnt (s : State w R) (x) :
    s.set _ (.syncCnt) x = { s with ctl := { s.ctl with syncCnt := x } } := rfl
@[simp] theorem set_runStatus (s : State w R) (x) :
    s.set _ (.runStatus) x = { s with ctl := { s.ctl with runStatus := x } } := rfl
@[simp] theorem set_runStatusPrev (s : State w R) (x) :
    s.set _ (.runStatusPrev) x = { s with ctl := { s.ctl with runStatusPrev := x } } := rfl
@[simp] theorem set_rampStep (s : State w R) (x) :
    s.set _ (.rampStep) x = { s with ctl := { s.ctl with rampStep := x } } := rfl
@[simp] theorem set_piD (s : State w R) (x) :
    s.set _ (.piD) x = { s with loops := { s.loops with d := x } } := rfl
@[simp] theorem set_piQ (s : State w R) (x) :
    s.set _ (.piQ) x = { s with loops := { s.loops with q := x } } := rfl
@[simp] theorem set_piVel (s : State w R) (x) :
    s.set _ (.piVel) x = { s with loops := { s.loops with vel := x } } := rfl
@[simp] theorem set_appState (s : State w R) (x) :
    s.set _ (.appState) x = { s with seq := { s.seq with app := x } } := rfl
@[simp] theorem set_fgPhase (s : State w R) (x) :
    s.set _ (.fgPhase) x = { s with seq := { s.seq with fgPhase := x } } := rfl
@[simp] theorem set_inactCnt (s : State w R) (x) :
    s.set _ (.inactCnt) x = { s with seq := { s.seq with inactCnt := x } } := rfl
@[simp] theorem set_irqArmed (s : State w R) (x) :
    s.set _ (.irqArmed) x = { s with per := { s.per with irqArmed := x } } := rfl
@[simp] theorem set_posRun (s : State w R) (x) :
    s.set _ (.posRun) x = { s with per := { s.per with posRun := x } } := rfl
@[simp] theorem set_curRun (s : State w R) (x) :
    s.set _ (.curRun) x = { s with per := { s.per with curRun := x } } := rfl
@[simp] theorem set_pwmPinsEn (s : State w R) (x) :
    s.set _ (.pwmPinsEn) x = { s with per := { s.per with pwmPinsEn := x } } := rfl
@[simp] theorem set_pwmChEn (s : State w R) (x) :
    s.set _ (.pwmChEn) x = { s with per := { s.per with pwmChEn := x } } := rfl
@[simp] theorem set_indRun (s : State w R) (x) :
    s.set _ (.indRun) x = { s with per := { s.per with indRun := x } } := rfl
@[simp] theorem set_indIdle (s : State w R) (x) :
    s.set _ (.indIdle) x = { s with per := { s.per with indIdle := x } } := rfl
@[simp] theorem set_dutyU (s : State w R) (x) :
    s.set _ (.dutyU) x = { s with duty := { s.duty with u := x } } := rfl
@[simp] theorem set_dutyV (s : State w R) (x) :
    s.set _ (.dutyV) x = { s with duty := { s.duty with v := x } } := rfl
@[simp] theorem set_dutyW (s : State w R) (x) :
    s.set _ (.dutyW) x = { s with duty := { s.duty with w := x } } := rfl
@[simp] theorem set_faultClr (s : State w R) (x) :
    s.set _ (.faultClr) x = { s with faultClr := x } := rfl

/-! ### Temporaries -/

@[simp] theorem record_nil (s : State w R) (h : s.frames = []) (out : Temps w R → Temps w R) :
    s.record out = s := by
  unfold State.record
  rw [h]

@[simp] theorem record_id (s : State w R) : s.record id = s := by
  unfold State.record
  cases h : s.frames with
  | nil => rfl
  | cons f fs => cases s; cases f; simp_all

/-- Recording results changes the frames alone. -/
theorem record_eq (s : State w R) (out : Temps w R → Temps w R) :
    s.record out = { s with frames := (s.record out).frames } := by
  unfold State.record
  cases s.frames <;> rfl

section
variable (s : State w R) (out : Temps w R → Temps w R)
@[simp] theorem record_filt : (s.record out).filt = s.filt := by rw [record_eq]
@[simp] theorem record_cal : (s.record out).cal = s.cal := by rw [record_eq]
@[simp] theorem record_pos : (s.record out).pos = s.pos := by rw [record_eq]
@[simp] theorem record_ctl : (s.record out).ctl = s.ctl := by rw [record_eq]
@[simp] theorem record_loops : (s.record out).loops = s.loops := by rw [record_eq]
@[simp] theorem record_seq : (s.record out).seq = s.seq := by rw [record_eq]
@[simp] theorem record_per : (s.record out).per = s.per := by rw [record_eq]
@[simp] theorem record_duty : (s.record out).duty = s.duty := by rw [record_eq]
@[simp] theorem record_faultClr : (s.record out).faultClr = s.faultClr := by rw [record_eq]
@[simp] theorem record_preempt : (s.record out).preempt = s.preempt := by rw [record_eq]
@[simp] theorem record_prio : (s.record out).prio = s.prio := by rw [record_eq]
@[simp] theorem record_ports : (s.record out).ports = s.ports := by rw [record_eq]
@[simp] theorem record_script : (s.record out).script = s.script := by rw [record_eq]
end

theorem record_temps [AddCommGroup R] (s : State w R) (out : Temps w R → Temps w R) (h : s.frames ≠ []) :
    (s.record out).temps = out s.temps := by
  unfold State.record State.temps
  cases hf : s.frames with
  | nil => exact absurd hf h
  | cons f fs => rfl

/-- The operation in progress ends the same whatever results it has recorded. -/
@[simp] theorem record_leave (s : State w R) (out : Temps w R → Temps w R) :
    leaveEvent (s.record out) = leaveEvent s := by
  unfold State.record leaveEvent
  cases hf : s.frames <;> simp [hf]

/-! ### What a write leaves alone -/

theorem set_preempt (s : State w R) {κ : Kind} (r : Reg κ) (x : κ.type w R) :
    (s.set κ r x).preempt = s.preempt := by
  cases r <;> first | rfl | (rename_i c; cases c <;> rfl)

theorem set_prio (s : State w R) {κ : Kind} (r : Reg κ) (x : κ.type w R) :
    (s.set κ r x).prio = s.prio := by
  cases r <;> first | rfl | (rename_i c; cases c <;> rfl)

theorem set_frames (s : State w R) {κ : Kind} (r : Reg κ) (x : κ.type w R) :
    (s.set κ r x).frames = s.frames := by
  cases r <;> first | rfl | (rename_i c; cases c <;> rfl)

theorem set_ports (s : State w R) {κ : Kind} (r : Reg κ) (x : κ.type w R) :
    (s.set κ r x).ports = s.ports := by
  cases r <;> first | rfl | (rename_i c; cases c <;> rfl)

theorem set_script (s : State w R) {κ : Kind} (r : Reg κ) (x : κ.type w R) :
    (s.set κ r x).script = s.script := by
  cases r <;> first | rfl | (rename_i c; cases c <;> rfl)

/-- A write leaves the temporaries of the operation in progress alone: they are no registers (R42). -/
theorem set_temps [AddCommGroup R] (s : State w R) {κ : Kind} (r : Reg κ) (x : κ.type w R) :
    (s.set κ r x).temps = s.temps := by
  unfold State.temps
  rw [set_frames]

/-- Reading a register after writing it gives the value written. -/
theorem get_set_same (s : State w R) {κ : Kind} (r : Reg κ) (x : κ.type w R) :
    (s.set κ r x).get κ r = x := by
  cases r <;> first | rfl | (rename_i c; cases c <;> rfl)

/-- Writing back the value a register holds changes nothing. -/
theorem set_get (s : State w R) {κ : Kind} (r : Reg κ) : s.set κ r (s.get κ r) = s := by
  cases r <;> first | rfl | (rename_i c; cases c <;> rfl)

end Sys2Proof.Laws
end

