-- ==== Sys2Proof/Laws/Programs.lean ====
section
/-! SUPPORT. Running programs of register accesses: the equations of `Prog.run`, what no program can
change, and that a program run access by access, with nothing in between, does what it does as a
whole (R55 and R56 agree where nothing preempts). -/

namespace Sys2Proof.Laws

open Sys2Proof Sys2Proof.Machine

variable {w : Widths} {R : Type}

@[simp] theorem run_done (s : State w R) (out : Temps w R → Temps w R) : (Prog.done out).run s = s := rfl

@[simp] theorem run_stop (s : State w R) : (Prog.stop : Prog w R).run s = s := rfl

@[simp] theorem run_read (s : State w R) {κ : Kind} (r : Reg κ) (k : κ.type w R → Prog w R) :
    (Prog.read r k).run s = (k (s.get κ r)).run s := rfl

@[simp] theorem run_write (s : State w R) {κ : Kind} (r : Reg κ) (x : κ.type w R) (k : Prog w R) :
    (Prog.write r x k).run s = k.run (s.set κ r x) := rfl

@[simp] theorem out_done (s : State w R) (out : Temps w R → Temps w R) : (Prog.done out).out s = out := rfl

@[simp] theorem out_read (s : State w R) {κ : Kind} (r : Reg κ) (k : κ.type w R → Prog w R) :
    (Prog.read r k).out s = (k (s.get κ r)).out s := rfl

@[simp] theorem out_write (s : State w R) {κ : Kind} (r : Reg κ) (x : κ.type w R) (k : Prog w R) :
    (Prog.write r x k).out s = k.out (s.set κ r x) := rfl

@[simp] theorem run_ite (b : Prop) [Decidable b] (p q : Prog w R) (s : State w R) :
    (if b then p else q).run s = if b then p.run s else q.run s := by split <;> rfl

theorem onlyIf_true (f : Prog w R → Prog w R) (k : Prog w R) : Prog.onlyIf true f k = f k := rfl

theorem onlyIf_false (f : Prog w R → Prog w R) (k : Prog w R) : Prog.onlyIf false f k = k := rfl

theorem run_onlyIf (b : Bool) (f : Prog w R → Prog w R) (k : Prog w R) (s : State w R) :
    (Prog.onlyIf b f k).run s = if b = true then (f k).run s else k.run s := by
  cases b <;> rfl

/-! ### What no program changes -/

@[simp] theorem run_preempt (p : Prog w R) : ∀ s : State w R, (p.run s).preempt = s.preempt := by
  induction p with
  | done out => exact fun _ => rfl
  | read r k ih => exact fun s => ih (s.get _ r) s
  | write r x k ih => exact fun s => (ih _).trans (set_preempt s r x)

@[simp] theorem run_prio (p : Prog w R) : ∀ s : State w R, (p.run s).prio = s.prio := by
  induction p with
  | done out => exact fun _ => rfl
  | read r k ih => exact fun s => ih (s.get _ r) s
  | write r x k ih => exact fun s => (ih _).trans (set_prio s r x)

@[simp] theorem run_frames (p : Prog w R) : ∀ s : State w R, (p.run s).frames = s.frames := by
  induction p with
  | done out => exact fun _ => rfl
  | read r k ih => exact fun s => ih (s.get _ r) s
  | write r x k ih => exact fun s => (ih _).trans (set_frames s r x)

@[simp] theorem run_ports (p : Prog w R) : ∀ s : State w R, (p.run s).ports = s.ports := by
  induction p with
  | done out => exact fun _ => rfl
  | read r k ih => exact fun s => ih (s.get _ r) s
  | write r x k ih => exact fun s => (ih _).trans (set_ports s r x)

@[simp] theorem run_script (p : Prog w R) : ∀ s : State w R, (p.run s).script = s.script := by
  induction p with
  | done out => exact fun _ => rfl
  | read r k ih => exact fun s => ih (s.get _ r) s
  | write r x k ih => exact fun s => (ih _).trans (set_script s r x)

/-! ### Frames: programs do not depend on the frames, the ports or the schedule of the state -/

theorem get_withFrames (s : State w R) (fs : List (Frame w R)) {κ : Kind} (r : Reg κ) :
    ({ s with frames := fs } : State w R).get κ r = s.get κ r := by
  cases r <;> rfl

theorem set_withFrames (s : State w R) (fs : List (Frame w R)) {κ : Kind} (r : Reg κ) (x : κ.type w R) :
    ({ s with frames := fs } : State w R).set κ r x = { s.set κ r x with frames := fs } := by
  cases r <;> first | rfl | (rename_i c; cases c <;> rfl)

theorem run_withFrames (p : Prog w R) (fs : List (Frame w R)) :
    ∀ s : State w R, p.run { s with frames := fs } = { p.run s with frames := fs } := by
  induction p with
  | done out => exact fun _ => rfl
  | read r k ih =>
    intro s
    rw [run_read, run_read, get_withFrames]
    exact ih _ s
  | write r x k ih =>
    intro s
    rw [run_write, run_write, set_withFrames]
    exact ih _

/-! ### Logs -/

theorem toKind_ofKind (κ : Kind) (x : κ.type w R) : Val.toKind κ (Val.ofKind κ x) = some x := by
  cases κ <;> rfl

theorem resume_nil (p : Prog w R) : p.resume [] = some p := by cases p <;> rfl

/-- A log that fits a program still fits it when the next access is appended. -/
theorem resume_append (v : Val w R) (r' : Prog w R) (s s' : State w R) :
    ∀ (vs : List (Val w R)) (p q : Prog w R), p.resume vs = some q → q.access s = some (s', v, r') →
      p.resume (vs ++ [v]) = some r' := by
  intro vs
  induction vs with
  | nil =>
    intro p q h ha
    rw [resume_nil] at h
    cases h
    cases p with
    | done out => cases ha
    | read r k =>
      simp only [Prog.access, Option.some.injEq, Prod.mk.injEq] at ha
      obtain ⟨-, rfl, rfl⟩ := ha
      simp only [List.nil_append, Prog.resume, toKind_ofKind, resume_nil]
    | write r x k =>
      simp only [Prog.access, Option.some.injEq, Prod.mk.injEq] at ha
      obtain ⟨-, rfl, rfl⟩ := ha
      simp only [List.nil_append, Prog.resume, resume_nil]
  | cons a vs ih =>
    intro p q h ha
    cases p with
    | done out => cases h
    | @read κ r k =>
      simp only [Prog.resume, List.cons_append] at h ⊢
      cases hk : Val.toKind κ a with
      | none => rw [hk] at h; cases h
      | some x => rw [hk] at h; exact ih _ _ h ha
    | write r x k =>
      cases a with
      | wrote => exact ih _ _ h ha
      | _ => cases h

/-- What is left after an access, run whole, gives what the whole program gives. -/
theorem access_run {p r' : Prog w R} {s s' : State w R} {v : Val w R} (h : p.access s = some (s', v, r')) :
    r'.run s' = p.run s := by
  cases p with
  | done out => cases h
  | read r k =>
    simp only [Prog.access, Option.some.injEq, Prod.mk.injEq] at h
    obtain ⟨rfl, -, rfl⟩ := h
    rfl
  | write r x k =>
    simp only [Prog.access, Option.some.injEq, Prod.mk.injEq] at h
    obtain ⟨rfl, -, rfl⟩ := h
    rfl

/-- An access makes a program one access shorter. -/
theorem access_length {p r' : Prog w R} {s s' : State w R} {v : Val w R} (h : p.access s = some (s', v, r')) :
    p.length s = r'.length s' + 1 := by
  cases p with
  | done out => cases h
  | read r k =>
    simp only [Prog.access, Option.some.injEq, Prod.mk.injEq] at h
    obtain ⟨rfl, -, rfl⟩ := h
    rfl
  | write r x k =>
    simp only [Prog.access, Option.some.injEq, Prod.mk.injEq] at h
    obtain ⟨rfl, -, rfl⟩ := h
    rfl

end Sys2Proof.Laws
end

