-- ==== Sys2Proof/Laws/Effects.lean ====
section
/-! SUPPORT. What each rule does, said once: running the program of a rule, with anything following it,
is what follows run from the state after the rule (the closed forms of Safety.lean). -/

namespace Sys2Proof.Laws

open Sys2Proof Sys2Proof.Machine Sys2Proof.Safety

variable {S R : Type} [Field S] [AddCommGroup R] [Module S R]

/-! ### The filter and the calibration -/

theorem run_filt (c : Config S R) (ph : Phase) (raw : Count c.widths) (k : Prog c.widths R) (s : State c.widths R) :
    (filt c ph raw k).run s = k.run (filtState c ph raw s) := by
  cases ph <;> simp [filt, filtState, filteredPhase, firstDelta]

theorem run_decimatePhase {w : Widths} (ph : Phase) (k : Prog w R) (s : State w R) :
    (decimatePhase ph k).run s =
      k.run { s with filt := s.filt.withPhase ph (decimatedPhase (s.filt.ofPhase ph)) } := by
  cases ph <;> simp [decimatePhase, decimatedPhase]

theorem run_decimate {w : Widths} (k : Prog w R) (s : State w R) : (decimate k).run s = k.run (decimateState s) := by
  simp [decimate, run_decimatePhase, decimateState]

theorem run_sampleBody (c : Config S R) (k : Prog c.widths R) (s : State c.widths R) :
    (sampleBody c s.ports k).run s = k.run (sampleState c s) := by
  by_cases h : (s.filt.decCnt + 1).toNat = c.decim <;>
    simp only [sampleBody, run_filt, run_read, run_write, run_onlyIf, filtState, ofPhase_u, ofPhase_v,
      withPhase_u, withPhase_v, get_decCnt, set_decCnt, decimationDue, decide_eq_true_eq, portCurrent,
      sampleState, h, if_true, if_false, run_decimate]

theorem weightedAverage_eq (c : Config S R) (f : PhaseFilter c.widths) :
    weightedAverage c f.out0 f.out1 f.out2 f.out3 = averageOf c f := by
  simp only [weightedAverage, averageOf, Config.avgWSum]
  push_cast
  rfl

theorem run_curAcq (c : Config S R) (k : R → R → R → Prog c.widths R) (s : State c.widths R) :
    (curAcq c k).run s = (k (currentU c s) (currentV c s) (currentW c s)).run s := by
  simp only [curAcq, run_read, get_out0, get_out1, get_out2, get_out3, get_offset_u, get_offset_v,
    ofPhase_u, ofPhase_v, phaseCurrent, thirdCurrent, weightedAverage_eq, currentU, currentV, currentW]

theorem out_curAcq (c : Config S R) (k : R → R → R → Prog c.widths R) (s : State c.widths R) :
    (curAcq c k).out s = (k (currentU c s) (currentV c s) (currentW c s)).out s := by
  simp only [curAcq, out_read, get_out0, get_out1, get_out2, get_out3, get_offset_u, get_offset_v,
    ofPhase_u, ofPhase_v, phaseCurrent, thirdCurrent, weightedAverage_eq, currentU, currentV, currentW]

theorem run_settlePoll (c : Config S R) (k : Prog c.widths R) (s : State c.widths R) :
    (settlePoll c k).run s = k.run (settleState c s) := by
  by_cases h : c.nSettle ≤ (s.filt.outCnt - s.cal.waitBase).toNat <;>
    simp [settlePoll, settleState, run_onlyIf, settleOver, h, -BitVec.toNat_sub]

theorem calibratedOffset_eq (c : Config S R) (sum : Sum) : calibratedOffset c sum = meanOffset c sum := rfl

theorem run_endCalibration (c : Config S R) (k : Prog c.widths R) (s : State c.widths R) :
    (endCalibration c k).run s =
      k.run { s with
        cal := { s.cal with offsetU := meanOffset c s.cal.sumU, offsetV := meanOffset c s.cal.sumV } } := by
  simp [endCalibration, calibratedOffset_eq]

theorem run_calPoll (c : Config S R) (k : Bool → Prog c.widths R) (s : State c.widths R) :
    (calPoll c k).run s = (k (calDone c s)).run (calState c s) := by
  by_cases h : s.filt.outCnt = s.cal.lastSeen
  · have hn : newSample s.filt.outCnt s.cal.lastSeen = false := decide_eq_false (not_not.2 h)
    have hd : calDone c s = false := by
      rw [calDone, decide_eq_false (not_not.2 h), Bool.false_and]
    simp only [calPoll, run_read, get_outCnt, get_lastSeen, hn, Bool.false_eq_true, if_false, hd, calState,
      if_pos h]
  · have hn : newSample s.filt.outCnt s.cal.lastSeen = true := decide_eq_true h
    by_cases h' : (s.cal.calN + 1).toNat = c.nCal
    · have hc : calibrationOver c (s.cal.calN + 1) = true := decide_eq_true h'
      have hd : calDone c s = true := by
        rw [calDone, decide_eq_true h, decide_eq_true h', Bool.true_and]
      simp only [calPoll, run_read, run_write, get_outCnt, get_lastSeen, hn, if_true, hd, calState,
        if_neg h, if_pos h', set_lastSeen, get_calSum_u, get_calSum_v, set_calSum_u, set_calSum_v, get_out0,
        ofPhase_u, ofPhase_v, get_calN, set_calN, hc, run_endCalibration, extendOutput]
    · have hc : calibrationOver c (s.cal.calN + 1) = false := decide_eq_false h'
      have hd : calDone c s = false := by
        rw [calDone, decide_eq_true h, decide_eq_false h', Bool.true_and]
      simp only [calPoll, run_read, run_write, get_outCnt, get_lastSeen, hn, if_true, hd, calState,
        if_neg h, if_neg h', set_lastSeen, get_calSum_u, get_calSum_v, set_calSum_u, set_calSum_v, get_out0,
        ofPhase_u, ofPhase_v, get_calN, set_calN, hc, Bool.false_eq_true, if_false, extendOutput]

theorem out_calPoll (c : Config S R) (k : Bool → Prog c.widths R) (s : State c.widths R) :
    (calPoll c k).out s = (k (calDone c s)).out (calState c s) := by
  by_cases h : s.filt.outCnt = s.cal.lastSeen
  · simp [calPoll, newSample, calDone, calState, h]
  · by_cases h' : (s.cal.calN + 1).toNat = c.nCal <;>
      simp [calPoll, newSample, calDone, calState, h, h', calibrationOver, endCalibration,
        calibratedOffset_eq, extendOutput, -BitVec.toNat_add, -BitVec.ofNat_eq_ofNat]

/-! ### The estimator -/

theorem nextComp_eq (c : Config S R) (prev raw : Pos) (comp : Nat) :
    nextComp c prev raw comp = compAfter c prev raw comp := by
  simp only [nextComp, compAfter, wrappedUp, wrappedDown, Bool.and_eq_true, decide_eq_true_eq]

theorem run_posUpd (c : Config S R) (k : Prog c.widths R) (s : State c.widths R) :
    (posUpd c s.ports k).run s = k.run (posUpdState c s) := by
  simp [posUpd, posUpdState, nextComp_eq, compensatedCount, angleOfCount, portPosition]

theorem resyncDue_iff (a b : RunStatus) : resyncDue a b = true ↔ a = .stop ∧ b = .run := by
  cases a <;> cases b <;> simp [resyncDue]

theorem run_velEst (c : Config S R) (k : Prog c.widths R) (s : State c.widths R) :
    (velEst c s.ports k).run s = k.run (velEstState c s) := by
  by_cases h : s.ctl.runStatusPrev = .stop ∧ s.ctl.runStatus = .run
  · have h' : resyncDue s.ctl.runStatusPrev s.ctl.runStatus = true := (resyncDue_iff _ _).2 h
    simp only [velEst, run_read, run_write, run_onlyIf, get_runStatusPrev, get_runStatus, h', if_true,
      set_velPrevRaw, get_velPrevRaw, set_velEst, set_runStatusPrev, portPosition, velocityOf,
      signedMovement, velEstState, velocityAfter, baselineOf, if_pos h]
  · have h' : resyncDue s.ctl.runStatusPrev s.ctl.runStatus = false := by
      rw [Bool.eq_false_iff]; exact fun e => h ((resyncDue_iff _ _).1 e)
    simp only [velEst, run_read, run_write, run_onlyIf, get_runStatusPrev, get_runStatus, h',
      Bool.false_eq_true, if_false,
      set_velPrevRaw, get_velPrevRaw, set_velEst, set_runStatusPrev, portPosition, velocityOf,
      signedMovement, velEstState, velocityAfter, baselineOf, if_neg h]

/-! ### The duties -/

theorem run_dutyGen (c : Config S R) (vD vQ : R) (k : Prog c.widths R) (s : State c.widths R) :
    (dutyGen c vD vQ k).run s = k.run (dutyState c vD vQ s) := by
  simp [dutyGen, dutyState, dutyTriple, statorVoltage, roundPair]

/-! ### The vector control state machine -/

theorem sign_eq (d : Direction) : d.sign = signOf d := by cases d <;> rfl

theorem piZero_eq (c : Config S R) (s : PIState R) : piZero c s = zeroedPI c := rfl

theorem run_currentPIs (c : Config S R) (iD iQ : R) (k : R → R → Prog c.widths R) (s : State c.widths R) :
    (currentPIs c iD iQ k).run s =
      (k (c.lib.piControl c.gainsD s.loops.d iD s.ctl.idRef).1
          (c.lib.piControl c.gainsQ s.loops.q iQ s.ctl.iqRef).1).run
        { s with
          loops :=
            { s.loops with
              d := (c.lib.piControl c.gainsD s.loops.d iD s.ctl.idRef).2
              q := (c.lib.piControl c.gainsQ s.loops.q iQ s.ctl.iqRef).2 } } := by
  simp [currentPIs]

theorem run_curLoop (c : Config S R) (iD iQ : R) (k : R → R → Prog c.widths R) (s : State c.widths R) :
    (curLoop c iD iQ k).run s =
      (k (piDCall c iD s).1 (piQCall c iQ s).1).run (curLoopState c iD iQ s) := by
  cases hm : s.ctl.mode with
  | openLoop =>
    simp [curLoop, hm, run_currentPIs, curLoopState, piDCall, piQCall, curLoopRefs, openLoopIq, sign_eq]
  | closedLoop =>
    cases he : s.ctl.changeMode <;>
      simp [curLoop, hm, he, run_currentPIs, curLoopState, piDCall, piQCall, curLoopRefs, piZero_eq]

theorem out_curLoop (c : Config S R) (iD iQ : R) (k : R → R → Prog c.widths R) (s : State c.widths R) :
    (curLoop c iD iQ k).out s =
      (k (piDCall c iD s).1 (piQCall c iQ s).1).out (curLoopState c iD iQ s) := by
  cases hm : s.ctl.mode with
  | openLoop =>
    simp [curLoop, hm, currentPIs, curLoopState, piDCall, piQCall, curLoopRefs, openLoopIq, sign_eq]
  | closedLoop =>
    cases he : s.ctl.changeMode <;>
      simp [curLoop, hm, he, currentPIs, curLoopState, piDCall, piQCall, curLoopRefs, piZero_eq]

theorem run_handover {w : Widths} (k : Prog w R) (s : State w R) : (handover k).run s = k.run (handoverState s) := by
  simp [handover, handoverState]

theorem run_align (c : Config S R) (k : Prog c.widths R) (s : State c.widths R) :
    (align c k).run s = k.run (alignState c s) := by
  cases ha : s.ctl.alignActive
  · simp [align, alignState, ha]
  · by_cases h1 : s.ctl.lockCnt.toNat < c.lockCount
    · simp [align, alignState, ha, lockPending, h1, lockAngle]
    · by_cases h2 : s.ctl.rotCnt.toNat < c.lockCount <;>
        simp [align, alignState, ha, lockPending, h1, h2, rotationAngle, sign_eq, run_handover]

theorem run_angUpd (c : Config S R) (k : Prog c.widths R) (s : State c.widths R) :
    (angUpd c s.ports k).run s = k.run (angUpdState c s) := by
  cases hm : s.ctl.mode <;> simp [angUpd, angUpdState, hm, run_align, run_posUpd]

theorem curLoopState_ports (c : Config S R) (iD iQ : R) (s : State c.widths R) :
    (curLoopState c iD iQ s).ports = s.ports := by
  cases hm : s.ctl.mode <;> cases he : s.ctl.changeMode <;> simp [curLoopState, curLoopRefs, hm, he]

theorem run_controlBody (c : Config S R) (k : Prog c.widths R) (s : State c.widths R) :
    (controlBody c s.ports k).run s = k.run (controlState c s) := by
  have hp := curLoopState_ports c (rotorCurrents c s).1 (rotorCurrents c s).2 s
  simp only [controlBody, run_curAcq, run_read, run_curLoop, get_angle]
  change (angUpd c s.ports _).run (curLoopState c (rotorCurrents c s).1 (rotorCurrents c s).2 s) = _
  rw [← hp, run_angUpd, run_dutyGen, run_read, run_write, get_syncCnt, set_syncCnt]
  rfl

/-! ### The scheduler -/

theorem run_gate (c : Config S R) (k : Bool → Prog c.widths R) (s : State c.widths R) :
    (gate c k).run s =
      if c.slowDiv ≤ s.ctl.syncCnt.toNat then (k true).run (gatedState s) else (k false).run s := by
  by_cases h : c.slowDiv ≤ s.ctl.syncCnt.toNat <;> simp [gate, gateDue, h, gatedState]

theorem run_initOp {w : Widths} (k : Prog w R) (s : State w R) : (initOp k).run s = k.run (initState s) := by
  simp [initOp, initState]

theorem run_cpReset (c : Config S R) (k : Prog c.widths R) (s : State c.widths R) :
    (cpReset c k).run s = k.run (cpResetState c s) := by
  simp [cpReset, cpResetState, resetControl]

theorem run_mstartBegin (c : Config S R) (k : Prog c.widths R) (s : State c.widths R) :
    (mstartBegin c k).run s = k.run (mstartBeginState c s) := by
  simp [mstartBegin, run_cpReset, cpResetState, mstartBeginState, resetControl, piZero_eq]

theorem run_mstartEnd {w : Widths} (k : Prog w R) (s : State w R) : (mstartEnd k).run s = k.run (mstartEndState s) := by
  simp [mstartEnd, mstartEndState]

theorem run_mstop (c : Config S R) (k : Prog c.widths R) (s : State c.widths R) :
    (mstop c k).run s = k.run (mstopState c s) := by
  simp [mstop, run_cpReset, cpResetState, mstopState, resetControl, piZero_eq]

theorem run_ramp (c : Config S R) (k : Prog c.widths R) (s : State c.widths R) :
    (ramp c k).run s = k.run { s with ctl := { s.ctl with velRamped := rampedAfter c s } } := by
  by_cases h1 : c.real.lt s.ctl.velRamped s.ctl.velTarget = true
  · simp [ramp, rampedAfter, h1, rampUp]
  · by_cases h2 : c.real.lt s.ctl.velTarget s.ctl.velRamped = true <;> simp [ramp, rampedAfter, h1, h2, rampDown]

theorem run_slowLoop (c : Config S R) (k : Prog c.widths R) (s : State c.widths R) :
    (slowLoop c s.ports k).run s = k.run (slowLoopState c s) := by
  have hp : ({ s with ctl := { s.ctl with velRamped := rampedAfter c s } } : State c.widths R).ports = s.ports := rfl
  simp only [slowLoop, run_ramp]
  rw [← hp, run_velEst]
  simp [velEstState, slowLoopState, velocityPI, velocityReference, sign_eq, velocityAfter, baselineOf]

theorem run_initStep {w : Widths} (k : Prog w R) (s : State w R) : (initStep k).run s = k.run (initStepState s) := by
  simp [initStep, run_initOp, initStepState, initState]

theorem flip_eq (d : Direction) : d.flip = flipped d := by cases d <;> rfl

theorem run_waitStartStep {w : Widths} (k : Prog w R) (s : State w R) :
    (waitStartStep s.ports k).run s = k.run (waitStartState s) := by
  cases h1 : s.ports.btn.dir <;> cases h2 : s.ports.btn.start <;>
    simp only [waitStartStep, waitStartState, run_onlyIf, h1, h2, flip_eq, Bool.false_eq_true, if_false,
      if_true, run_read, run_write, get_direction, set_direction, set_appState]

theorem run_startStep (c : Config S R) (k : Prog c.widths R) (s : State c.widths R) :
    (startStep c k).run s = k.run (startStepState c s) := by
  cases hp : s.seq.fgPhase with
  | idle => simp [startStep, startStepState, hp, run_mstartBegin]
  | settle => simp [startStep, startStepState, hp, run_settlePoll]
  | cal =>
    cases hd : calDone c s <;>
      simp [startStep, startStepState, hp, run_calPoll, run_onlyIf, hd, run_mstartEnd, mstartEndState]

theorem run_runningButtons (c : Config S R) (next : AppState) (k : Prog c.widths R) (s : State c.widths R) :
    (runningButtons c s.ports.btn next k).run s = k.run (buttonsState c next s) := by
  rcases hb : s.ports.btn with ⟨b1, b2, b3, b4, b5⟩
  cases b1 <;> cases b2 <;> cases b3 <;> cases b4 <;>
    simp [runningButtons, buttonsState, commandAfter, run_onlyIf, hb, incremented, decremented]

theorem run_runningStep (c : Config S R) (k : Prog c.widths R) (s : State c.widths R) :
    (runningStep c s.ports k).run s = k.run (runningState c s) := by
  by_cases h : c.slowDiv ≤ s.ctl.syncCnt.toNat
  · have hs : ∀ k' : Prog c.widths R, (slowLoop c s.ports k').run (gatedState s) =
        k'.run (slowLoopState c (gatedState s)) := fun k' => run_slowLoop c k' (gatedState s)
    have hb : ∀ (next : AppState) (t : State c.widths R), t.ports = s.ports →
        (runningButtons c s.ports.btn next k).run t = k.run (buttonsState c next t) :=
      fun next t ht => ht ▸ run_runningButtons c next k t
    have hn : (slowLoopState c (gatedState s)).seq.inactCnt = s.seq.inactCnt := rfl
    have ht : ∀ b, inactivityStop c (s.seq.inactCnt + 1) = b →
        (if c.inactStop ≤ (s.seq.inactCnt + 1).toNat then AppState.stopDecrease else .running) =
          if b = true then .stopDecrease else .running := by
      rintro _ rfl; simp only [inactivityStop, decide_eq_true_eq]
    by_cases hw : c.inactWarn ≤ (s.seq.inactCnt + 1).toNat
    · have hi : inactivityWarn c (s.seq.inactCnt + 1) = true := decide_eq_true hw
      simp only [runningStep, run_gate, h, if_true, runningState, hs, run_read, run_write, run_onlyIf,
        get_inactCnt, set_inactCnt, set_indIdle, hn, hi, ht _ rfl]
      refine (hb _ _ ?_).trans ?_
      · rfl
      simp only [inactivityState, hn, if_pos hw]
      rfl
    · have hi : inactivityWarn c (s.seq.inactCnt + 1) = false := decide_eq_false hw
      simp only [runningStep, run_gate, h, if_true, runningState, hs, run_read, run_write, run_onlyIf,
        get_inactCnt, set_inactCnt, hn, hi, ht _ rfl, Bool.false_eq_true, if_false]
      refine (hb _ _ ?_).trans ?_
      · rfl
      simp only [inactivityState, hn, if_neg hw]
      rfl
  · simp only [runningStep, run_gate, h, if_false, Bool.false_eq_true, runningState, run_runningButtons]

theorem slowEnough_eq (c : Config S R) (d : Direction) (v : R) :
    slowEnough c d v = c.real.le ((signOf d : S) • v) c.stopSpeedTh := by
  rw [slowEnough, directionalVelocity, sign_eq]

theorem withinMargin_eq (c : Config S R) (d : Direction) (v t : R) :
    withinMargin c d v t = c.real.le (c.real.abs ((signOf d : S) • v - t)) c.stopMargin := by
  rw [withinMargin, directionalVelocity, sign_eq]

theorem run_stopDecreaseStep (c : Config S R) (k : Prog c.widths R) (s : State c.widths R) :
    (stopDecreaseStep c s.ports k).run s = k.run (stopDecreaseState c s) := by
  have hs : ∀ k' : Prog c.widths R, (slowLoop c s.ports k').run (gatedState s) =
      k'.run (slowLoopState c (gatedState s)) := fun k' => run_slowLoop c k' (gatedState s)
  by_cases h : c.real.le ((signOf s.ctl.direction : S) • s.pos.velEst) c.stopSpeedTh = true
  · simp only [stopDecreaseStep, run_read, get_direction, get_velEst, slowEnough_eq, h, if_true,
      stopDecreaseState, run_write, set_appState]
  · rw [Bool.not_eq_true] at h
    by_cases hg : c.slowDiv ≤ s.ctl.syncCnt.toNat
    · simp only [stopDecreaseStep, run_read, get_direction, get_velEst, slowEnough_eq, h, Bool.false_eq_true,
        if_false, stopDecreaseState, run_gate, if_pos hg, if_true, hs, run_onlyIf, get_velTarget, withinMargin_eq]
      split <;> rfl
    · simp only [stopDecreaseStep, run_read, get_direction, get_velEst, slowEnough_eq, h, Bool.false_eq_true,
        if_false, stopDecreaseState, run_gate, if_neg hg]

theorem run_stoppedStep (c : Config S R) (k : Prog c.widths R) (s : State c.widths R) :
    (stoppedStep c k).run s = k.run (stoppedState c s) := by
  simp only [stoppedStep, stoppedState, run_write, run_mstop, set_indRun, set_indIdle, set_appState]

theorem run_fgBody (c : Config S R) (k : Prog c.widths R) (s : State c.widths R) :
    (fgBody c s.ports k).run s = k.run (fgState c s) := by
  cases h : s.seq.app <;>
    simp only [fgBody, run_read, get_appState, h, fgState, run_initStep, run_waitStartStep, run_startStep,
      run_runningStep, run_stopDecreaseStep, run_stoppedStep]

end Sys2Proof.Laws
end

