-- ==== Sys2Proof/Laws/Environment.lean ====
section
/-! SUPPORT. What the environment's operations leave alone, and when the pulse of `fault_clr` ends. -/

namespace Sys2Proof.Laws

open Sys2Proof Sys2Proof.Machine

variable {w : Widths} {R : Type}

/-! ### The pulse of `fault_clr` -/

/-- `endPulse` changes the output and nothing else. -/
theorem endPulse_eq (s : State w R) :
    endPulse s = { s with faultClr := underWay s && s.faultClr } := by
  unfold endPulse
  cases underWay s <;> rfl

@[simp] theorem endPulse_preempt (s : State w R) : (endPulse s).preempt = s.preempt := by rw [endPulse_eq]
@[simp] theorem endPulse_prio (s : State w R) : (endPulse s).prio = s.prio := by rw [endPulse_eq]
@[simp] theorem endPulse_frames (s : State w R) : (endPulse s).frames = s.frames := by rw [endPulse_eq]
@[simp] theorem endPulse_ports (s : State w R) : (endPulse s).ports = s.ports := by rw [endPulse_eq]
@[simp] theorem endPulse_per (s : State w R) : (endPulse s).per = s.per := by rw [endPulse_eq]

/-- With no event under way the pulse ends. -/
theorem endPulse_idle (s : State w R) (h : underWay s = false) :
    endPulse s = { s with faultClr := false } := by
  rw [endPulse_eq, h, Bool.false_and]

/-- With an event under way nothing happens. -/
theorem endPulse_underWay (s : State w R) (h : underWay s = true) : endPulse s = s := by
  rw [endPulse_eq, h, Bool.true_and]

theorem underWay_nil (s : State w R) (h : s.frames = []) : underWay s = false := by
  unfold underWay
  rw [h]
  rfl

/-! ### Presenting -/

/-- Presenting changes the ports and the schedule alone. -/
theorem present_eq (s : State w R) :
    present s = { s with ports := (present s).ports, script := (present s).script } := rfl

theorem presentUnlessWaiting_waiting (s : State w R) (h : s.ports.stb = true) :
    presentUnlessWaiting s = s := if_pos h

theorem presentUnlessWaiting_free (s : State w R) (h : s.ports.stb = false) :
    presentUnlessWaiting s = present s := by
  simp [presentUnlessWaiting, h]

end Sys2Proof.Laws
end

