-- ==== Sys2Proof/Laws/PerInstr.lean ====
section
/-! SUPPORT. Laws about an instruction as syntax, one lemma per constructor of `Instr`. -/

namespace Sys2Proof.Laws

/-- The decoder reads an operation back from its word, and from the byte that holds its word (R62, R63). -/
def RoundTrip.Statement (i : Instr) : Prop :=
  decode (encode i) = .ok i ∧ decodeTableWord EV_W (encode i).toNat = some i

theorem RoundTrip.idle : RoundTrip.Statement .idle := ⟨rfl, rfl⟩

theorem RoundTrip.sample : RoundTrip.Statement .sample := ⟨rfl, rfl⟩

theorem RoundTrip.control : RoundTrip.Statement .control := ⟨rfl, rfl⟩

theorem RoundTrip.fg : RoundTrip.Statement .fg := ⟨rfl, rfl⟩

theorem RoundTrip.filt : RoundTrip.Statement .filt := ⟨rfl, rfl⟩

theorem RoundTrip.decimate : RoundTrip.Statement .decimate := ⟨rfl, rfl⟩

theorem RoundTrip.curacq : RoundTrip.Statement .curacq := ⟨rfl, rfl⟩

theorem RoundTrip.curloop : RoundTrip.Statement .curloop := ⟨rfl, rfl⟩

theorem RoundTrip.angupd : RoundTrip.Statement .angupd := ⟨rfl, rfl⟩

theorem RoundTrip.align : RoundTrip.Statement .align := ⟨rfl, rfl⟩

theorem RoundTrip.posupd : RoundTrip.Statement .posupd := ⟨rfl, rfl⟩

theorem RoundTrip.dutygen : RoundTrip.Statement .dutygen := ⟨rfl, rfl⟩

theorem RoundTrip.init : RoundTrip.Statement .init := ⟨rfl, rfl⟩

theorem RoundTrip.cpreset : RoundTrip.Statement .cpreset := ⟨rfl, rfl⟩

theorem RoundTrip.mstartBegin : RoundTrip.Statement .mstartBegin := ⟨rfl, rfl⟩

theorem RoundTrip.settlepoll : RoundTrip.Statement .settlepoll := ⟨rfl, rfl⟩

theorem RoundTrip.calpoll : RoundTrip.Statement .calpoll := ⟨rfl, rfl⟩

theorem RoundTrip.mstartEnd : RoundTrip.Statement .mstartEnd := ⟨rfl, rfl⟩

theorem RoundTrip.mstop : RoundTrip.Statement .mstop := ⟨rfl, rfl⟩

theorem RoundTrip.slowloop : RoundTrip.Statement .slowloop := ⟨rfl, rfl⟩

end Sys2Proof.Laws
end

