-- ==== Sys2Proof/Laws/Reals.lean ====
section
/-! SUPPORT. The rules do not depend on how real numbers are represented (00_scope.md rule R4): over any
sound representation, the machine's numbers among them, an operation computes what it computes over the
real numbers themselves (`performWith_value`). -/

namespace Sys2Proof.Laws

open Sys2Proof Sys2Proof.Machine

variable {w : Widths} {S R : Type} [Field S] [AddCommGroup R] [Module S R]

/-! ### The real numbers that a state holds -/

section
variable (value : R → ℝ)

/-- A PI state with the real numbers its numbers stand for. -/
def valuePI (s : PIState R) : PIState ℝ := ⟨value s.integ, s.rest.map value⟩

/-- A gain record with the real numbers its entries stand for. -/
def valueGains (scale : S → ℝ) (g : PIGains S R) : PIGains ℝ ℝ :=
  ⟨scale g.kp, scale g.ki, scale g.kAntiWindup, value g.outMin, value g.outMax⟩

/-- The value of a register, as real numbers where it is one or holds some. -/
def valueKind : (κ : Kind) → κ.type w R → κ.type w ℝ
  | .count, x => x
  | .acc, x => x
  | .ctr, x => x
  | .pos, x => x
  | .sum, x => x
  | .nat, x => x
  | .num, x => value x
  | .bit, x => x
  | .piState, x => valuePI value x
  | .app, x => x
  | .phase, x => x
  | .mode, x => x
  | .dir, x => x
  | .run, x => x

/-- Temporaries, as real numbers. -/
def valueTemps (t : Temps w R) : Temps w ℝ :=
  ⟨t.phase, t.raw, value t.iU, value t.iV, value t.iW, value t.iD, value t.iQ, value t.vD, value t.vQ, t.done⟩

/-- A logged value, as real numbers. -/
def valueVal : Val w R → Val w ℝ
  | .count v => .count v
  | .acc v => .acc v
  | .ctr v => .ctr v
  | .pos v => .pos v
  | .sum v => .sum v
  | .nat v => .nat v
  | .num v => .num (value v)
  | .bit v => .bit v
  | .piState v => .piState (valuePI value v)
  | .app v => .app v
  | .phase v => .phase v
  | .mode v => .mode v
  | .dir v => .dir v
  | .run v => .run v
  | .wrote => .wrote

/-- An operation in progress, as real numbers. -/
def valueFrame (f : Frame w R) : Frame w ℝ :=
  ⟨f.op, f.ports, valueTemps value f.temps, f.log.map (valueVal value)⟩

/-- A state with the real numbers its real-valued registers stand for. -/
def valueState (s : State w R) : State w ℝ where
  filt := s.filt
  cal :=
    { offsetU := value s.cal.offsetU
      offsetV := value s.cal.offsetV
      sumU := s.cal.sumU
      sumV := s.cal.sumV
      calN := s.cal.calN
      waitBase := s.cal.waitBase
      lastSeen := s.cal.lastSeen }
  pos :=
    { prev := s.pos.prev
      comp := s.pos.comp
      count := s.pos.count
      angle := value s.pos.angle
      velPrevRaw := s.pos.velPrevRaw
      velEst := value s.pos.velEst }
  ctl :=
    { mode := s.ctl.mode
      changeMode := s.ctl.changeMode
      alignActive := s.ctl.alignActive
      direction := s.ctl.direction
      lockCnt := s.ctl.lockCnt
      rotCnt := s.ctl.rotCnt
      velCmd := value s.ctl.velCmd
      velTarget := value s.ctl.velTarget
      velRamped := value s.ctl.velRamped
      idRef := value s.ctl.idRef
      iqRef := value s.ctl.iqRef
      syncCnt := s.ctl.syncCnt
      runStatus := s.ctl.runStatus
      runStatusPrev := s.ctl.runStatusPrev
      rampStep := value s.ctl.rampStep }
  loops := ⟨valuePI value s.loops.d, valuePI value s.loops.q, valuePI value s.loops.vel⟩
  seq := s.seq
  per := s.per
  duty := ⟨value s.duty.u, value s.duty.v, value s.duty.w⟩
  faultClr := s.faultClr
  preempt := s.preempt
  prio := s.prio
  frames := s.frames.map (valueFrame value)
  ports := s.ports
  script := s.script

theorem get_value (s : State w R) {κ : Kind} (r : Reg κ) :
    (valueState value s).get κ r = valueKind value κ (s.get κ r) := by
  cases r <;> first | rfl | (rename_i c; cases c <;> rfl)

theorem set_value (s : State w R) {κ : Kind} (r : Reg κ) (x : κ.type w R) :
    valueState value (s.set κ r x) = (valueState value s).set κ r (valueKind value κ x) := by
  cases r <;> first | rfl | (rename_i c; cases c <;> rfl)

/-! ### Programs that do the same accesses -/

/-- Two programs make the same accesses, the second one with the real numbers of the first. -/
inductive SameAccesses : Prog w R → Prog w ℝ → Prop
  | done (out : Temps w R → Temps w R) (out' : Temps w ℝ → Temps w ℝ)
      (h : ∀ t, valueTemps value (out t) = out' (valueTemps value t)) : SameAccesses (.done out) (.done out')
  | read {κ : Kind} (r : Reg κ) (k : κ.type w R → Prog w R) (k' : κ.type w ℝ → Prog w ℝ)
      (h : ∀ x, SameAccesses (k x) (k' (valueKind value κ x))) : SameAccesses (.read r k) (.read r k')
  | write {κ : Kind} (r : Reg κ) (x : κ.type w R) (x' : κ.type w ℝ) (k : Prog w R) (k' : Prog w ℝ)
      (hx : valueKind value κ x = x') (h : SameAccesses k k') : SameAccesses (.write r x k) (.write r x' k')

variable {value}

theorem SameAccesses.run_value {p : Prog w R} {p' : Prog w ℝ} (h : SameAccesses value p p') :
    ∀ s : State w R, valueState value (p.run s) = p'.run (valueState value s) := by
  induction h with
  | done => exact fun _ => rfl
  | read r k k' _ ih => exact fun s => (ih _ s).trans (by rw [← get_value]; rfl)
  | write r x x' k k' hx _ ih => exact fun s => (ih _).trans (by rw [set_value, hx]; rfl)

theorem SameAccesses.out_value {p : Prog w R} {p' : Prog w ℝ} (h : SameAccesses value p p') :
    ∀ (s : State w R) (t : Temps w R),
      valueTemps value (p.out s t) = p'.out (valueState value s) (valueTemps value t) := by
  induction h with
  | done out out' h => exact fun _ => h
  | read r k k' _ ih => exact fun s t => (ih _ s t).trans (by rw [← get_value]; rfl)
  | write r x x' k k' hx _ ih => exact fun s t => (ih _ t).trans (by rw [set_value, hx]; rfl)

end

/-! ### The configuration over the real numbers -/

/-- The configuration over the real numbers that `c` stands for, with a rounding operator from the real
numbers and a library over them. -/
noncomputable def realConfig (c : Config S R) (scale : S → ℝ) (value : R → ℝ) (rnd : ℝ → ℝ)
    (lib : Library ℝ ℝ) : Config ℝ ℝ where
  real := .exact
  widths := c.widths
  decim := c.decim
  deltaMax := c.deltaMax
  avgW0 := c.avgW0
  avgW1 := c.avgW1
  avgW2 := c.avgW2
  avgW3 := c.avgW3
  nSettle := c.nSettle
  nCal := c.nCal
  pper := c.pper
  posUpperTh := c.posUpperTh
  posLowerTh := c.posLowerTh
  lockCount := c.lockCount
  slowDiv := c.slowDiv
  inactStop := c.inactStop
  inactWarn := c.inactWarn
  offsetMin := value c.offsetMin
  offsetMax := value c.offsetMax
  currentGain := scale c.currentGain
  tSlow := scale c.tSlow
  alignAngle := value c.alignAngle
  olIqRef := value c.olIqRef
  stopSpeedTh := value c.stopSpeedTh
  stopMargin := value c.stopMargin
  stopDecStep := value c.stopDecStep
  rampStepDefault := value c.rampStepDefault
  velCmdDefault := value c.velCmdDefault
  velCmdStep := value c.velCmdStep
  velCmdMin := value c.velCmdMin
  velCmdMax := value c.velCmdMax
  rnd := rnd
  lib := lib
  gainsD := valueGains value scale c.gainsD
  gainsQ := valueGains value scale c.gainsQ
  gainsVel := valueGains value scale c.gainsVel

/-- The rounding operator and the library of `c` are `rnd` and `lib` on the real numbers that the elements
of `R` stand for. -/
structure ComputesAs (c : Config S R) (scale : S →+* ℝ) (value : R → ℝ) (rnd : ℝ → ℝ)
    (lib : Library ℝ ℝ) : Prop where
  sound : c.real.Sound scale value
  rnd : ∀ x, value (c.rnd x) = rnd (value x)
  clarke : ∀ x y z, (value (c.lib.clarke x y z).1, value (c.lib.clarke x y z).2) =
    lib.clarke (value x) (value y) (value z)
  park : ∀ x y z, (value (c.lib.park x y z).1, value (c.lib.park x y z).2) =
    lib.park (value x) (value y) (value z)
  invpark : ∀ x y z, (value (c.lib.invpark x y z).1, value (c.lib.invpark x y z).2) =
    lib.invpark (value x) (value y) (value z)
  svpwm : ∀ x y, (value (c.lib.svpwm x y).1, value (c.lib.svpwm x y).2.1, value (c.lib.svpwm x y).2.2) =
    lib.svpwm (value x) (value y)
  piControl : ∀ g s x y, (value (c.lib.piControl g s x y).1, valuePI value (c.lib.piControl g s x y).2) =
    lib.piControl (valueGains value scale g) (valuePI value s) (value x) (value y)
  piInitRest : c.lib.piInitRest.map value = lib.piInitRest

section
variable {c : Config S R} {scale : S →+* ℝ} {value : R → ℝ} {rnd : ℝ → ℝ} {lib : Library ℝ ℝ}
  (h : ComputesAs c scale value rnd lib)

include h

theorem ComputesAs.le (x y : R) : Reals.exact.le (value x) (value y) = c.real.le x y := by
  rw [Bool.eq_iff_iff, exact_sound.le, h.sound.le]
  rfl

theorem ComputesAs.lt (x y : R) : Reals.exact.lt (value x) (value y) = c.real.lt x y := by
  rw [Reals.lt, Reals.lt, h.le]

theorem ComputesAs.min (x y : R) : value (c.real.min x y) = Reals.exact.min (value x) (value y) := by
  rw [Reals.min, Reals.min, h.le, apply_ite value]

theorem ComputesAs.max (x y : R) : value (c.real.max x y) = Reals.exact.max (value x) (value y) := by
  rw [Reals.max, Reals.max, h.le, apply_ite value]

theorem ComputesAs.clamp (x y z : R) :
    value (c.real.clamp x y z) = Reals.exact.clamp (value x) (value y) (value z) := by
  rw [Reals.clamp, Reals.clamp, h.min, h.max]

theorem ComputesAs.abs (x : R) : value (c.real.abs x) = Reals.exact.abs (value x) := by
  rw [Reals.abs, Reals.abs, ← h.sound.zero, h.le, apply_ite value, h.sound.neg]

theorem ComputesAs.sub (x y : R) : value (x - y) = value x - value y := value_sub h.sound x y

theorem ComputesAs.smul (q : S) (x : R) : value (q • x) = scale q • value x := h.sound.smul q x

theorem ComputesAs.ofScale (q : S) : value (c.real.ofScale q) = Reals.exact.ofScale (scale q) :=
  h.sound.ofScale q

theorem ComputesAs.pi : value c.real.pi = Reals.exact.pi := h.sound.pi

theorem ComputesAs.twoPi : value c.real.twoPi = Reals.exact.twoPi := by
  rw [Reals.twoPi, Reals.twoPi, h.smul, h.pi, map_ofNat]

theorem ComputesAs.sign (d : Direction) (x : R) :
    value ((d.sign : S) • x) = (d.sign : ℝ) • value x := by
  rw [h.smul, map_intCast]

/-! ### The values that the rules compute -/

theorem value_phaseCurrent (avg : S) (x : R) :
    value (phaseCurrent c avg x) =
      phaseCurrent (realConfig c scale value rnd lib) (scale avg) (value x) := by
  simp only [phaseCurrent, realConfig, h.rnd, h.smul, h.sub, h.ofScale]

theorem value_weightedAverage (o0 o1 o2 o3 : Acc c.widths) :
    scale (weightedAverage c o0 o1 o2 o3) =
      weightedAverage (realConfig c scale value rnd lib) o0 o1 o2 o3 := by
  simp only [weightedAverage, realConfig, Config.avgWSum, map_div₀, map_natCast]

theorem value_thirdCurrent (x y : R) :
    value (thirdCurrent c x y) = thirdCurrent (realConfig c scale value rnd lib) (value x) (value y) := by
  simp only [thirdCurrent, realConfig, h.rnd, h.sub, h.sound.neg]

theorem value_calibratedOffset (sum : Sum) :
    value (calibratedOffset c sum) = calibratedOffset (realConfig c scale value rnd lib) sum := by
  simp only [calibratedOffset, realConfig, h.rnd, h.clamp, h.ofScale, map_div₀, map_natCast]

theorem value_norm (x : R) :
    value (norm c x) = norm (realConfig c scale value rnd lib) (value x) := by
  simp only [Machine.norm, realConfig, ← h.twoPi, h.le, ← h.sound.zero, h.lt, apply_ite value, h.rnd, h.sub,
    h.sound.add]

theorem value_angleOfCount (count : Nat) :
    value (angleOfCount c count) = angleOfCount (realConfig c scale value rnd lib) count := by
  rw [angleOfCount, value_norm h, h.rnd, h.smul, h.twoPi, map_div₀, map_natCast, map_natCast]
  rfl

theorem value_velocityOf (dlt : Int) :
    value (velocityOf c dlt) = velocityOf (realConfig c scale value rnd lib) dlt := by
  simp only [velocityOf, realConfig, h.rnd, h.smul, h.twoPi, map_div₀, map_mul, map_natCast, map_intCast]

theorem value_openLoopIq (d : Direction) :
    value (openLoopIq c d) = openLoopIq (realConfig c scale value rnd lib) d := by
  simp only [openLoopIq, realConfig, h.rnd, h.sign]

theorem value_lockAngle : value (lockAngle c) = lockAngle (realConfig c scale value rnd lib) := by
  rw [lockAngle, value_norm h, h.rnd]
  rfl

theorem value_rotationAngle (d : Direction) :
    value (rotationAngle c d) = rotationAngle (realConfig c scale value rnd lib) d := by
  rw [rotationAngle, value_norm h, h.rnd, h.sound.add, h.smul, h.pi, map_div₀, map_intCast, map_ofNat]
  rfl

theorem value_statorCurrent (x y z : R) :
    ((value (statorCurrent c x y z).1, value (statorCurrent c x y z).2) : ℝ × ℝ) =
      statorCurrent (realConfig c scale value rnd lib) (value x) (value y) (value z) := by
  simp only [statorCurrent, roundPair, realConfig, h.rnd, ← h.clarke]

theorem value_rotorCurrent (i : R × R) (x : R) :
    ((value (rotorCurrent c i x).1, value (rotorCurrent c i x).2) : ℝ × ℝ) =
      rotorCurrent (realConfig c scale value rnd lib) (value i.1, value i.2) (value x) := by
  simp only [rotorCurrent, roundPair, realConfig, h.rnd, ← h.park]

theorem value_statorVoltage (x y z : R) :
    ((value (statorVoltage c x y z).1, value (statorVoltage c x y z).2) : ℝ × ℝ) =
      statorVoltage (realConfig c scale value rnd lib) (value x) (value y) (value z) := by
  simp only [statorVoltage, roundPair, realConfig, h.rnd, ← h.invpark]

theorem value_dutyTriple (v : R × R) :
    ((value (dutyTriple c v).1, value (dutyTriple c v).2.1, value (dutyTriple c v).2.2) : ℝ × ℝ × ℝ) =
      dutyTriple (realConfig c scale value rnd lib) (value v.1, value v.2) := by
  simp only [dutyTriple, realConfig, h.rnd, ← h.svpwm]

theorem value_piZero (x : PIState R) :
    valuePI value (piZero c x) = piZero (realConfig c scale value rnd lib) (valuePI value x) := by
  simp only [piZero, valuePI, realConfig, h.sound.zero, h.piInitRest]

theorem value_rampUp (x y z : R) :
    value (rampUp c x y z) =
      rampUp (realConfig c scale value rnd lib) (value x) (value y) (value z) := by
  simp only [rampUp, realConfig, h.rnd, h.min, h.sound.add]

theorem value_rampDown (x y z : R) :
    value (rampDown c x y z) =
      rampDown (realConfig c scale value rnd lib) (value x) (value y) (value z) := by
  simp only [rampDown, realConfig, h.rnd, h.max, h.sub]

theorem value_velocityReference (d : Direction) (x : R) :
    value (velocityReference c d x) = velocityReference (realConfig c scale value rnd lib) d (value x) := by
  simp only [velocityReference, realConfig, h.rnd, h.sign]

theorem value_incremented (x : R) :
    value (incremented c x) = incremented (realConfig c scale value rnd lib) (value x) := by
  simp only [incremented, realConfig, h.rnd, h.min, h.sound.add]

theorem value_decremented (x : R) :
    value (decremented c x) = decremented (realConfig c scale value rnd lib) (value x) := by
  simp only [decremented, realConfig, h.rnd, h.max, h.sub]

theorem value_loweredTarget (x : R) :
    value (loweredTarget c x) = loweredTarget (realConfig c scale value rnd lib) (value x) := by
  simp only [loweredTarget, realConfig, h.rnd, h.max, h.sub, h.sound.zero]

theorem value_slowEnough (d : Direction) (x : R) :
    slowEnough (realConfig c scale value rnd lib) d (value x) = slowEnough c d x := by
  simp only [slowEnough, directionalVelocity, realConfig, ← h.sign, h.le]

theorem value_withinMargin (d : Direction) (x y : R) :
    withinMargin (realConfig c scale value rnd lib) d (value x) (value y) = withinMargin c d x y := by
  simp only [withinMargin, directionalVelocity, realConfig, ← h.sign, ← h.sub, ← h.abs, h.le]

/-! ### Every rule makes the same accesses -/

omit h in
theorem same_filt (ph : Phase) (raw : Count c.widths) {k : Prog c.widths R} {k' : Prog c.widths ℝ} (hk : SameAccesses value k k') :
    SameAccesses value (filt c ph raw k) (filt (realConfig c scale value rnd lib) ph raw k') := by
  repeat' first
    | exact hk
    | refine .read _ _ _ fun _ => ?_
    | refine .write _ _ _ _ _ rfl ?_

omit h in
theorem same_onlyIf (b : Bool) {f : Prog w R → Prog w R} {f' : Prog w ℝ → Prog w ℝ} {k : Prog w R}
    {k' : Prog w ℝ} (hf : SameAccesses value (f k) (f' k')) (hk : SameAccesses value k k') :
    SameAccesses value (Prog.onlyIf b f k) (Prog.onlyIf b f' k') := by
  cases b
  · exact hk
  · exact hf

omit h in
theorem same_ite (b : Bool) {p q : Prog w R} {p' q' : Prog w ℝ} (hp : SameAccesses value p p')
    (hq : SameAccesses value q q') :
    SameAccesses value (if b = true then p else q) (if b = true then p' else q') := by
  cases b
  · exact hq
  · exact hp

omit h in
theorem same_decimatePhase (ph : Phase) {k : Prog w R} {k' : Prog w ℝ} (hk : SameAccesses value k k') :
    SameAccesses value (decimatePhase ph k) (decimatePhase ph k') := by
  repeat' first
    | exact hk
    | refine .read _ _ _ fun _ => ?_
    | refine .write _ _ _ _ _ rfl ?_

omit h in
theorem same_decimate {k : Prog w R} {k' : Prog w ℝ} (hk : SameAccesses value k k') :
    SameAccesses value (decimate k) (decimate k') := by
  refine same_decimatePhase _ (same_decimatePhase _ ?_)
  repeat' first
    | exact hk
    | refine .read _ _ _ fun _ => ?_
    | refine .write _ _ _ _ _ rfl ?_

omit h in
theorem same_sampleBody (p : Ports c.widths) {k : Prog c.widths R} {k' : Prog c.widths ℝ} (hk : SameAccesses value k k') :
    SameAccesses value (sampleBody c p k) (sampleBody (realConfig c scale value rnd lib) p k') := by
  refine same_filt _ _ (same_filt _ _ ?_)
  refine .read _ _ _ fun n => .write _ _ _ _ _ rfl <| .read _ _ _ fun m => same_onlyIf _ ?_ hk
  exact .write _ _ _ _ _ rfl (same_decimate hk)

theorem same_curAcq {k : R → R → R → Prog c.widths R} {k' : ℝ → ℝ → ℝ → Prog c.widths ℝ}
    (hk : ∀ x y z, SameAccesses value (k x y z) (k' (value x) (value y) (value z))) :
    SameAccesses value (curAcq c k) (curAcq (realConfig c scale value rnd lib) k') := by
  refine .read _ _ _ fun u0 => .read _ _ _ fun u1 => .read _ _ _ fun u2 => .read _ _ _ fun u3 =>
    .read _ _ _ fun x => .read _ _ _ fun v0 => .read _ _ _ fun v1 => .read _ _ _ fun v2 =>
    .read _ _ _ fun v3 => .read _ _ _ fun y => ?_
  have hu := (value_phaseCurrent h (weightedAverage c u0 u1 u2 u3) x).symm
  have hv := (value_phaseCurrent h (weightedAverage c v0 v1 v2 v3) y).symm
  rw [value_weightedAverage h] at hu hv
  show SameAccesses value _ (k' (phaseCurrent (realConfig c scale value rnd lib) _ _) (phaseCurrent (realConfig c scale value rnd lib) _ _)
    (thirdCurrent (realConfig c scale value rnd lib) (phaseCurrent (realConfig c scale value rnd lib) _ _) (phaseCurrent (realConfig c scale value rnd lib) _ _)))
  erw [hu, hv, ← value_thirdCurrent h]
  exact hk _ _ _

omit h in
theorem same_settlePoll {k : Prog c.widths R} {k' : Prog c.widths ℝ} (hk : SameAccesses value k k') : SameAccesses value (settlePoll c k) (settlePoll (realConfig c scale value rnd lib) k') := by
  refine .read _ _ _ fun n => .read _ _ _ fun base => same_onlyIf _ ?_ hk
  repeat' first
    | exact hk
    | refine .read _ _ _ fun _ => ?_
    | refine .write _ _ _ _ _ rfl ?_

theorem same_calPoll {k : Bool → Prog c.widths R} {k' : Bool → Prog c.widths ℝ}
    (hk : ∀ b, SameAccesses value (k b) (k' b)) :
    SameAccesses value (calPoll c k) (calPoll (realConfig c scale value rnd lib) k') := by
  refine .read _ _ _ fun n => .read _ _ _ fun seen => same_ite (newSample n seen) ?_ (hk false)
  refine .read _ _ _ fun n' => .write _ _ _ _ _ rfl <| .read _ _ _ fun sumU => .read _ _ _ fun u0 =>
    .write _ _ _ _ _ rfl <| .read _ _ _ fun sumV => .read _ _ _ fun v0 => .write _ _ _ _ _ rfl <|
    .read _ _ _ fun m => .write _ _ _ _ _ rfl <| .read _ _ _ fun m' =>
    same_ite (calibrationOver c m') ?_ (hk false)
  exact .read _ _ _ fun x => .write _ _ _ _ _ (value_calibratedOffset h x) <|
    .read _ _ _ fun y => .write _ _ _ _ _ (value_calibratedOffset h y) (hk true)

theorem same_posUpd (p : Ports c.widths) {k : Prog c.widths R} {k' : Prog c.widths ℝ} (hk : SameAccesses value k k') :
    SameAccesses value (posUpd c p k) (posUpd (realConfig c scale value rnd lib) p k') := by
  refine .read _ _ _ fun prev => .read _ _ _ fun comp => .write _ _ _ _ _ rfl <| .write _ _ _ _ _ rfl <|
    .read _ _ _ fun comp' => .write _ _ _ _ _ rfl <| .read _ _ _ fun count => ?_
  exact .write _ _ _ _ _ (value_angleOfCount h count) hk

theorem same_velEst (p : Ports c.widths) {k : Prog c.widths R} {k' : Prog c.widths ℝ} (hk : SameAccesses value k k') :
    SameAccesses value (velEst c p k) (velEst (realConfig c scale value rnd lib) p k') := by
  have hrest : SameAccesses value
      (.read .velPrevRaw fun base => .write .velEst (velocityOf c (signedMovement (portPosition p) base)) <|
        .write .velPrevRaw (portPosition p) <| .read .runStatus fun st => .write .runStatusPrev st k)
      (.read .velPrevRaw fun base =>
        .write .velEst (velocityOf (realConfig c scale value rnd lib) (signedMovement (portPosition p) base)) <|
        .write .velPrevRaw (portPosition p) <| .read .runStatus fun st => .write .runStatusPrev st k') :=
    .read _ _ _ fun base => .write _ _ _ _ _ (value_velocityOf h _) <| .write _ _ _ _ _ rfl <|
      .read _ _ _ fun st => .write _ _ _ _ _ rfl hk
  exact .read _ _ _ fun a => .read _ _ _ fun b => same_onlyIf _ (.write _ _ _ _ _ rfl hrest) hrest

theorem same_dutyGen (x y : R) {k : Prog c.widths R} {k' : Prog c.widths ℝ} (hk : SameAccesses value k k') :
    SameAccesses value (dutyGen c x y k) (dutyGen (realConfig c scale value rnd lib) (value x) (value y) k') := by
  refine .read _ _ _ fun angle => ?_
  have e := value_dutyTriple h (statorVoltage c x y angle)
  rw [value_statorVoltage h] at e
  exact .write _ _ _ _ _ (congrArg (·.1) e) <| .write _ _ _ _ _ (congrArg (·.2.1) e) <|
    .write _ _ _ _ _ (congrArg (·.2.2) e) hk

theorem same_currentPIs (x y : R) {k : R → R → Prog c.widths R} {k' : ℝ → ℝ → Prog c.widths ℝ}
    (hk : ∀ x y, SameAccesses value (k x y) (k' (value x) (value y))) :
    SameAccesses value (currentPIs c x y k) (currentPIs (realConfig c scale value rnd lib) (value x) (value y) k') := by
  refine .read _ _ _ fun sD => .read _ _ _ fun idRef => ?_
  have eD := h.piControl c.gainsD sD x idRef
  refine .write _ _ _ _ _ (congrArg (·.2) eD) <| .read _ _ _ fun sQ => .read _ _ _ fun iqRef => ?_
  have eQ := h.piControl c.gainsQ sQ y iqRef
  refine .write _ _ _ _ _ (congrArg (·.2) eQ) ?_
  have e := hk (c.lib.piControl c.gainsD sD x idRef).1 (c.lib.piControl c.gainsQ sQ y iqRef).1
  rw [show value _ = _ from congrArg Prod.fst eD, show value _ = _ from congrArg Prod.fst eQ] at e
  exact e

theorem same_curLoop (x y : R) {k : R → R → Prog c.widths R} {k' : ℝ → ℝ → Prog c.widths ℝ}
    (hk : ∀ x y, SameAccesses value (k x y) (k' (value x) (value y))) :
    SameAccesses value (curLoop c x y k) (curLoop (realConfig c scale value rnd lib) (value x) (value y) k') := by
  refine .read _ _ _ fun mode => ?_
  cases mode with
  | openLoop =>
    exact .read _ _ _ fun d => .write _ _ _ _ _ (value_openLoopIq h d) <|
      .write _ _ _ _ _ h.sound.zero (same_currentPIs h x y hk)
  | closedLoop =>
    refine .read _ _ _ fun edge => ?_
    cases edge
    · exact .write _ _ _ _ _ h.sound.zero (same_currentPIs h x y hk)
    · exact .read _ _ _ fun s => .write _ _ _ _ _ (value_piZero h s) <|
        .write _ _ _ _ _ h.sound.zero <| .write _ _ _ _ _ rfl (same_currentPIs h x y hk)

theorem same_align {k : Prog c.widths R} {k' : Prog c.widths ℝ} (hk : SameAccesses value k k') : SameAccesses value (align c k) (align (realConfig c scale value rnd lib) k') := by
  refine .read _ _ _ fun active => ?_
  cases active
  · exact hk
  refine .read _ _ _ fun lock => same_ite (lockPending c lock) ?_ ?_
  · exact .write _ _ _ _ _ (value_lockAngle h) <| .read _ _ _ fun n => .write _ _ _ _ _ rfl hk
  refine .read _ _ _ fun rot => same_ite (lockPending c rot) ?_ ?_
  · exact .read _ _ _ fun d => .write _ _ _ _ _ (value_rotationAngle h d) <|
      .read _ _ _ fun n => .write _ _ _ _ _ rfl hk
  · exact .write _ _ _ _ _ rfl <| .write _ _ _ _ _ rfl <| .write _ _ _ _ _ rfl <|
      .write _ _ _ _ _ rfl <| .write _ _ _ _ _ rfl <| .write _ _ _ _ _ h.sound.zero <|
      .write _ _ _ _ _ rfl <| .write _ _ _ _ _ rfl hk

theorem same_angUpd (p : Ports c.widths) {k : Prog c.widths R} {k' : Prog c.widths ℝ} (hk : SameAccesses value k k') :
    SameAccesses value (angUpd c p k) (angUpd (realConfig c scale value rnd lib) p k') := by
  refine .read _ _ _ fun mode => ?_
  cases mode
  · exact same_align h hk
  · exact same_posUpd h p hk

theorem same_controlBody (p : Ports c.widths) {k : Prog c.widths R} {k' : Prog c.widths ℝ} (hk : SameAccesses value k k') :
    SameAccesses value (controlBody c p k) (controlBody (realConfig c scale value rnd lib) p k') := by
  refine same_curAcq h fun x y z => .read _ _ _ fun angle => ?_
  have e := value_rotorCurrent h (statorCurrent c x y z) angle
  rw [value_statorCurrent h] at e
  have e' := same_curLoop h (rotorCurrent c (statorCurrent c x y z) angle).1
    (rotorCurrent c (statorCurrent c x y z) angle).2
    (k := fun vD vQ => angUpd c p <| dutyGen c vD vQ <| .read .syncCnt fun n => .write .syncCnt (n + 1) k)
    (k' := fun vD vQ => angUpd (realConfig c scale value rnd lib) p <| dutyGen (realConfig c scale value rnd lib) vD vQ <|
      .read .syncCnt fun n => .write .syncCnt (n + 1) k')
    fun vD vQ => same_angUpd h p <| same_dutyGen h vD vQ <| .read _ _ _ fun n => .write _ _ _ _ _ rfl hk
  rw [show value _ = _ from congrArg Prod.fst e, show value _ = _ from congrArg Prod.snd e] at e'
  exact e'

omit h in
theorem same_gate {k : Bool → Prog c.widths R} {k' : Bool → Prog c.widths ℝ}
    (hk : ∀ b, SameAccesses value (k b) (k' b)) : SameAccesses value (gate c k) (gate (realConfig c scale value rnd lib) k') := by
  exact .read _ _ _ fun n => same_ite (gateDue c n) (.write _ _ _ _ _ rfl (hk true)) (hk false)

theorem same_cpReset {k : Prog c.widths R} {k' : Prog c.widths ℝ} (hk : SameAccesses value k k') : SameAccesses value (cpReset c k) (cpReset (realConfig c scale value rnd lib) k') := by
  repeat' first
    | exact hk
    | refine .read _ _ _ fun _ => ?_
    | refine .write _ _ _ _ _ rfl ?_
    | refine .write _ _ _ _ _ h.sound.zero ?_

theorem same_mstartBegin {k : Prog c.widths R} {k' : Prog c.widths ℝ} (hk : SameAccesses value k k') : SameAccesses value (mstartBegin c k) (mstartBegin (realConfig c scale value rnd lib) k') := by
  refine same_cpReset h <| .write _ _ _ _ _ rfl <| .read _ _ _ fun x =>
    .write _ _ _ _ _ (value_piZero h x) <| .read _ _ _ fun y => .write _ _ _ _ _ (value_piZero h y) <|
    .read _ _ _ fun z => .write _ _ _ _ _ (value_piZero h z) ?_
  repeat' first
    | exact hk
    | refine .read _ _ _ fun _ => ?_
    | refine .write _ _ _ _ _ rfl ?_
    | refine .write _ _ _ _ _ h.sound.zero ?_

omit h in
theorem same_mstartEnd {k : Prog w R} {k' : Prog w ℝ} (hk : SameAccesses value k k') :
    SameAccesses value (mstartEnd k) (mstartEnd k') := by
  repeat' first
    | exact hk
    | refine .read _ _ _ fun _ => ?_
    | refine .write _ _ _ _ _ rfl ?_

theorem same_mstop {k : Prog c.widths R} {k' : Prog c.widths ℝ} (hk : SameAccesses value k k') : SameAccesses value (mstop c k) (mstop (realConfig c scale value rnd lib) k') := by
  refine .write _ _ _ _ _ rfl <| .write _ _ _ _ _ rfl <| same_cpReset h ?_
  exact .write _ _ _ _ _ rfl <| .write _ _ _ _ _ rfl <| .read _ _ _ fun x =>
    .write _ _ _ _ _ (value_piZero h x) hk

theorem same_ramp {k : Prog c.widths R} {k' : Prog c.widths ℝ} (hk : SameAccesses value k k') : SameAccesses value (ramp c k) (ramp (realConfig c scale value rnd lib) k') := by
  refine .read _ _ _ fun r => .read _ _ _ fun t => ?_
  show SameAccesses value (if c.real.lt r t = true then _ else if c.real.lt t r = true then _ else k)
    (if Reals.exact.lt (value r) (value t) = true then _
      else if Reals.exact.lt (value t) (value r) = true then _ else k')
  rw [h.lt, h.lt]
  refine same_ite _ ?_ (same_ite _ ?_ hk)
  · exact .read _ _ _ fun x => .read _ _ _ fun y => .read _ _ _ fun z =>
      .write _ _ _ _ _ (value_rampUp h x y z) hk
  · exact .read _ _ _ fun x => .read _ _ _ fun y => .read _ _ _ fun z =>
      .write _ _ _ _ _ (value_rampDown h x y z) hk

theorem same_slowLoop (p : Ports c.widths) {k : Prog c.widths R} {k' : Prog c.widths ℝ} (hk : SameAccesses value k k') :
    SameAccesses value (slowLoop c p k) (slowLoop (realConfig c scale value rnd lib) p k') := by
  refine same_ramp h <| same_velEst h p <| .read _ _ _ fun s => .read _ _ _ fun v => .read _ _ _ fun d =>
    .read _ _ _ fun r => ?_
  have e := h.piControl c.gainsVel s v (velocityReference c d r)
  rw [value_velocityReference h] at e
  exact .write _ _ _ _ _ (congrArg (·.2) e) <| .write _ _ _ _ _ (congrArg (·.1) e) hk

omit h in
theorem same_waitStartStep (p : Ports w) {k : Prog w R} {k' : Prog w ℝ} (hk : SameAccesses value k k') :
    SameAccesses value (waitStartStep p k) (waitStartStep p k') := by
  have hs := same_onlyIf (value := value) p.btn.start (f := fun k => .write .appState .start k)
    (f' := fun k => .write .appState .start k) (.write _ _ _ _ _ rfl hk) hk
  exact same_onlyIf _ (.read _ _ _ fun d => .write _ _ _ _ _ rfl hs) hs

theorem same_startStep {k : Prog c.widths R} {k' : Prog c.widths ℝ} (hk : SameAccesses value k k') : SameAccesses value (startStep c k) (startStep (realConfig c scale value rnd lib) k') := by
  refine .read _ _ _ fun ph => ?_
  cases ph with
  | idle => exact .write _ _ _ _ _ rfl (same_mstartBegin h hk)
  | settle => exact same_settlePoll hk
  | cal =>
    exact same_calPoll h fun b => same_onlyIf b (same_mstartEnd <| .write _ _ _ _ _ rfl <|
      .write _ _ _ _ _ rfl <| .write _ _ _ _ _ rfl hk) hk

theorem same_runningButtons (b : Buttons) (next : AppState) {k : Prog c.widths R} {k' : Prog c.widths ℝ} (hk : SameAccesses value k k') :
    SameAccesses value (runningButtons c b next k) (runningButtons (realConfig c scale value rnd lib) b next k') := by
  have h5 : SameAccesses value (.write .appState (if b.start then .stopDecrease else next) k)
      (.write .appState (if b.start then .stopDecrease else next) k') := .write _ _ _ _ _ rfl hk
  have h4 := same_onlyIf (value := value) (b.start || b.inc || b.dec || b.reset)
    (f := fun k => .write .inactCnt 0 k) (f' := fun k => .write .inactCnt 0 k) (.write _ _ _ _ _ rfl h5) h5
  have h3 := same_onlyIf (value := value) (b.inc || b.dec || b.reset)
    (f := fun k => .read .velCmd fun v => .write .velTarget v k)
    (f' := fun k => .read .velCmd fun v => .write .velTarget v k)
    (.read _ _ _ fun v => .write _ _ _ _ _ rfl h4) h4
  have h2 := same_onlyIf (value := value) b.reset (f := fun k => .write .velCmd c.velCmdDefault k)
    (f' := fun k => .write .velCmd (value c.velCmdDefault) k) (.write _ _ _ _ _ rfl h3) h3
  have h1 := same_onlyIf (value := value) b.dec
    (f := fun k => .read .velCmd fun v => .write .velCmd (decremented c v) k)
    (f' := fun k => .read .velCmd fun v => .write .velCmd (decremented (realConfig c scale value rnd lib) v) k)
    (.read _ _ _ fun v => .write _ _ _ _ _ (value_decremented h v) h2) h2
  exact same_onlyIf b.inc (.read _ _ _ fun v => .write _ _ _ _ _ (value_incremented h v) h1) h1

theorem same_runningStep (p : Ports c.widths) {k : Prog c.widths R} {k' : Prog c.widths ℝ} (hk : SameAccesses value k k') :
    SameAccesses value (runningStep c p k) (runningStep (realConfig c scale value rnd lib) p k') := by
  refine same_gate fun fired => ?_
  cases fired
  · exact same_runningButtons h _ _ hk
  · refine same_slowLoop h p <| .read _ _ _ fun n => .write _ _ _ _ _ rfl <| .read _ _ _ fun n1 => ?_
    have hb : SameAccesses value
        (.read .inactCnt fun n2 => runningButtons c p.btn
          (if inactivityStop c n2 then .stopDecrease else .running) k)
        (.read .inactCnt fun n2 => runningButtons (realConfig c scale value rnd lib) p.btn
          (if inactivityStop c n2 then .stopDecrease else .running) k') :=
      .read _ _ _ fun n2 => same_runningButtons h _ _ hk
    exact same_onlyIf _ (.write _ _ _ _ _ rfl hb) hb

theorem same_stopDecreaseStep (p : Ports c.widths) {k : Prog c.widths R} {k' : Prog c.widths ℝ} (hk : SameAccesses value k k') :
    SameAccesses value (stopDecreaseStep c p k) (stopDecreaseStep (realConfig c scale value rnd lib) p k') := by
  refine .read _ _ _ fun d => .read _ _ _ fun v => ?_
  show SameAccesses value (if slowEnough c d v = true then _ else _)
    (if slowEnough (realConfig c scale value rnd lib) d (value v) = true then _ else _)
  rw [value_slowEnough h]
  refine same_ite _ (.write _ _ _ _ _ rfl hk) (same_gate fun fired => ?_)
  cases fired
  · exact hk
  · refine same_slowLoop h p <| .read _ _ _ fun d' => .read _ _ _ fun v' => .read _ _ _ fun t => ?_
    show SameAccesses value (Prog.onlyIf (withinMargin c d' v' t) _ k)
      (Prog.onlyIf (withinMargin (realConfig c scale value rnd lib) d' (value v') (value t)) _ k')
    rw [value_withinMargin h]
    exact same_onlyIf _ (.read _ _ _ fun x => .write _ _ _ _ _ (value_loweredTarget h x) hk) hk

theorem same_fgBody (p : Ports c.widths) {k : Prog c.widths R} {k' : Prog c.widths ℝ} (hk : SameAccesses value k k') :
    SameAccesses value (fgBody c p k) (fgBody (realConfig c scale value rnd lib) p k') := by
  refine .read _ _ _ fun st => ?_
  cases st with
  | init =>
    exact .write _ _ _ _ _ rfl <| .write _ _ _ _ _ rfl <| .write _ _ _ _ _ rfl <| .write _ _ _ _ _ rfl hk
  | waitStart => exact same_waitStartStep p hk
  | start => exact same_startStep h hk
  | running => exact same_runningStep h p hk
  | stopDecrease => exact same_stopDecreaseStep h p hk
  | stopped =>
    exact .write _ _ _ _ _ rfl <| .write _ _ _ _ _ rfl <| same_mstop h <| .write _ _ _ _ _ rfl hk

/-- Every operation makes the same accesses over the real numbers. -/
theorem same_opProgram (p : Ports c.widths) (t : Temps c.widths R) (t' : Temps c.widths ℝ)
    (ht : valueTemps value t = t') (i : Instr) :
    SameAccesses value (opProgram c p t i) (opProgram (realConfig c scale value rnd lib) p t' i) := by
  subst ht
  have hs : SameAccesses (w := c.widths) value .stop .stop := .done _ _ fun _ => rfl
  cases i with
  | idle => exact hs
  | sample => exact same_sampleBody p hs
  | control => exact same_controlBody h p hs
  | fg => exact same_fgBody h p hs
  | filt => exact same_filt _ _ hs
  | decimate => exact same_decimate hs
  | curacq =>
    exact same_curAcq h (k := fun x y z => .done fun t => { t with iU := x, iV := y, iW := z })
      (k' := fun x y z => .done fun t => { t with iU := x, iV := y, iW := z })
      fun x y z => .done _ _ fun _ => rfl
  | curloop =>
    exact same_curLoop h _ _ (k := fun x y => .done fun t => { t with vD := x, vQ := y })
      (k' := fun x y => .done fun t => { t with vD := x, vQ := y }) fun x y => .done _ _ fun _ => rfl
  | angupd => exact same_angUpd h p hs
  | align => exact same_align h hs
  | posupd => exact same_posUpd h p hs
  | dutygen => exact same_dutyGen h _ _ hs
  | init => exact .write _ _ _ _ _ rfl <| .write _ _ _ _ _ rfl <| .write _ _ _ _ _ rfl hs
  | cpreset => exact same_cpReset h hs
  | mstartBegin => exact same_mstartBegin h hs
  | settlepoll => exact same_settlePoll hs
  | calpoll =>
    exact same_calPoll h (k := fun b => .done fun t => { t with done := b })
      (k' := fun b => .done fun t => { t with done := b }) fun b => .done _ _ fun _ => rfl
  | mstartEnd => exact same_mstartEnd hs
  | mstop => exact same_mstop h hs
  | slowloop => exact same_slowLoop h p hs

theorem value_temps (s : State c.widths R) : (valueState value s).temps = valueTemps value s.temps := by
  have hz : (Temps.zero : Temps c.widths ℝ) = valueTemps value (Temps.zero : Temps c.widths R) := by
    simp only [Temps.zero, valueTemps, h.sound.zero]
  unfold State.temps valueState
  cases s.frames with
  | nil => exact hz
  | cons f fs => rfl

omit h in
theorem value_record (s : State c.widths R) {out : Temps c.widths R → Temps c.widths R}
    {out' : Temps c.widths ℝ → Temps c.widths ℝ}
    (ho : ∀ t, valueTemps value (out t) = out' (valueTemps value t)) :
    valueState value (s.record out) = (valueState value s).record out' := by
  obtain ⟨filt, cal, pos, ctl, loops, seq, per, duty, faultClr, preempt, prio, frames, ports, script⟩ := s
  cases frames with
  | nil => rfl
  | cons f fs => simp only [State.record, valueState, List.map_cons, valueFrame, ho]

/-- R4: an operation performed over a sound representation leaves, read as real numbers, exactly what it
leaves over the real numbers themselves. -/
theorem performWith_value (i : Instr) (s : State c.widths R) :
    valueState value (performWith c i s) = performWith (realConfig c scale value rnd lib) i (valueState value s) := by
  have hp := same_opProgram h s.ports s.temps (valueState value s).temps (value_temps h s).symm i
  unfold performWith
  cases hasResult i with
  | true => exact (value_record _ (hp.out_value s)).trans (congrArg (State.record · _) (hp.run_value s))
  | false =>
    show valueState value (if admitted i s = true then _ else s) =
      if admitted i (valueState value s) = true then _ else _
    have ha : admitted i (valueState value s) = admitted i s := by cases i <;> rfl
    rw [ha]
    cases admitted i s with
    | true => exact hp.run_value s
    | false => rfl

end

/-! ### Every configuration has a rounding operator from the real numbers -/

/-- R4: whatever rounding operator and library a configuration has over a sound representation, they are
those of an operator `rnd : Real -> NUM` and a library over the real numbers. -/
theorem exists_computesAs (c : Config S R) {scale : S →+* ℝ} {value : R → ℝ}
    (h : c.real.Sound scale value) : ∃ rnd lib, ComputesAs c scale value rnd lib := by
  have hv : Function.LeftInverse (Function.invFun value) value :=
    Function.leftInverse_invFun fun x y => h.injective x y
  have hs : Function.LeftInverse (Function.invFun scale) scale :=
    Function.leftInverse_invFun scale.injective
  have hl : ∀ l : List R, (l.map value).map (Function.invFun value) = l := fun l => by
    rw [List.map_map, hv.comp_eq_id, List.map_id]
  let back := Function.invFun value
  let gains (g : PIGains ℝ ℝ) : PIGains S R :=
    ⟨Function.invFun scale g.kp, Function.invFun scale g.ki, Function.invFun scale g.kAntiWindup,
      back g.outMin, back g.outMax⟩
  let pis (x : PIState ℝ) : PIState R := ⟨back x.integ, x.rest.map back⟩
  refine ⟨fun x => value (c.rnd (back x)),
    { clarke := fun x y z =>
        Prod.map value value (c.lib.clarke (back x) (back y) (back z))
      park := fun x y z => Prod.map value value (c.lib.park (back x) (back y) (back z))
      invpark := fun x y z => Prod.map value value (c.lib.invpark (back x) (back y) (back z))
      svpwm := fun x y => Prod.map value (Prod.map value value) (c.lib.svpwm (back x) (back y))
      sincos := fun x => Prod.map value value (c.lib.sincos (back x))
      piControl := fun g s x y =>
        Prod.map value (valuePI value) (c.lib.piControl (gains g) (pis s) (back x) (back y))
      piInitRest := c.lib.piInitRest.map value },
    { sound := h
      rnd := fun x => ?_
      clarke := fun x y z => ?_
      park := fun x y z => ?_
      invpark := fun x y z => ?_
      svpwm := fun x y => ?_
      piControl := fun g s x y => ?_
      piInitRest := rfl }⟩
  · simp only [back, hv x]
  · simp only [back, hv x, hv y, hv z, Prod.map]
  · simp only [back, hv x, hv y, hv z, Prod.map]
  · simp only [back, hv x, hv y, hv z, Prod.map]
  · simp only [back, hv x, hv y, Prod.map]
  · simp only [gains, pis, back, valueGains, valuePI, hv x, hv y, hv _, hs _, hl, Prod.map]

/-- The machine computes what the model of R4 computes for some operator `rnd : Real -> NUM` and some
library over the real numbers. -/
theorem machine_computesAs :
    ∃ rnd lib, ComputesAs Config.machine (Rat.castHom ℝ) Num.toReal rnd lib :=
  exists_computesAs Config.machine num_sound

end Sys2Proof.Laws
end

