-- ==== Sys2Proof/Tests/Slice0.lean ====
section
/-! SUPPORT. The model's own tests. Expected values are the vectors of 95_test_vectors.md (named V and P
in the comments) or worked by hand from the rules; the vectors' parameters are `Config.tests`, the exact
model. The witnesses at the end show that the hypotheses of the statements can be met on the machine's
own configuration. -/

namespace Sys2Proof.Tests

open Sys2Proof Sys2Proof.Machine Sys2Proof.Safety Sys2Proof.Laws

/-! ### Decoding: the words of R65 and R67, bit by bit -/

theorem test_decode_events :
    decode 0b00000#5 = .ok .idle ∧ decode 0b00001#5 = .ok .sample ∧
      decode 0b00010#5 = .ok .control ∧ decode 0b00011#5 = .ok .fg := ⟨rfl, rfl, rfl, rfl⟩

theorem test_decode_filter :
    decode 0b10000#5 = .ok .filt ∧ decode 0b10001#5 = .ok .decimate ∧
      decode 0b10010#5 = .ok .curacq ∧ decode 0b11011#5 = .ok .settlepoll ∧
      decode 0b11100#5 = .ok .calpoll := ⟨rfl, rfl, rfl, rfl, rfl⟩

theorem test_decode_estimator : decode 0b10110#5 = .ok .posupd := rfl

theorem test_decode_vector_control :
    decode 0b10011#5 = .ok .curloop ∧ decode 0b10100#5 = .ok .angupd ∧
      decode 0b10101#5 = .ok .align := ⟨rfl, rfl, rfl⟩

theorem test_decode_duty : decode 0b10111#5 = .ok .dutygen := rfl

theorem test_decode_scheduler :
    decode 0b11000#5 = .ok .init ∧ decode 0b11001#5 = .ok .cpreset ∧
      decode 0b11010#5 = .ok .mstartBegin ∧ decode 0b11101#5 = .ok .mstartEnd ∧
      decode 0b11110#5 = .ok .mstop ∧ decode 0b11111#5 = .ok .slowloop :=
  ⟨rfl, rfl, rfl, rfl, rfl, rfl⟩

/-- R68: the twelve reserved words are rejected by name. -/
theorem test_decode_reserved :
    ∀ n ∈ [4, 5, 6, 7, 8, 9, 10, 11, 12, 13, 14, 15],
      decodeTableWord 5 n = none ∧ opcodeOf n = none := by decide

/-- A byte with bits above the operation word is no word; the rest of the bytes comes back. -/
theorem test_decode_bytes :
    decodeBytes [0x21#8] = .error (.notAWord 0x21#8) ∧ decodeBytes [] = .error .empty ∧
      decodeBytes [0x16#8, 0xFF#8] = .ok (.posupd, [0xFF#8]) := ⟨rfl, rfl, rfl⟩

/-! ### Well-formedness: one ill-formed term for each check -/

theorem test_wf_event_port :
    Instr.onEventPort .fg = true ∧ Instr.onEventPort .idle = true ∧ Instr.onEventPort .filt = false ∧
      Instr.onEventPort .slowloop = false := by decide

theorem test_wf_trace_accepts :
    traceWf .default [.reset, .idle, .sample (some 4294967295) (some 0), .control (some 65535),
      .fg none noButtons, .dispatch (some 0) noButtons, .samples 3 (-1) 7, .controls 2 none] = true := by
  decide

theorem test_wf_trace_refuses :
    ∀ l ∈ [TraceLine.sample (some 4294967296) none, .sample (some (-1)) none,
        .sample none (some 4294967296), .control (some 65536), .control (some (-1)),
        .fg (some 65536) noButtons, .dispatch (some 65536) noButtons],
      traceWf .default [l] = false ∧ (State.reset.loadTrace [l]).isNone = true := by decide

theorem test_wf_config_accepts :
    Config.tests.paramsOk = true ∧ Config.sourceExample.paramsOk = true := by decide +kernel

theorem test_wf_config_integers :
    ([{ Config.tests with decim := 0 }, { Config.tests with deltaMax := 2 ^ 32 },
      { Config.tests with deltaMax := 34359739 }, { Config.tests with widths := ⟨32, 12, 32⟩ },
      { Config.tests with widths := ⟨9, 32, 32⟩ },
      { Config.tests with deltaMax := 0, widths := ⟨0, 32, 32⟩ },
      { Config.tests with avgW0 := 0, avgW1 := 0, avgW2 := 0, avgW3 := 0 },
      { Config.tests with nCal := 0 }, { Config.tests with pper := 0 },
      { Config.tests with posLowerTh := 300 }, { Config.tests with posLowerTh := 49152 },
      { Config.tests with posUpperTh := 65000 }, { Config.tests with slowDiv := 0 },
      { Config.tests with inactWarn := 3 }].all fun c => !c.integersOk) = true := by
  decide +kernel

theorem test_wf_config_counts :
    ([{ Config.tests with decim := 2 ^ 32 }, { Config.tests with nSettle := 2 ^ 32 },
      { Config.tests with nCal := 2 ^ 32 }, { Config.tests with lockCount := 2 ^ 32 },
      { Config.tests with slowDiv := 2 ^ 32 }, { Config.tests with inactStop := 2 ^ 32 },
      { Config.tests with inactWarn := 2 ^ 32 },
      { Config.tests with widths := ⟨32, 32, 2⟩ }].all fun c => !c.countsFit) = true := by
  decide +kernel

theorem test_wf_config_reals :
    ([{ Config.tests with offsetMin := .ofRat 2001 }, { Config.tests with tSlow := 0 },
      { Config.tests with olIqRef := .ofRat (-1) }, { Config.tests with stopMargin := .ofRat (-1) },
      { Config.tests with stopDecStep := 0 }, { Config.tests with rampStepDefault := 0 },
      { Config.tests with velCmdMin := .ofRat 301 }, { Config.tests with velCmdMax := .ofRat 299 },
      { Config.tests with velCmdStep := .ofRat (-1) }, { Config.tests with velCmdMin := .ofRat (-1) },
      { Config.tests with gainsD := ⟨1, 1, 0, .ofRat 1, .ofRat (-1)⟩ },
      { Config.tests with gainsQ := ⟨1, 1, 0, .ofRat 1, .ofRat (-1)⟩ },
      { Config.tests with gainsVel := ⟨1, 1, 0, .ofRat 1, .ofRat (-1)⟩ }].all fun c => !c.realsOk) =
      true := by
  decide +kernel

/-! ### The real numbers: the order is exact, `pi` included -/

/-- 22/7 - pi > 0 > 3 - pi, and a number that twenty decimals of pi do not tell from it. -/
theorem test_num_order :
    let r := Num.reals
    r.lt r.pi (.ofRat (22 / 7)) = true ∧ r.lt (.ofRat 3) r.pi = true ∧
      r.le (r.twoPi - r.pi) r.pi = true ∧ r.lt r.pi r.pi = false ∧
      r.max (.ofRat 7) r.twoPi = .ofRat 7 ∧ r.clamp r.pi 0 (.ofRat 3) = .ofRat 3 ∧
      r.abs (.ofRat 3 - r.pi) = r.pi - .ofRat 3 := by decide +kernel

/-! ### The reference model over the real numbers themselves (R4) -/

/-- R94 to R97 with an irrational `CURRENT_GAIN`: the currents are exact. -/
theorem test_exact_curacq :
    let c : Config ℝ ℝ := { Config.exact with currentGain := Real.sqrt 2 }
    let held : PhaseFilter c.widths := { PhaseFilter.zero with out0 := 7, out1 := 7, out2 := 7, out3 := 7 }
    let s := { State.resetWith c with
      filt := ⟨held, .zero, 0, 0⟩, frames := [⟨.curacq, .quiet, .zero, []⟩] }
    (performWith c .curacq s).temps.iU = 7 * Real.sqrt 2 ∧
      (performWith c .curacq s).temps.iW = -(7 * Real.sqrt 2) := by
  intro c held s
  have hu : averageOf c s.filt.u = 7 := by
    show
      ((1 : ℕ) * (7 : ℕ) + (1 : ℕ) * (7 : ℕ) + (1 : ℕ) * (7 : ℕ) + (1 : ℕ) * (7 : ℕ))
        / ((1 : ℕ) + (1 : ℕ) + (1 : ℕ) + (1 : ℕ) : ℝ) = 7
    norm_num
  have hv : averageOf c s.filt.v = 0 := by
    show
      ((1 : ℕ) * (0 : ℕ) + (1 : ℕ) * (0 : ℕ) + (1 : ℕ) * (0 : ℕ) + (1 : ℕ) * (0 : ℕ))
        / ((1 : ℕ) + (1 : ℕ) + (1 : ℕ) + (1 : ℕ) : ℝ) = 0
    norm_num
  have iu : currentU c s = 7 * Real.sqrt 2 := by
    show Real.sqrt 2 * (averageOf c s.filt.u - 0) = _
    rw [hu]; ring
  have iv : currentV c s = 0 := by
    show Real.sqrt 2 * (averageOf c s.filt.v - 0) = _
    rw [hv]; ring
  have h : performWith c .curacq s =
      s.record fun t => { t with iU := currentU c s, iV := currentV c s, iW := currentW c s } := by
    show ((opCuracq c).run s).record ((opCuracq c).out s) = _
    rw [opCuracq, run_curAcq, out_curAcq]
    rfl
  rw [h]
  exact ⟨iu, by show -currentU c s - currentV c s = _; rw [iu, iv, sub_zero]⟩

/-- The library of R152 with the true sine and cosine. -/
theorem test_exact_library :
    Config.exact.lib.sincos (Real.pi / 6) = (1 / 2, Real.sqrt 3 / 2) ∧
      Config.exact.lib.clarke 0 3 (-3) = (0, 6 / Real.sqrt 3) := by
  refine ⟨Prod.ext Real.sin_pi_div_six Real.cos_pi_div_six, Prod.ext rfl ?_⟩
  show 1 / Real.sqrt 3 * (0 + 2 * 3) = _
  ring

/-! ### One step of each operation under the test configuration -/

/-- The states of the test configuration. -/
abbrev TestState := State Config.tests.widths Num

/-- The state after reset under the test configuration. -/
def base : TestState := State.resetWith Config.tests

/-- `base` with every handler registered and all hardware running. -/
def running : TestState :=
  { base with per := ⟨true, true, true, true, true, false, false⟩, seq := ⟨.running, .idle, 0⟩ }

/-- The next state of an operation under the test configuration. -/
def after (i : Instr) (s : TestState) : TestState := performWith Config.tests i s

/-- `s` in the middle of an invocation of `i` with the operands `t`. -/
def invoked (i : Instr) (t : Temps Config.tests.widths Num) (s : TestState) : TestState :=
  { s with frames := [⟨i, s.ports, t, []⟩] }

/-- A filter phase of zeros. -/
def zeroPhase : PhaseFilter Config.tests.widths := .zero

/-- No operands. -/
def noTemps : Temps Config.tests.widths Num := .zero

/-- The ports of the machine with nothing on them. -/
def quiet : MachinePorts := .quiet

/-- A rational number as a NUM. -/
abbrev rat (a : ℚ) : Num := .ofRat a

/-- A delay line holding one output four times. -/
def held (x : Acc Config.tests.widths) : PhaseFilter Config.tests.widths :=
  { zeroPhase with out0 := x, out1 := x, out2 := x, out3 := x }

/-- `s` with the input ports at `u`, `v`, `pos`. -/
def at' (u v : Count Config.tests.widths) (pos : Pos) (s : TestState) : TestState :=
  { s with ports := { s.ports with curCntU := u, curCntV := v, posCnt := pos } }

theorem test_idle : after .idle running = running := by decide +kernel

/-- V2: the delta wraps with the counter. -/
theorem test_sample_wraps :
    let s := after .sample (at' 4 0 0 { running with
      filt := { running.filt with u := { zeroPhase with prevRaw := 0xFFFFFFF0 } } })
    s.filt.u = { zeroPhase with prevRaw := 4, med0 := 20 } ∧ s.filt.decCnt = 1 := by
  decide +kernel

/-- V17: a masked SAMPLE changes nothing. -/
theorem test_sample_masked :
    after .sample (at' 5 5 0 { running with per := { running.per with curRun := false } }) =
      at' 5 5 0 { running with per := { running.per with curRun := false } } := by decide +kernel

/-- V2: a counter running backwards is clamped. -/
theorem test_filt_clamps :
    (after .filt (invoked .filt { noTemps with phase := .v, raw := 97 } { running with
      filt := { running.filt with v := { zeroPhase with prevRaw := 100 } } })).filt.v =
      { zeroPhase with prevRaw := 97, med0 := 1000 } := by decide +kernel

/-- V1, SAMPLE 7, phase U; phase V is left alone. -/
theorem test_filt_integrates :
    let s := after .filt (invoked .filt { noTemps with raw := 70 } { running with
      filt := { running.filt with u := { zeroPhase with
        prevRaw := 60, med0 := 10, med1 := 10, med2 := 10, integ1 := 50, integ2 := 150, integ3 := 350 } } })
    (s.filt.u.integ1, s.filt.u.integ2, s.filt.u.integ3) = (60, 210, 560) ∧ s.filt.v = .zero := by
  decide +kernel

/-- The configuration of V5: `AW` = 12, `DELTA_MAX` = 30. -/
def narrow : Config ℚ Num := { Config.tests with widths := ⟨32, 12, 32⟩, deltaMax := 30 }

/-- V5, SAMPLE 10: the third integrator wraps at 12 bits. -/
theorem test_filt_wraps :
    narrow.paramsOk = true ∧
      let f : PhaseFilter narrow.widths := ⟨270, 30, 30, 30, 240, 1080, 3600, 0, 0, 0, 0, 0, 0, 0⟩
      let s := performWith narrow .filt { State.resetWith narrow with
        frames := [⟨.filt, .quiet, ⟨.u, 300, 0, 0, 0, 0, 0, 0, 0, false⟩, []⟩]
        filt := ⟨f, f, 0, 0⟩ }
      (s.filt.u.integ1, s.filt.u.integ2, s.filt.u.integ3) = (270, 1350, 854) ∧ s.filt.v = f := by
  decide +kernel

/-- V1, the decimation event of SAMPLE 10. -/
theorem test_decimate :
    let s := after .decimate { running with
      filt := { running.filt with outCnt := 1, u := { zeroPhase with
        integ3 := 1650, comb1 := 200, comb2 := 200, comb3 := 200, out0 := 200 } } }
    s.filt.u = { zeroPhase with
      integ3 := 1650, comb1 := 1650, comb2 := 1450, comb3 := 1250, out0 := 1050, out1 := 200 } ∧
      s.filt.outCnt = 2 := by decide +kernel

/-- V5a; and with no operation in progress the results are nowhere (R42). -/
theorem test_curacq :
    let s : TestState := { running with
      filt := { running.filt with
        u := { zeroPhase with out0 := 1250, out1 := 1250, out2 := 1050, out3 := 200 }
        v := held 1200 }
      cal := { running.cal with offsetU := rat 900, offsetV := rat 1250 } }
    let t := (after .curacq (invoked .curacq .zero s)).temps
    (t.iU, t.iV, t.iW) = (rat (375 / 10000), rat (-5 / 100), rat (125 / 10000)) ∧
      after .curacq s = s := by decide +kernel

/-- V6, `out_cnt` 9 and 11 with `wait_base` 7. -/
theorem test_settlepoll :
    let s : TestState := { running with cal := { running.cal with waitBase := 7, sumU := 9, calN := 3 } }
    let t (n : Ctr Config.tests.widths) := after .settlepoll { s with filt := { s.filt with outCnt := n } }
    (t 9).cal = s.cal ∧ (t 9).seq.fgPhase = .idle ∧
      (t 11).cal = { s.cal with sumU := 0, sumV := 0, calN := 0, lastSeen := 11 } ∧
      (t 11).seq.fgPhase = .cal := by decide +kernel

/-- V6, last row: the offset of phase V is clamped. -/
theorem test_calpoll_done :
    let s := after .calpoll (invoked .calpoll .zero { running with
      filt := { running.filt with outCnt := 16, u := held 1250, v := held 2250 }
      cal := { running.cal with sumU := 3750, sumV := 6750, calN := 3, lastSeen := 15 } })
    s.cal = ⟨rat 1250, rat 2000, 5000, 9000, 4, 0, 16⟩ ∧ s.temps.done = true := by decide +kernel

/-- V6: no new decimated sample, no effect. -/
theorem test_calpoll_waits :
    let s := invoked .calpoll .zero { running with cal := { running.cal with calN := 2 } }
    (after .calpoll s).cal = s.cal ∧ (after .calpoll s).temps.done = false := by decide +kernel

/-- V8: overflow, and V9 (a): underflow from a zero accumulator. -/
theorem test_posupd_wraps :
    let p (prev raw : Pos) :=
      (after .posupd (at' 0 0 raw { running with pos := { running.pos with prev := prev } })).pos
    ((p 65000 300).comp, (p 65000 300).count, (p 65000 300).prev) = (536, 836, 300) ∧
      ((p 300 65000).comp, (p 300 65000).count) = (464, 464) := by decide +kernel

/-- V9 (c): the comparisons are strict. -/
theorem test_posupd_thresholds :
    let p (prev raw : Pos) :=
      (after .posupd (at' 0 0 raw { running with pos := { running.pos with prev := prev } })).pos
    (p 49152 100).count = 100 ∧ (p 49153 16384).count = 384 ∧ (p 49153 16383).count = 919 := by
  decide +kernel

/-- V11 (a), with the `v_d` of the informative PI. -/
theorem test_curloop_open :
    let s := after .curloop (invoked .curloop { noTemps with iD := rat (1 / 10) } { running with
      ctl := { running.ctl with direction := .minus, iqRef := rat (33 / 100), idRef := rat 7 } })
    s.ctl.iqRef = rat (-2 / 10) ∧ s.ctl.idRef = 0 ∧ s.temps.vD = rat (-11 / 100) ∧
      s.loops.d.integ = rat (-1 / 100) := by
  decide +kernel

/-- V11 (b): the handover edge. -/
theorem test_curloop_edge :
    let s := after .curloop { running with
      ctl := { running.ctl with mode := .closedLoop, changeMode := true, iqRef := rat (-2 / 10), idRef := rat 7 }
      loops := { running.loops with vel := ⟨rat (-5 / 10000), []⟩ } }
    s.ctl.changeMode = false ∧ s.ctl.iqRef = rat (-2 / 10) ∧ s.ctl.idRef = 0 ∧ s.loops.vel.integ = 0 := by
  decide +kernel

/-- R127: the mode selects ALIGN or POSUPD. -/
theorem test_angupd :
    let s := at' 0 0 25 running
    (after .angupd s).ctl.lockCnt = 1 ∧ (after .angupd s).pos.count = 0 ∧
      (after .angupd { s with ctl := { s.ctl with mode := .closedLoop } }).pos.count = 25 := by
  decide +kernel

/-- P3, CONTROL 4 with direction -1: the angle is pi/2. -/
theorem test_align_rotates :
    let s := after .align { running with
      ctl := { running.ctl with lockCnt := 3, direction := .minus } }
    s.pos.angle = (1 / 2 : ℚ) • Num.pi ∧ s.ctl.lockCnt = 3 ∧ s.ctl.rotCnt = 1 := by decide +kernel

/-- P3, CONTROL 7: the handover. -/
theorem test_align_handover :
    let s := after .align { running with
      pos := ⟨7, 5, 12, rat 1, 9, rat 4⟩
      ctl := { running.ctl with lockCnt := 3, rotCnt := 3 } }
    s.pos = ⟨0, 0, 0, 0, 0, rat 4⟩ ∧
      s.ctl = { running.ctl with
        lockCnt := 3, rotCnt := 3, mode := .closedLoop, changeMode := true, alignActive := false } := by
  decide +kernel

/-- V13, in the order U, V, W. -/
theorem test_dutygen :
    (after .dutygen (invoked .dutygen { noTemps with vQ := rat (3 / 10) } { running with
      pos := { running.pos with angle := (3 / 2 : ℚ) • Num.pi } })).duty =
      ⟨rat (725 / 1000), rat (275 / 1000), rat (275 / 1000)⟩ := by decide +kernel

/-- V12: one whole CONTROL. -/
theorem test_control :
    let s := after .control { running with
      filt := { running.filt with u := held 1350, v := held 1200 }
      cal := { running.cal with offsetU := rat 1250, offsetV := rat 1250 } }
    s.loops.d.integ = rat (-1 / 100) ∧ s.loops.q.integ = rat (2 / 100) ∧ s.pos.angle = .pi ∧
      s.ctl.lockCnt = 1 ∧ s.ctl.syncCnt = 1 ∧ s.ctl.iqRef = rat (2 / 10) ∧
      s.duty.u = rat (665 / 1000) := by
  decide +kernel

/-- R203: a masked CONTROL is not counted. -/
theorem test_control_masked :
    let s : TestState := { running with per := { running.per with pwmChEn := false } }
    after .control s = s := by decide +kernel

theorem test_init :
    let s := after .init { running with ctl := { running.ctl with direction := .minus } }
    s.ctl.direction = .plus ∧ s.per = { running.per with pwmPinsEn := false } := by decide +kernel

/-- R173: `direction` survives. -/
theorem test_cpreset :
    (after .cpreset { running with
      ctl :=
        ⟨.closedLoop, true, false, .minus, 1, 2, rat 3, rat 4, rat 5, rat 6, rat 7, 8, .run, .run,
          rat 9⟩ }).ctl =
      ⟨.openLoop, false, true, .minus, 0, 0, rat 300, rat 300, 0, 0, 0, 0, .stop, .stop, rat 5⟩ := by
  decide +kernel

theorem test_mstart_begin :
    let s := after .mstartBegin { base with
      filt := { base.filt with outCnt := 9 }, pos := ⟨1, 2, 3, rat 4, 5, rat 6⟩
      loops := ⟨⟨rat 1, []⟩, ⟨rat 2, []⟩, ⟨rat 3, []⟩⟩ }
    s.ctl.runStatus = .run ∧ s.ctl.runStatusPrev = .stop ∧ s.pos = ⟨0, 0, 0, 0, 0, 0⟩ ∧
      s.loops = base.loops ∧ s.per.posRun = true ∧ s.per.curRun = true ∧ s.per.pwmChEn = false ∧
      s.cal.waitBase = 9 ∧ s.seq.fgPhase = .settle := by decide +kernel

theorem test_mstart_end :
    let s := after .mstartEnd base
    s.outputs = { base.outputs with pwmPinsEn := true, pwmChEn := true, faultClr := true } := by
  decide +kernel

/-- R177: only the velocity controller is zeroed; the duties stay. -/
theorem test_mstop :
    let s := after .mstop { running with
      loops := ⟨⟨rat 1, []⟩, ⟨rat 2, []⟩, ⟨rat 3, []⟩⟩, duty := ⟨rat 1, rat 2, rat 3⟩ }
    s.per = ⟨true, false, false, false, false, false, false⟩ ∧
      s.loops = ⟨⟨rat 1, []⟩, ⟨rat 2, []⟩, ⟨0, []⟩⟩ ∧ s.duty = ⟨rat 1, rat 2, rat 3⟩ ∧ s.ctl.runStatus = .stop := by
  decide +kernel

/-- P2: the velocity of +2336 counts, and the saturated controller. -/
theorem test_slowloop :
    let s := after .slowloop (at' 0 0 800 { running with
      pos := { running.pos with velPrevRaw := 64000 }
      ctl := { running.ctl with velRamped := rat 300, runStatus := .run, runStatusPrev := .run } })
    s.pos.velEst = (2336 * 2 / 5 : ℚ) • Num.pi ∧ s.pos.velPrevRaw = 800 ∧ s.ctl.iqRef = rat (-1 / 2) ∧
      s.loops.vel.integ = 0 := by decide +kernel

/-- V10, second row: resynchronisation, and one step of the ramp. -/
theorem test_slowloop_resync :
    let s := after .slowloop (at' 0 0 40000 { running with
      pos := { running.pos with velPrevRaw := 123 }
      ctl := { running.ctl with runStatus := .run } })
    s.pos.velEst = 0 ∧ s.pos.velPrevRaw = 40000 ∧ s.ctl.runStatusPrev = .run ∧
      s.ctl.velRamped = rat 5 := by
  decide +kernel

/-- P4, `FG inc` with the gate due: slow loop, idle-soon indicator, then the button. -/
theorem test_fg_running :
    let s := after .fg { running with
      ports := { running.ports with btn := { inc := true } }
      seq := { running.seq with inactCnt := 1 }
      ctl := { running.ctl with syncCnt := 4, velRamped := rat 5, direction := .minus } }
    s.ctl.syncCnt = 0 ∧ s.ctl.velRamped = rat 10 ∧ s.per.indIdle = true ∧ s.ctl.velTarget = rat 350 ∧
      s.seq = ⟨.running, .idle, 0⟩ := by decide +kernel

/-- P4: the calibration ends, the PWM starts. -/
theorem test_fg_starts :
    let s := after .fg { base with
      filt := { base.filt with outCnt := 8, u := held 1250, v := held 1500 }
      cal := { base.cal with sumU := 3750, sumV := 4500, calN := 3, lastSeen := 7 }
      seq := ⟨.start, .cal, 9⟩ }
    s.seq = ⟨.running, .idle, 0⟩ ∧ s.cal.offsetU = rat 1250 ∧ s.cal.offsetV = rat 1500 ∧
      s.per.pwmChEn = true ∧ s.faultClr = true := by decide +kernel

/-- V7, exactly: `NORM(2pi)` and `NORM(-2pi)` are 0. -/
theorem test_norm :
    norm Config.tests (rat 3) = rat 3 ∧ norm Config.tests (rat 7) = rat 7 - Num.reals.twoPi ∧
      norm Config.tests (rat (-1 / 2)) = Num.reals.twoPi - rat (1 / 2) ∧
      norm Config.tests Num.reals.twoPi = 0 ∧ norm Config.tests (-Num.reals.twoPi) = 0 := by
  decide +kernel

/-- V3: two outliers in a row are not rejected, one is. -/
theorem test_median :
    median3 (w := .default) 1000 1000 10 = 1000 ∧ median3 (w := .default) 10 1000 10 = 10 ∧
      median3 (w := .default) 1 2 3 = 2 := by decide

/-! ### The step -/

/-- A state whose event port presents the word `w`. -/
def presenting (w : EvWord) : State :=
  { State.reset with ports := { quiet with stb := true, ev := w } }

/-- V17: reserved words and sub-operations are refused on the event port. -/
theorem test_step_refuses :
    step (presenting 0b00100#5) = .refused (.reservedWord 0b00100#5) ∧
      step (presenting 0b10000#5) = .refused (.subOperationOnPort 0b10000#5) := ⟨rfl, rfl⟩

/-- The word stored for the next step is what the next step performs. -/
theorem test_step_runs_word :
    step (State.reset.withFetchWord 5 0b00011) =
        mapNext present (execFg (presenting 0b00011#5)) ∧
      step (State.reset.withFetchWord 5 0b11000) =
        mapNext (fun t => presentUnlessWaiting (leaveEvent t))
          (execInit { State.reset with frames := [⟨.init, State.reset.ports, .zero, []⟩] }) :=
  ⟨rfl, rfl⟩

/-- P4, the first lines: both interrupts are masked after reset, then FG registers the handlers. -/
theorem test_step_first_events :
    ∃ a b c, step (presenting 0b00001#5) = .next a ∧ a.filt = State.reset.filt ∧
      step (presenting 0b00010#5) = .next b ∧ b.ctl = State.reset.ctl ∧
      step (presenting 0b00011#5) = .next c ∧ c.seq.app = .waitStart ∧ c.per.irqArmed = true :=
  ⟨_, _, _, rfl, rfl, rfl, rfl, rfl, rfl, rfl⟩

/-! ### Witnesses: the hypotheses of each statement are met, at the boundaries of each clause -/

/-- A counter at its largest value: at or above every count parameter. -/
def full : Ctr Config.machine.widths := BitVec.ofNat _ (2 ^ Config.machine.widths.ctr - 1)

theorem full_toNat : full.toNat = 2 ^ Config.machine.widths.ctr - 1 := by decide

theorem slowDiv_le_full : Config.machine.slowDiv ≤ full.toNat := by
  rw [full_toNat]
  have := machine_counts.2.2.2.2.1
  omega

theorem lockCount_le_full : Config.machine.lockCount ≤ full.toNat := by
  rw [full_toNat]
  have := machine_counts.2.2.2.1
  omega

/-- A run made by performing `i` again and again on the ports `p`. -/
def iterate (i : Instr) (p : Nat → MachinePorts) (s : State) : Nat → State
  | 0 => s
  | k + 1 => performWith Config.machine i { iterate i p s k with ports := p k }

/-- The state after reset with the handlers registered, all hardware running and the application in
`a`. -/
def ready (a : AppState) : State :=
  { State.reset with per := ⟨true, true, true, true, true, true, false⟩, seq := ⟨a, .idle, 0⟩ }

/-- The ranges and the format of every register after reset: what several witnesses below start from. -/
theorem reset_inv : RangesOk Config.machine State.reset ∧ FormatOk Config.machine State.reset := by
  obtain ⟨h1, -, -, -, -, h2, -⟩ := machine_integers
  obtain ⟨-, -, -, -, -, hs, h3, h4, -, h0, -⟩ := machine_reals
  have z := machine_valid.rounding.zero
  have p := machine_valid.format.initial
  have hd := machine_valid.rounding.velCmdDefault
  have z0 : (0 : Sys2Proof.Num).toReal = 0 := toReal_zero
  refine ⟨⟨h1, h2, h2, z0.ge, ?_, Nat.zero_le _, Nat.zero_le _, (fun h => nomatch h), h3, h4,
    h0.trans h3, z0.ge, hs⟩, ⟨z, z, z, z, hd, hd, z, z, z, machine_valid.rounding.rampStep, p, p, p,
    z, z, z⟩⟩
  exact z0.trans_lt (mul_pos two_pos Real.pi_pos)

theorem exec_sample (s : State) : exec .sample s = .next (performWith Config.machine .sample s) := rfl

theorem exec_control (s : State) :
    exec .control s = .next (performWith Config.machine .control s) := rfl

/-- EventPortRefusesOtherWords, at both ends of both ranges, under both grains. -/
theorem witness_refuses :
    ∀ w ∈ [4#5, 15#5, 16#5, 31#5],
      let s := presenting w
      let t : State := { presenting w with preempt := .fieldAtomic, frames := [⟨.fg, Ports.quiet, .zero, []⟩] }
      (s.ports.rst = false ∧ s.ports.stb = true ∧
        (s.preempt = .eventAtomic ∧ s.frames = [] ∨ s.preempt = .fieldAtomic)) ∧
      (t.ports.rst = false ∧ t.ports.stb = true ∧
        (t.preempt = .eventAtomic ∧ t.frames = [] ∨ t.preempt = .fieldAtomic)) ∧
      (4 ≤ s.ports.ev.toNat ∧ s.ports.ev.toNat ≤ 15 ∨ 16 ≤ s.ports.ev.toNat) := by
  intro w hw
  refine ⟨⟨rfl, rfl, Or.inl ⟨rfl, rfl⟩⟩, ⟨rfl, rfl, Or.inr rfl⟩, ?_⟩
  simp only [presenting]
  revert w
  decide

/-- StepRunsTheEventOnThePort, with and without an event. -/
theorem witness_step_event :
    let s := presenting 0b00010#5
    (s.preempt = .eventAtomic ∧ s.frames = [] ∧ s.ports.rst = false ∧ s.ports.stb = true ∧
      decode s.ports.ev = .ok .control ∧ Instr.control.opClass = .event) ∧
    State.reset.preempt = .eventAtomic ∧ State.reset.frames = [] ∧
      State.reset.ports.rst = false ∧ State.reset.ports.stb = false :=
  ⟨⟨rfl, rfl, rfl, rfl, rfl, rfl⟩, rfl, rfl, rfl, rfl⟩

/-- StepRunsTheInvokedOperation. -/
theorem witness_step_invoked :
    let s : State := { State.reset with frames := [⟨.align, State.reset.ports, .zero, []⟩] }
    s.preempt = .eventAtomic ∧ s.ports.rst = false ∧ s.frames = [⟨.align, s.ports, .zero, []⟩] :=
  ⟨rfl, rfl, rfl⟩

/-- ResetPutsRegistersInTheirValues. -/
theorem witness_reset :
    let s : State := { ready .running with ports := { quiet with rst := true } }
    s.ports.rst = true := rfl

/-- The six statements of FG, one state each. -/
theorem witness_fg_states :
    State.reset.seq.app = .init ∧
      ∀ a ∈ [AppState.waitStart, .start, .running, .stopDecrease, .stopped], (ready a).seq.app = a :=
  ⟨rfl, fun _ _ => rfl⟩

/-- DecimatedOutputIsTheFilterSum, at its first decimation event. -/
theorem witness_filter_sum :
    let p : Nat → MachinePorts := fun k => { quiet with curCntU := BitVec.ofNat _ (k + 1) }
    let s := ready .running
    let f := iterate .sample p s
    RunOf .sample p f 5 ∧ (f 0).per.irqArmed = true ∧ (f 0).per.curRun = true ∧
      (f 0).filt = ⟨.zero, .zero, 0, 0⟩ ∧ 0 < 5 ∧ 5 ≤ 5 ∧ 5 % 5 = 0 :=
  ⟨fun _ _ => exec_sample _, rfl, rfl, rfl, by decide, by decide, by decide⟩

/-- SteadyStateGainIs125, at the smallest and the largest `D`, at the first decimation event it speaks of
and at one of any number after it. -/
theorem witness_steady :
    ∀ D ∈ [0, BitVec.ofNat _ Config.machine.deltaMax], ∀ m : Nat,
      let s := ready .running
      let p : Nat → MachinePorts := fun k =>
        { quiet with
          curCntU := s.filt.u.prevRaw + BitVec.ofNat _ (k + 1) * D
          curCntV := s.filt.v.prevRaw + BitVec.ofNat _ (k + 1) * D }
      let f := iterate .sample p s
      RunOf .sample p f (20 + 5 * m) ∧ (f 0).per.irqArmed = true ∧ (f 0).per.curRun = true ∧
        (f 0).filt.decCnt = 0 ∧ D.toNat ≤ Config.machine.deltaMax ∧ ConstantDelta D (f 0) p ∧
        20 ≤ 20 + 5 * m ∧ (20 + 5 * m) % 5 = 0 := by
  intro D hD m
  refine ⟨fun _ _ => exec_sample _, rfl, rfl, rfl, ?_, fun _ => ⟨rfl, rfl⟩, by omega, by omega⟩
  simp only [List.mem_cons, List.not_mem_nil, or_false] at hD
  rcases hD with h | h
  · rw [h]
    simp
  · rw [h, BitVec.toNat_ofNat]
    exact Nat.mod_le _ _

/-- PollWithoutSamplesChangesNothing: the calibration wait, and the settle wait where one is
configured. -/
theorem witness_poll :
    let s : State := { State.reset with seq := ⟨.start, .cal, 0⟩ }
    let t : State := { State.reset with seq := ⟨.start, .settle, 0⟩ }
    (s.seq.app = .start ∧ s.seq.fgPhase = .cal ∧ s.filt.outCnt = s.cal.lastSeen) ∧
      (1 ≤ Config.machine.nSettle →
        t.seq.app = .start ∧ t.seq.fgPhase = .settle ∧
          (t.filt.outCnt - t.cal.waitBase).toNat < Config.machine.nSettle) :=
  ⟨⟨rfl, rfl, rfl⟩, fun h => ⟨rfl, rfl, h⟩⟩

/-- OffsetsAreCalibratedBeforePwm: the poll that completes the calibration. -/
theorem witness_offsets :
    let s : State :=
      { State.reset with
        seq := ⟨.start, .cal, 0⟩
        filt := { State.reset.filt with outCnt := 1 }
        cal := { State.reset.cal with calN := BitVec.ofNat _ (Config.machine.nCal - 1) } }
    ∃ t, exec .fg s = .next t ∧ s.seq.app = .start ∧ t.seq.app = .running := by
  intro s
  have h : calDone Config.machine s = true := by
    have h1 := machine_integers.2.2.2.2.1
    have h2 := machine_counts.2.2.1
    have h3 : s.cal.calN.toNat < Config.machine.nCal := by
      simp only [s, BitVec.toNat_ofNat]
      exact lt_of_le_of_lt (Nat.mod_le _ _) (by omega)
    have h4 : s.cal.calN.toNat = Config.machine.nCal - 1 := by
      simp only [s, BitVec.toNat_ofNat]
      exact Nat.mod_eq_of_lt (by omega)
    simp only [calDone, counter_succ h2 h3, h4, Bool.and_eq_true, decide_eq_true_eq]
    exact ⟨by decide, by omega⟩
  refine ⟨fgState Config.machine s, ?_, rfl, ?_⟩
  · show Host.Outcome.next ((fgBody Config.machine s.ports .stop).run s) = _
    rw [run_fgBody]
    rfl
  · simp only [fgState, startStepState, s]
    rw [if_pos h]

/-- MovementInsideTheBoundIsTracked: one count up over the top, one down below zero, none. -/
theorem witness_movement :
    ∀ x ∈ [((65535#16 : Pos), (1 : Int)), (0#16, -1), (300#16, 0)],
      let s : State :=
        { State.reset with
          pos := { State.reset.pos with prev := x.1, count := x.1.toNat % Config.machine.pper }
          ports := { quiet with posCnt := BitVec.ofInt POS_W (x.1.toNat + x.2) } }
      x.2.natAbs ≤ movementBound Config.machine ∧
        s.ports.posCnt = BitVec.ofInt POS_W (s.pos.prev.toNat + x.2) ∧
        s.pos.count = (s.pos.prev.toNat + s.pos.comp) % Config.machine.pper := by
  intro x hx
  refine ⟨?_, rfl, rfl⟩
  have h1 := machine_integers.2.2.2.2.2.2.1
  have h2 := machine_integers.2.2.2.2.2.2.2.1
  have h3 := machine_integers.2.2.2.2.2.2.2.2.1
  have h4 : x.2.natAbs ≤ 1 := by
    revert x
    decide
  refine le_trans h4 (le_min ?_ (le_min ?_ ?_)) <;> omega

/-- NormIsValidOnItsRange: the reference model over the real numbers, and over the machine's numbers. -/
theorem witness_norm :
    (Config.exact.real.Sound (RingHom.id ℝ) id ∧ Config.exact.ExactModel) ∧
      Config.tests.real.Sound (Rat.castHom ℝ) Num.toReal ∧ Config.tests.ExactModel :=
  ⟨⟨exact_sound, fun _ => rfl⟩, num_sound, fun _ => rfl⟩

/-- SignedDeltaIsTheMovement, at the ends of its range and at the alias. -/
theorem witness_signed :
    ∀ d ∈ [(-32768 : Int), 0, 32767, 32768], -32768 ≤ d ∧ d ≤ 32768 := by decide

/-- FirstSlowLoopResynchronises: right after MSTART_BEGIN. -/
theorem witness_first_slow_loop :
    let s := mstartBeginState Config.machine State.reset
    s.ctl.runStatusPrev = .stop ∧ s.ctl.runStatus = .run := ⟨rfl, rfl⟩

/-- AlignmentFollowsItsSchedule: a run of any length from reset with the PWM running, with `k` at the
handover and after it; and at the ends of both holds where the lock time is not 0. -/
theorem witness_alignment :
    let L := Config.machine.lockCount
    let f := iterate .control (fun _ => Ports.quiet) (ready .running)
    (RunOf .control (fun _ => Ports.quiet) f (2 * L + 2) ∧
      (f 0).per.irqArmed = true ∧ (f 0).per.pwmChEn = true ∧ (f 0).ctl.mode = .openLoop ∧
      (f 0).ctl.alignActive = true ∧ (f 0).ctl.changeMode = false ∧ (f 0).ctl.lockCnt = 0 ∧
      (f 0).ctl.rotCnt = 0) ∧
    (1 ≤ 2 * L + 1 ∧ 2 * L + 1 ≤ 2 * L + 2) ∧ (1 ≤ 2 * L + 2 ∧ 2 * L + 1 < 2 * L + 2) ∧
    (1 ≤ L → (1 ≤ 1 ∧ 1 ≤ L ∧ L ≤ 2 * L + 2) ∧ (L < L + 1 ∧ L + 1 ≤ 2 * L ∧ L < 2 * L)) := by
  refine ⟨⟨fun _ _ => exec_control _, rfl, rfl, rfl, rfl, rfl, rfl, rfl⟩, ?_, ?_, ?_⟩ <;> omega

/-- The lock time of the vectors is not 0. -/
theorem witness_alignment_lock_time : 1 ≤ Config.tests.lockCount := by decide

/-- ModeChangeIsRaisedByTheHandoverOnly: the handover, and CPRESET after it. -/
theorem witness_mode_change :
    (let s : State :=
        { State.reset with ctl := { State.reset.ctl with lockCnt := full, rotCnt := full } }
      ∃ t, exec .align s = .next t ∧ s.ctl.changeMode = false ∧ t.ctl.changeMode = true) ∧
    (let s := handoverState State.reset
      ∃ t, exec .cpreset s = .next t ∧ s.ctl.alignActive = false ∧ t.ctl.alignActive = true) := by
  refine ⟨?_, _, rfl, rfl, rfl⟩
  intro s
  refine ⟨alignState Config.machine s, ?_, rfl, ?_⟩
  · show Host.Outcome.next ((align Config.machine .stop).run s) = _
    rw [run_align]
    rfl
  · have h := lockCount_le_full
    have e1 : s.ctl.alignActive = true := rfl
    have e2 : ¬ s.ctl.lockCnt.toNat < Config.machine.lockCount := by simp only [s]; omega
    have e3 : ¬ s.ctl.rotCnt.toNat < Config.machine.lockCount := by simp only [s]; omega
    rw [alignState, if_pos e1, if_neg e2, if_neg e3]
    rfl

/-- LifecycleHasNoOtherTransition: an FG step and another event. -/
theorem witness_lifecycle :
    (∃ t, exec .fg State.reset = .next t) ∧ ∃ t, exec .control (ready .running) = .next t :=
  ⟨⟨_, rfl⟩, _, rfl⟩

/-- DirectionIsFixedDuringARun: INIT, and the two FG steps that write `direction`. -/
theorem witness_direction :
    let minus (a : AppState) : State :=
      { ready a with ctl := { State.reset.ctl with direction := .minus } }
    let pressed : State :=
      { ready .waitStart with ports := { quiet with btn := { dir := true } } }
    (∃ t, exec .init (minus .init) = .next t ∧ t.ctl.direction ≠ (minus .init).ctl.direction) ∧
      (∃ t, exec .fg (minus .init) = .next t ∧ t.ctl.direction ≠ (minus .init).ctl.direction) ∧
      ∃ t, exec .fg pressed = .next t ∧ t.ctl.direction ≠ pressed.ctl.direction :=
  ⟨⟨_, rfl, by decide⟩, ⟨_, rfl, by decide⟩, _, rfl, by decide⟩

/-- InactivityStopsTheMotor, one tick before the threshold, at it and at the counter's top. -/
theorem witness_inactivity :
    ∀ n ∈ [59998, 59999, 4294967294],
      let s : State :=
        { ready .running with
          seq := ⟨.running, .idle, BitVec.ofNat _ n⟩
          ctl := { State.reset.ctl with syncCnt := full } }
      s.seq.app = .running ∧ s.ports.btn = noButtons ∧
        Config.machine.slowDiv ≤ s.ctl.syncCnt.toNat ∧ s.seq.inactCnt.toNat + 1 < 2 ^ Config.machine.widths.ctr := by
  intro n hn
  refine ⟨rfl, rfl, slowDiv_le_full, ?_⟩
  simp only
  revert n
  decide

/-- StopDecreaseNeverRaisesTheTarget: right after reset but in StopDecrease, with the ramp below its target
(where the default velocity is not 0), above it and at it, at the exit threshold and above it. -/
theorem witness_stop_decrease :
    let d := Config.machine.velCmdDefault
    ∀ x ∈ [(d, (0 : Sys2Proof.Num)), (0, d), (d, d)],
      let s : State :=
        { ready .stopDecrease with
          ctl := { State.reset.ctl with velTarget := x.1, velRamped := x.2 } }
      (s.seq.app = .stopDecrease ∧ RangesOk Config.machine s ∧ FormatOk Config.machine s) ∧
        (s.ctl.velTarget.toReal ≤ s.ctl.velRamped.toReal ∨
          s.ctl.velRamped.toReal ≤ s.ctl.velTarget.toReal) ∧
        (signOf s.ctl.direction : ℝ) * s.pos.velEst.toReal ≤ 110 := by
  intro d x hx s
  have z := machine_valid.rounding.zero
  have hd : 0 ≤ d.toReal := by
    have h := machine_reals
    exact h.2.2.2.2.2.2.2.2.2.1.trans h.2.2.2.2.2.2.1
  have hv : Config.machine.Representable d := machine_valid.rounding.velCmdDefault
  have hx' : (0 ≤ x.1.toReal ∧ 0 ≤ x.2.toReal) ∧
      Config.machine.Representable x.1 ∧ Config.machine.Representable x.2 := by
    simp only [List.mem_cons, List.not_mem_nil, or_false] at hx
    rcases hx with h | h | h <;> rw [h] <;> simp [hd, hv, z]
  obtain ⟨hr, hf⟩ := reset_inv
  refine ⟨⟨rfl, ⟨hr.decCnt, hr.comp, hr.count, hr.angleLow, hr.angleHigh, hr.lockCnt, hr.rotCnt,
    (fun h => nomatch h), hr.velCmdLow, hr.velCmdHigh, hx'.1.1, hx'.1.2, hr.rampStep⟩,
    { hf with velTarget := hx'.2.1, velRamped := hx'.2.2 }⟩, le_total _ _, ?_⟩
  show (((1 : ℚ) : ℝ)) * (0 : Sys2Proof.Num).toReal ≤ 110
  simp

/-- FaultClearIsPulsedAtStartOnly: MSTART_END; and under `fieldAtomic` the same with its last write to
make after the pulse has begun. -/
theorem witness_fault_clear :
    (∃ t, exec .mstartEnd State.reset = .next t ∧ State.reset.faultClr = false) ∧
      let s : State :=
        { State.reset with
          preempt := .fieldAtomic, faultClr := true
          frames := [⟨.mstartEnd, Ports.quiet, .zero, [.wrote, .wrote]⟩] }
      s.preempt = .fieldAtomic ∧ s.ports.rst = false ∧ underWay s = true ∧ s.faultClr = true ∧
        ∃ t, step s = .next t :=
  ⟨⟨_, rfl, rfl⟩, rfl, rfl, rfl, rfl, _, rfl⟩

/-- AgentsWriteOnlyTheirRegisters: one event of each agent, FG in Running. -/
theorem witness_agents :
    (∃ t, exec .sample (ready .running) = .next t) ∧
      (∃ t, exec .control (ready .running) = .next t) ∧
      (∃ t, exec .fg (ready .running) = .next t) ∧ (ready .running).seq.app ≠ .start ∧
      (ready .running).seq.app ≠ .stopped :=
  ⟨⟨_, rfl⟩, ⟨_, rfl⟩, ⟨_, rfl⟩, by decide, by decide⟩

/-- The machine in WaitStart with the start button pressed. -/
def startPressed : State :=
  { State.reset with
    per := { State.reset.per with irqArmed := true }
    seq := ⟨.waitStart, .idle, 0⟩
    ports := { quiet with stb := true, ev := 0b00011#5, btn := { start := true } } }

/-- InvariantIsKeptByEveryStep: a state of the invariant whose step performs an event. -/
theorem witness_invariant :
    MachineInvariant startPressed ∧ ∃ t, step startPressed = .next t ∧ t.seq.app = .start := by
  obtain ⟨hr, hf⟩ := reset_inv
  refine ⟨⟨rfl, rfl, ⟨hr.decCnt, hr.comp, hr.count, hr.angleLow, hr.angleHigh, hr.lockCnt, hr.rotCnt,
    (fun h => nomatch h), hr.velCmdLow, hr.velCmdHigh, hr.velTarget, hr.velRamped, hr.rampStep⟩, { hf with },
    ⟨by decide, by decide⟩, ⟨by decide, by decide, by decide, by decide, by decide, by decide⟩,
    (fun h => nomatch h)⟩, _, rfl, rfl⟩

/-- UndisturbedEventIsAtomic: an admitted SAMPLE. -/
theorem witness_undisturbed :
    let s : State :=
      { ready .running with
        preempt := .fieldAtomic, ports := { quiet with stb := true, ev := 0b00001#5 } }
    s.preempt = .fieldAtomic ∧ s.frames = [] ∧ s.script = [] ∧ s.ports.rst = false ∧
      s.ports.stb = true ∧ decode s.ports.ev = .ok .sample ∧ Instr.sample.opClass = .event ∧
      Instr.sample ≠ .idle ∧ admitted .sample s = true :=
  ⟨rfl, rfl, rfl, rfl, rfl, rfl, rfl, by decide, rfl⟩

/-- PriorityDecidesWhatPreempts: every pair of an event on the port and an operation in progress, under
every priority. -/
theorem witness_priority :
    ∀ x ∈ [(0b00001#5, Instr.sample), (0b00010#5, .control), (0b00011#5, .fg)],
      ∀ op ∈ [Instr.sample, .control, .fg], ∀ pr ∈ [Prio.noNest, .sampleHigh, .controlHigh],
        let s : State :=
          { ready .running with
            preempt := .fieldAtomic, prio := pr, frames := [⟨op, Ports.quiet, .zero, []⟩]
            ports := { quiet with stb := true, ev := x.1 } }
        s.preempt = .fieldAtomic ∧ s.ports.rst = false ∧ s.ports.stb = true ∧
          decode s.ports.ev = .ok x.2 ∧ (x.2 = .sample ∨ x.2 = .control ∨ x.2 = .fg) ∧
          s.frames = [⟨op, Ports.quiet, .zero, []⟩] ∧ (op = .sample ∨ op = .control ∨ op = .fg) := by
  intro x hx op hop pr _
  refine ⟨rfl, rfl, rfl, ?_, ?_, rfl, ?_⟩
  · simp only [List.mem_cons, List.not_mem_nil, or_false] at hx
    rcases hx with h | h | h <;> rw [h] <;> rfl
  · revert x
    decide
  · revert op
    decide

/-- GateCanLoseAControlTick: with a CONTROL on the port, and without. -/
theorem witness_gate :
    let s (b : Bool) : State :=
      { ready .running with
        preempt := .fieldAtomic
        frames := [⟨.fg, Ports.quiet, .zero, [.app .running, .ctr full]⟩]
        ports := { quiet with stb := b, ev := 0b00010#5 } }
    (∀ b, (s b).preempt = .fieldAtomic ∧ (s b).ports.rst = false ∧
      (s b).frames = [⟨.fg, Ports.quiet, .zero, [.app .running, .ctr full]⟩] ∧
      Config.machine.slowDiv ≤ full.toNat) ∧
    ((s true).ports.stb = true ∧ (s true).ports.ev = 0b00010#5 ∧ (s true).per.irqArmed = true ∧
      (s true).per.pwmChEn = true) ∧ (s false).ports.stb = false :=
  ⟨fun _ => ⟨rfl, rfl, rfl, slowDiv_le_full⟩, ⟨rfl, rfl, rfl, rfl⟩, rfl⟩

end Sys2Proof.Tests
end

section
/-! PROOFS. The machine invariant holds at reset and every step keeps it (O56, O57). The invariant is read
and replaced one register group at a time: a rule that writes some groups owes their predicates only, and
the place in the lifecycle is argued where an FG step moves it. -/

namespace Sys2Proof.Safety

open Sys2Proof Sys2Proof.Machine Sys2Proof.Laws

/-! ### Rounding (R4; log 2) -/

theorem representable_zero : Config.machine.Representable 0 := machine_valid.rounding.zero

theorem representable_rnd (x : Num) : Config.machine.Representable (Config.machine.rnd x) :=
  machine_valid.rounding.idem x

/-- Rounding does not cross a value of the format from above. -/
theorem le_rnd {b x : Num} (hb : Config.machine.Representable b) (h : b.toReal ≤ x.toReal) :
    b.toReal ≤ (Config.machine.rnd x).toReal := by
  have hm := machine_valid.rounding.mono b x h
  rwa [show Config.machine.rnd b = b from hb] at hm

/-- Rounding does not cross a value of the format from below. -/
theorem rnd_le {x b : Num} (hb : Config.machine.Representable b) (h : x.toReal ≤ b.toReal) :
    (Config.machine.rnd x).toReal ≤ b.toReal := by
  have hm := machine_valid.rounding.mono x b h
  rwa [show Config.machine.rnd b = b from hb] at hm

theorem rnd_nonneg {x : Num} (h : 0 ≤ x.toReal) : 0 ≤ (Config.machine.rnd x).toReal := by
  have h0 := le_rnd representable_zero (x := x) (by rwa [toReal_zero])
  rwa [toReal_zero] at h0

/-! ### Angles (R5, R110, R111) -/

/-- What the invariant asks of a value of `angle`. -/
structure AngleOk (x : Num) : Prop where
  format : Config.machine.Representable x
  low : 0 ≤ x.toReal
  high : x.toReal < 2 * Real.pi

theorem angleOk_zero : AngleOk 0 :=
  ⟨representable_zero, toReal_zero.ge, by rw [toReal_zero]; exact Real.two_pi_pos⟩

/-- A turn at most, rounded and normalised, is an angle: where rounding reaches a full turn, NORM takes
one off, and what is left lies below `rnd(rnd(TWO_PI) - TWO_PI)`. -/
theorem angleOk_norm {x : Num} (h0 : 0 ≤ x.toReal) (h1 : x.toReal ≤ 2 * Real.pi) :
    AngleOk (Machine.norm Config.machine (Config.machine.rnd x)) := by
  have hlow := rnd_nonneg h0
  unfold Machine.norm
  split
  next hge =>
    rw [machine_real, le_iff, toReal_twoPi] at hge
    have hup : (Config.machine.rnd x).toReal ≤ (Config.machine.rnd Num.reals.twoPi).toReal :=
      machine_valid.rounding.mono x _ (by rwa [toReal_twoPi])
    refine ⟨representable_rnd _, rnd_nonneg ?_,
      (machine_valid.rounding.mono _ _ ?_).trans_lt machine_valid.rounding.turn⟩
    · rw [machine_real, toReal_sub, toReal_twoPi]
      linarith
    · rw [machine_real, toReal_sub, toReal_sub]
      linarith
  next hlt =>
    rw [machine_real, le_iff, toReal_twoPi, not_le] at hlt
    have hneg : ¬ Config.machine.real.lt (Config.machine.rnd x) 0 = true := by
      rw [machine_real, lt_iff, toReal_zero, not_lt]; exact hlow
    rw [if_neg hneg]
    exact ⟨representable_rnd x, hlow, hlt⟩

/-- The angle of a position count (R110). -/
theorem angleOk_count {n : Nat} (hn : n < Config.machine.pper) :
    AngleOk (Machine.norm Config.machine
      (Config.machine.rnd (((n : ℚ) / Config.machine.pper) • Config.machine.real.twoPi))) := by
  have hle : (n : ℝ) ≤ Config.machine.pper := by exact_mod_cast hn.le
  have hpos : (0 : ℝ) < Config.machine.pper := by exact_mod_cast Nat.zero_lt_of_lt hn
  have htop : (n : ℝ) / Config.machine.pper ≤ 1 := (div_le_one hpos).2 hle
  have hval : ((((n : ℚ) / Config.machine.pper) • Config.machine.real.twoPi : Num)).toReal =
      (n : ℝ) / Config.machine.pper * (2 * Real.pi) := by
    rw [toReal_smul, machine_real, toReal_twoPi]; push_cast; rfl
  refine angleOk_norm ?_ ?_ <;> rw [hval]
  · have := Real.two_pi_pos; positivity
  · exact mul_le_of_le_one_left Real.two_pi_pos.le htop

/-- The angle of the field lock (R128), with the source's `ALIGN_ANGLE`. -/
theorem angleOk_lock :
    AngleOk (Machine.norm Config.machine (Config.machine.rnd Config.machine.alignAngle)) := by
  have := Real.pi_pos
  refine angleOk_norm ?_ ?_ <;> rw [machine_alignAngle, toReal_pi] <;> linarith

/-- The angle of the forced rotation, a quarter turn to either side (R128). -/
theorem angleOk_rotation (d : Direction) :
    AngleOk (Machine.norm Config.machine (Config.machine.rnd
      (Config.machine.alignAngle + ((signOf d : ℚ) / 2) • Config.machine.real.pi))) := by
  have := Real.pi_pos
  refine angleOk_norm ?_ ?_ <;>
    rw [machine_alignAngle, toReal_add, toReal_smul, machine_real, reals_pi, toReal_pi] <;>
    cases d <;> norm_num [signOf] <;> linarith

/-! ### The invariant, one register group at a time -/

/-- What the invariant asks of the estimator. -/
structure PositionOk (p : Position Num) : Prop where
  comp : p.comp < Config.machine.pper
  count : p.count < Config.machine.pper
  angle : AngleOk p.angle
  velEst : Config.machine.Representable p.velEst

/-- What the invariant asks of the control registers. -/
structure ControlOk (k : Control Config.machine.widths Num) : Prop where
  lockCnt : k.lockCnt.toNat ≤ Config.machine.lockCount
  rotCnt : k.rotCnt.toNat ≤ Config.machine.lockCount
  velCmdLow : Config.machine.velCmdMin.toReal ≤ k.velCmd.toReal
  velCmdHigh : k.velCmd.toReal ≤ Config.machine.velCmdMax.toReal
  velCmd : Config.machine.Representable k.velCmd
  velTargetLow : 0 ≤ k.velTarget.toReal
  velTarget : Config.machine.Representable k.velTarget
  velRampedLow : 0 ≤ k.velRamped.toReal
  velRamped : Config.machine.Representable k.velRamped
  idRef : Config.machine.Representable k.idRef
  iqRef : Config.machine.Representable k.iqRef
  rampStepPos : 0 < k.rampStep.toReal
  rampStep : Config.machine.Representable k.rampStep
  align : k.alignActive = true ↔ k.mode = .openLoop
  edge : k.changeMode = true → k.mode = .closedLoop

/-- What the invariant asks of the controllers. -/
structure LoopsOk (l : Loops Num) : Prop where
  d : Config.machine.RepresentablePI l.d
  q : Config.machine.RepresentablePI l.q
  vel : Config.machine.RepresentablePI l.vel

/-- What the invariant asks of the duties. -/
structure DutyOk (d : Duty Num) : Prop where
  u : Config.machine.Representable d.u
  v : Config.machine.Representable d.v
  w : Config.machine.Representable d.w

/-- What the invariant asks of the calibration, the sequencer and the peripherals: they move together. -/
structure PlaceOk (s : State) : Prop where
  offsetU : Config.machine.Representable s.cal.offsetU
  offsetV : Config.machine.Representable s.cal.offsetV
  calN : s.seq.fgPhase = .cal → s.cal.calN.toNat < Config.machine.nCal
  lifecycle : LifecycleOk s
  offsets : OffsetsOk Config.machine s

namespace MachineInvariant

variable {s : State}

theorem position (h : MachineInvariant s) : PositionOk s.pos :=
  ⟨h.ranges.comp, h.ranges.count, ⟨h.format.angle, h.ranges.angleLow, h.ranges.angleHigh⟩,
    h.format.velEst⟩

theorem control (h : MachineInvariant s) : ControlOk s.ctl :=
  { lockCnt := h.ranges.lockCnt
    rotCnt := h.ranges.rotCnt
    velCmdLow := h.ranges.velCmdLow
    velCmdHigh := h.ranges.velCmdHigh
    velCmd := h.format.velCmd
    velTargetLow := h.ranges.velTarget
    velTarget := h.format.velTarget
    velRampedLow := h.ranges.velRamped
    velRamped := h.format.velRamped
    idRef := h.format.idRef
    iqRef := h.format.iqRef
    rampStepPos := h.ranges.rampStep
    rampStep := h.format.rampStep
    align := h.mode.align
    edge := h.mode.edge }

theorem loops (h : MachineInvariant s) : LoopsOk s.loops := ⟨h.format.piD, h.format.piQ, h.format.piVel⟩

theorem duty (h : MachineInvariant s) : DutyOk s.duty := ⟨h.format.dutyU, h.format.dutyV, h.format.dutyW⟩

theorem place (h : MachineInvariant s) : PlaceOk s :=
  ⟨h.format.offsetU, h.format.offsetV, h.ranges.calN, h.lifecycle, h.offsets⟩

/-- The invariant asks no more than what it asks of each group. -/
theorem ofGroups (ha : s.preempt = .eventAtomic) (hn : s.frames = [])
    (hf : s.filt.decCnt.toNat < Config.machine.decim) (hp : PositionOk s.pos) (hk : ControlOk s.ctl)
    (hl : LoopsOk s.loops) (hd : DutyOk s.duty) (ht : PlaceOk s) : MachineInvariant s where
  atomic := ha
  noFrames := hn
  ranges := ⟨hf, hp.comp, hp.count, hp.angle.low, hp.angle.high, hk.lockCnt, hk.rotCnt, ht.calN,
    hk.velCmdLow, hk.velCmdHigh, hk.velTargetLow, hk.velRampedLow, hk.rampStepPos⟩
  format := ⟨ht.offsetU, ht.offsetV, hp.angle.format, hp.velEst, hk.velCmd, hk.velTarget,
    hk.velRamped, hk.idRef, hk.iqRef, hk.rampStep, hl.d, hl.q, hl.vel, hd.u, hd.v, hd.w⟩
  mode := ⟨hk.align, hk.edge⟩
  lifecycle := ht.lifecycle
  offsets := ht.offsets

theorem withFilter (h : MachineInvariant s) {f : Filter Config.machine.widths}
    (hf : f.decCnt.toNat < Config.machine.decim) : MachineInvariant { s with filt := f } :=
  ofGroups h.atomic h.noFrames hf h.position h.control h.loops h.duty
    { h.place with lifecycle := { h.lifecycle with } }

/-- A rule that writes the estimator, the control registers, the controllers and the duties. -/
theorem withRegisters (h : MachineInvariant s) {p : Position Num}
    {k : Control Config.machine.widths Num} {l : Loops Num} {d : Duty Num} (hp : PositionOk p)
    (hk : ControlOk k) (hl : LoopsOk l) (hd : DutyOk d) :
    MachineInvariant { s with pos := p, ctl := k, loops := l, duty := d } :=
  ofGroups h.atomic h.noFrames h.ranges.decCnt hp hk hl hd
    { h.place with lifecycle := { h.lifecycle with } }

/-- A rule of the foreground agent, which moves the place in the lifecycle as well. -/
theorem withPlace (h : MachineInvariant s) {p : Position Num} {k : Control Config.machine.widths Num}
    {l : Loops Num} {cal : Calibration Config.machine.widths Num}
    {seq : Sequencer Config.machine.widths} {per : Periph} {b : Bool} (hp : PositionOk p)
    (hk : ControlOk k) (hl : LoopsOk l) (ht : PlaceOk { s with cal := cal, seq := seq, per := per }) :
    MachineInvariant
      { s with pos := p, ctl := k, loops := l, cal := cal, seq := seq, per := per, faultClr := b } :=
  ofGroups h.atomic h.noFrames h.ranges.decCnt hp hk hl h.duty
    { ht with lifecycle := { ht.lifecycle with } }

/-- The invariant does not speak of the ports, the schedule, the priority or the pulse output. -/
theorem withEnvironment (h : MachineInvariant s) (b : Bool) (r : Prio) (p : MachinePorts)
    (l : List (Stimulus Config.machine.widths)) :
    MachineInvariant { s with faultClr := b, prio := r, ports := p, script := l } :=
  ofGroups h.atomic h.noFrames h.ranges.decCnt h.position h.control h.loops h.duty
    { h.place with lifecycle := { h.lifecycle with } }

end MachineInvariant

/-! ### Values that rules load into several registers -/

theorem pper_pos : 0 < Config.machine.pper := by
  obtain ⟨-, -, -, -, -, hp, -⟩ := machine_integers
  exact hp

/-- The velocity limits: the default lies between them, and they are magnitudes (R2; log 25). -/
theorem velCmdDefault_bounds :
    Config.machine.velCmdMin.toReal ≤ Config.machine.velCmdDefault.toReal ∧
      Config.machine.velCmdDefault.toReal ≤ Config.machine.velCmdMax.toReal ∧
      0 ≤ Config.machine.velCmdMin.toReal := by
  obtain ⟨-, -, -, -, -, -, hl, hh, -, h0, -⟩ := machine_reals
  exact ⟨hl, hh, h0⟩

/-- The estimator at 0, as reset and MSTART_BEGIN leave it (R174, R217). -/
theorem positionOk_zero : PositionOk ⟨0, 0, 0, 0, 0, 0⟩ :=
  ⟨pper_pos, pper_pos, angleOk_zero, representable_zero⟩

/-- `pi_zero` gives a state in the format (R21; log 3). -/
theorem representablePI_zeroed : Config.machine.RepresentablePI (zeroedPI Config.machine) :=
  machine_valid.format.initial

theorem loopsOk_zeroed :
    LoopsOk ⟨zeroedPI Config.machine, zeroedPI Config.machine, zeroedPI Config.machine⟩ :=
  ⟨representablePI_zeroed, representablePI_zeroed, representablePI_zeroed⟩

/-- The control registers as CPRESET leaves them (R172). -/
theorem controlOk_resetControl (d : Direction) : ControlOk (resetControl Config.machine d) := by
  obtain ⟨hl, hh, h0⟩ := velCmdDefault_bounds
  obtain ⟨-, -, -, -, -, hr, -⟩ := machine_reals
  have hd := machine_valid.rounding.velCmdDefault
  exact
    { lockCnt := Nat.zero_le _
      rotCnt := Nat.zero_le _
      velCmdLow := hl
      velCmdHigh := hh
      velCmd := hd
      velTargetLow := h0.trans hl
      velTarget := hd
      velRampedLow := toReal_zero.ge
      velRamped := representable_zero
      idRef := representable_zero
      iqRef := representable_zero
      rampStepPos := hr
      rampStep := machine_valid.rounding.rampStep
      align := ⟨fun _ => rfl, fun _ => rfl⟩
      edge := nofun }

/-! ### The state after reset -/

/-- Settles O56: each register group of the reset state is as CPRESET, `pi_zero` and 0 make it, and no
hardware runs in Init. -/
theorem invariantHoldsAtReset : Obligations.InvariantHoldsAtReset := by
  obtain ⟨hdec, -⟩ := machine_integers
  refine .ofGroups rfl rfl hdec positionOk_zero (controlOk_resetControl .plus) loopsOk_zeroed
    ⟨representable_zero, representable_zero, representable_zero⟩ ?_
  exact
    { offsetU := representable_zero
      offsetV := representable_zero
      calN := nofun
      lifecycle := ⟨by decide, by decide, by decide, by decide, rfl, rfl⟩
      offsets := nofun }

/-! ### SAMPLE -/

variable {s : State}

theorem sampleState_invariant (h : MachineInvariant s) :
    MachineInvariant (sampleState Config.machine s) := by
  obtain ⟨hdec, -⟩ := machine_integers
  obtain ⟨hfit, -⟩ := machine_counts
  have hlt := h.ranges.decCnt
  unfold sampleState
  split
  next => exact h.withFilter hdec
  next hne =>
    refine h.withFilter ?_
    rw [counter_succ hfit hlt] at hne ⊢
    omega

/-! ### CONTROL -/

theorem curLoopRefs_invariant (h : MachineInvariant s) :
    MachineInvariant (curLoopRefs Config.machine s) := by
  unfold curLoopRefs
  split
  next =>
    exact h.withRegisters h.position
      { h.control with iqRef := representable_rnd _, idRef := representable_zero } h.loops h.duty
  next =>
    split
    next =>
      exact h.withRegisters h.position { h.control with idRef := representable_zero, edge := nofun }
        { h.loops with vel := representablePI_zeroed } h.duty
    next =>
      exact h.withRegisters h.position { h.control with idRef := representable_zero } h.loops h.duty

theorem curLoopState_invariant (h : MachineInvariant s) (iD iQ : Num) :
    MachineInvariant (curLoopState Config.machine iD iQ s) := by
  have ht := curLoopRefs_invariant h
  exact ht.withRegisters ht.position ht.control
    { ht.loops with
      d := machine_valid.format.state _ _ _ _
      q := machine_valid.format.state _ _ _ _ } ht.duty

theorem compAfter_lt (prev raw : Pos) (comp : Nat) :
    compAfter Config.machine prev raw comp < Config.machine.pper := by
  have hp := pper_pos
  unfold compAfter
  split
  next => exact Nat.mod_lt _ hp
  next =>
    split
    next =>
      have hlt := Int.emod_lt_of_pos ((comp : Int) - 65536) (Int.natCast_pos.2 hp)
      omega
    next => exact Nat.mod_lt _ hp

theorem posUpdState_invariant (h : MachineInvariant s) :
    MachineInvariant (posUpdState Config.machine s) :=
  h.withRegisters
    { h.position with
      comp := compAfter_lt _ _ _
      count := Nat.mod_lt _ pper_pos
      angle := angleOk_count (Nat.mod_lt _ pper_pos) } h.control h.loops h.duty

theorem handoverState_invariant (h : MachineInvariant s) : MachineInvariant (handoverState s) :=
  h.withRegisters { h.position with comp := pper_pos, count := pper_pos, angle := angleOk_zero }
    { h.control with align := ⟨nofun, nofun⟩, edge := fun _ => rfl } h.loops h.duty

theorem alignState_invariant (h : MachineInvariant s) :
    MachineInvariant (alignState Config.machine s) := by
  obtain ⟨-, -, -, hfit, -⟩ := machine_counts
  unfold alignState
  split
  next =>
    split
    next hlock =>
      exact h.withRegisters { h.position with angle := angleOk_lock }
        { h.control with lockCnt := (counter_succ hfit hlock).trans_le hlock } h.loops h.duty
    next =>
      split
      next hrot =>
        exact h.withRegisters { h.position with angle := angleOk_rotation _ }
          { h.control with rotCnt := (counter_succ hfit hrot).trans_le hrot } h.loops h.duty
      next => exact handoverState_invariant h
  next => exact h

theorem angUpdState_invariant (h : MachineInvariant s) :
    MachineInvariant (angUpdState Config.machine s) := by
  unfold angUpdState
  split
  next => exact alignState_invariant h
  next => exact posUpdState_invariant h

theorem dutyState_invariant (h : MachineInvariant s) (vD vQ : Num) :
    MachineInvariant (dutyState Config.machine vD vQ s) :=
  h.withRegisters h.position h.control h.loops
    ⟨representable_rnd _, representable_rnd _, representable_rnd _⟩

theorem controlState_invariant (h : MachineInvariant s) :
    MachineInvariant (controlState Config.machine s) := by
  have hangle := angUpdState_invariant (curLoopState_invariant h
    (rotorCurrents Config.machine s).1 (rotorCurrents Config.machine s).2)
  have ht := dutyState_invariant hangle
    (piDCall Config.machine (rotorCurrents Config.machine s).1 s).1
    (piQCall Config.machine (rotorCurrents Config.machine s).2 s).1
  exact ht.withRegisters ht.position { ht.control with } ht.loops ht.duty

/-! ### The slow loop -/

theorem rampedAfter_ok (h : MachineInvariant s) :
    0 ≤ (rampedAfter Config.machine s).toReal ∧
      Config.machine.Representable (rampedAfter Config.machine s) := by
  have hr := h.ranges.velRamped
  have ht := h.ranges.velTarget
  have hs := h.ranges.rampStep
  unfold rampedAfter
  split
  next =>
    refine ⟨rnd_nonneg ?_, representable_rnd _⟩
    rw [machine_real, toReal_min, toReal_add]
    exact le_min (by linarith) ht
  next =>
    split
    next =>
      refine ⟨rnd_nonneg ?_, representable_rnd _⟩
      rw [machine_real, toReal_max]
      exact ht.trans (le_max_right _ _)
    next => exact ⟨hr, h.format.velRamped⟩

theorem gatedState_invariant (h : MachineInvariant s) : MachineInvariant (gatedState s) :=
  h.withRegisters h.position { h.control with } h.loops h.duty

theorem slowLoopState_invariant (h : MachineInvariant s) :
    MachineInvariant (slowLoopState Config.machine s) := by
  obtain ⟨hlow, hfmt⟩ := rampedAfter_ok h
  exact h.withRegisters { h.position with velEst := representable_rnd _ }
    { h.control with
      velRampedLow := hlow
      velRamped := hfmt
      iqRef := machine_valid.format.output _ _ _ _ }
    { h.loops with vel := machine_valid.format.state _ _ _ _ } h.duty

/-! ### The place in the lifecycle

The hardware is off, or only the captures run (the start sequence), or the motor is driven. -/

section
variable {w : Widths} {R : Type} {s : State w R}

/-- Outside Start the start sequence is not under way. -/
theorem LifecycleOk.phase_idle (h : LifecycleOk s) (ha : s.seq.app ≠ .start) : s.seq.fgPhase = .idle :=
  not_not.1 fun hp => ha (h.phase hp)

/-- The application states in which the motor is driven. -/
def driven (a : AppState) : Prop := a = .running ∨ a = .stopDecrease ∨ a = .stopped

/-- The peripherals run as `pwm` says for the PWM and `cap` for the captures. -/
def hardware (p : Periph) (pwm cap : Bool) : Prop :=
  (p.pwmPinsEn = pwm ∧ p.pwmChEn = pwm) ∧ p.posRun = cap ∧ p.curRun = cap

theorem LifecycleOk.off (h : LifecycleOk s) (ha : ¬ driven s.seq.app) (hp : s.seq.fgPhase = .idle) :
    hardware s.per false false := by
  have hpwm : s.per.pwmChEn = false := Bool.eq_false_iff.2 fun e => ha (h.pwm.1 e)
  have hcur : s.per.curRun = false :=
    Bool.eq_false_iff.2 fun e => (h.current.1 e).elim ha fun hne => hne hp
  exact ⟨⟨h.pins.trans hpwm, hpwm⟩, h.capture.trans hcur, hcur⟩

theorem LifecycleOk.starting (h : LifecycleOk s) (hp : s.seq.fgPhase ≠ .idle) :
    hardware s.per false true := by
  have hpwm : s.per.pwmChEn = false :=
    Bool.eq_false_iff.2 fun e => by have := h.pwm.1 e; simp [h.phase hp] at this
  have hcur : s.per.curRun = true := h.current.2 (.inr hp)
  exact ⟨⟨h.pins.trans hpwm, hpwm⟩, h.capture.trans hcur, hcur⟩

theorem LifecycleOk.driving (h : LifecycleOk s) (ha : driven s.seq.app) : hardware s.per true true := by
  have hpwm : s.per.pwmChEn = true := h.pwm.2 ha
  have hcur : s.per.curRun = true := h.current.2 (.inl ha)
  exact ⟨⟨h.pins.trans hpwm, hpwm⟩, h.capture.trans hcur, hcur⟩

theorem lifecycleOk_off (ha : ¬ driven s.seq.app) (hp : s.seq.fgPhase = .idle)
    (hi : s.per.irqArmed = true) (hh : hardware s.per false false) : LifecycleOk s := by
  obtain ⟨⟨hpins, hpwm⟩, hpos, hcur⟩ := hh
  exact
    { phase := fun hne => absurd hp hne
      armed := fun _ => hi
      pwm := ⟨fun e => by simp [hpwm] at e, fun e => absurd e ha⟩
      current := ⟨fun e => by simp [hcur] at e, fun e => (e.elim ha fun hne => hne hp).elim⟩
      pins := hpins.trans hpwm.symm
      capture := hpos.trans hcur.symm }

theorem lifecycleOk_starting (ha : s.seq.app = .start) (hp : s.seq.fgPhase ≠ .idle)
    (hi : s.per.irqArmed = true) (hh : hardware s.per false true) : LifecycleOk s := by
  obtain ⟨⟨hpins, hpwm⟩, hpos, hcur⟩ := hh
  exact
    { phase := fun _ => ha
      armed := fun _ => hi
      pwm := ⟨fun e => by simp [hpwm] at e, fun e => by simp [ha] at e⟩
      current := ⟨fun _ => .inr hp, fun _ => hcur⟩
      pins := hpins.trans hpwm.symm
      capture := hpos.trans hcur.symm }

theorem lifecycleOk_driving (ha : driven s.seq.app) (hp : s.seq.fgPhase = .idle)
    (hi : s.per.irqArmed = true) (hh : hardware s.per true true) : LifecycleOk s := by
  obtain ⟨⟨hpins, hpwm⟩, hpos, hcur⟩ := hh
  exact
    { phase := fun hne => absurd hp hne
      armed := fun _ => hi
      pwm := ⟨fun _ => ha, fun _ => hpwm⟩
      current := ⟨fun _ => .inl ha, fun _ => hcur⟩
      pins := hpins.trans hpwm.symm
      capture := hpos.trans hcur.symm }

end

/-! ### FG: Init, WaitStart, Start -/

/-- Init to WaitStart: the handlers are registered, no hardware runs (R155, R156). -/
theorem initStepState_invariant (h : MachineInvariant s) (ha : s.seq.app = .init) :
    MachineInvariant (initStepState s) := by
  have hidle := h.lifecycle.phase_idle (by simp [ha])
  obtain ⟨⟨-, hpwm⟩, hcap⟩ := h.lifecycle.off (by simp [driven, ha]) hidle
  exact h.withPlace h.position { h.control with } h.loops
    { h.place with
      lifecycle := lifecycleOk_off (by simp [driven]) hidle rfl ⟨⟨rfl, hpwm⟩, hcap⟩
      offsets := h.offsets }

/-- WaitStart to itself or to Start: no hardware runs before MSTART_BEGIN (R158). -/
theorem waitStartState_invariant (h : MachineInvariant s) (ha : s.seq.app = .waitStart) :
    MachineInvariant (waitStartState s) := by
  have hidle := h.lifecycle.phase_idle (by simp [ha])
  have hoff := h.lifecycle.off (by simp [driven, ha]) hidle
  have hirq := h.lifecycle.armed (by simp [ha])
  have hnext : ¬ driven (waitStartState s).seq.app := by
    change ¬ driven (if s.ports.btn.start then .start else s.seq.app)
    split <;> simp [driven, ha]
  exact h.withPlace h.position { h.control with } h.loops
    { h.place with lifecycle := lifecycleOk_off hnext hidle hirq hoff, offsets := h.offsets }

/-- Start, before MSTART_BEGIN: the captures start, the PWM does not (R160, R174). -/
theorem beginStep_invariant (h : MachineInvariant s) (ha : s.seq.app = .start)
    (hp : s.seq.fgPhase = .idle) (b : Bool) :
    MachineInvariant
      (mstartBeginState Config.machine { s with per := { s.per with indRun := b } }) := by
  obtain ⟨hpwm, -⟩ := h.lifecycle.off (by simp [driven, ha]) hp
  have hirq := h.lifecycle.armed (by simp [ha])
  exact h.withPlace positionOk_zero { controlOk_resetControl s.ctl.direction with } loopsOk_zeroed
    { h.place with
      lifecycle := lifecycleOk_starting ha nofun hirq ⟨hpwm, rfl, rfl⟩
      offsets := h.offsets
      calN := nofun }

/-- Start, in the settle wait: `cal_n` starts from 0 (R99). -/
theorem settleState_invariant (h : MachineInvariant s) (hp : s.seq.fgPhase = .settle) :
    MachineInvariant (settleState Config.machine s) := by
  obtain ⟨-, -, -, -, hcal, -⟩ := machine_integers
  have hne : s.seq.fgPhase ≠ .idle := by simp [hp]
  have ha := h.lifecycle.phase hne
  have hirq := h.lifecycle.armed (by simp [ha])
  unfold settleState
  split
  next =>
    exact h.withPlace h.position h.control h.loops
      { h.place with
        lifecycle := lifecycleOk_starting ha nofun hirq (h.lifecycle.starting hne)
        offsets := h.offsets
        calN := fun _ => hcal }
  next => exact h

/-- The offset a calibration gives lies in the band of the offsets (R101, R176). -/
theorem meanOffset_bounds (sum : Sum) :
    Config.machine.offsetMin.toReal ≤ (meanOffset Config.machine sum).toReal ∧
      (meanOffset Config.machine sum).toReal ≤ Config.machine.offsetMax.toReal := by
  obtain ⟨hband, -⟩ := machine_reals
  unfold meanOffset
  refine ⟨le_rnd machine_valid.rounding.offsetMin ?_, rnd_le machine_valid.rounding.offsetMax ?_⟩ <;>
    rw [machine_real, toReal_min]
  · rw [toReal_max]
    exact le_min (le_max_right _ _) hband
  · exact min_le_right _ _

/-- Start, in the calibration and not at its end: `cal_n` stays below `N_CAL` (R100). -/
theorem calState_invariant (h : MachineInvariant s) (hp : s.seq.fgPhase = .cal)
    (hd : calDone Config.machine s = false) : MachineInvariant (calState Config.machine s) := by
  obtain ⟨-, -, hfit, -⟩ := machine_counts
  have hlt := h.ranges.calN hp
  unfold calState
  split
  next => exact h
  next hnew =>
    have hne : (s.cal.calN + 1).toNat ≠ Config.machine.nCal := by
      simpa only [calDone, hnew, ne_eq, not_false_eq_true, decide_true, Bool.true_and,
        decide_eq_false_iff_not] using hd
    rw [if_neg hne]
    refine h.withPlace h.position h.control h.loops
      { h.place with lifecycle := { h.lifecycle with }, offsets := h.offsets, calN := fun _ => ?_ }
    rw [counter_succ hfit hlt] at hne ⊢
    omega

/-- Start to Running, at the end of the calibration: the offsets have just been clamped to their band
when MSTART_END lets the PWM run (R101, R160, R175, R176). -/
theorem runStep_invariant (h : MachineInvariant s) (hp : s.seq.fgPhase = .cal)
    (hd : calDone Config.machine s = true) :
    MachineInvariant
      { mstartEndState (calState Config.machine s) with seq := ⟨.running, .idle, 0⟩ } := by
  have hne : s.seq.fgPhase ≠ .idle := by simp [hp]
  have hirq := h.lifecycle.armed (by simp [h.lifecycle.phase hne])
  obtain ⟨-, hcap⟩ := h.lifecycle.starting hne
  obtain ⟨hnew, hend⟩ := (Bool.and_eq_true _ _).mp hd
  rw [calState, if_neg (of_decide_eq_true hnew), if_pos (of_decide_eq_true hend)]
  exact h.withPlace h.position h.control h.loops
    { offsetU := representable_rnd _
      offsetV := representable_rnd _
      calN := nofun
      lifecycle := lifecycleOk_driving (.inl rfl) rfl hirq ⟨⟨rfl, rfl⟩, hcap⟩
      offsets := fun _ => ⟨meanOffset_bounds _, meanOffset_bounds _⟩ }

theorem startStepState_invariant (h : MachineInvariant s) (ha : s.seq.app = .start) :
    MachineInvariant (startStepState Config.machine s) := by
  unfold startStepState
  split
  next hp => exact beginStep_invariant h ha hp true
  next hp => exact settleState_invariant h hp
  next hp =>
    split
    next hd => exact runStep_invariant h hp hd
    next hd => exact calState_invariant h hp (Bool.eq_false_iff.2 hd)

/-! ### FG: Running, StopDecrease, Stopped -/

/-- From a state in which the motor is driven to another, all hardware running on (R162, R186). -/
theorem placeOk_driven (h : MachineInvariant s) (hs : driven s.seq.app) {a : AppState} (ha : driven a)
    (n : Ctr Config.machine.widths) (i : Bool) :
    PlaceOk
      { s with
        seq := { s.seq with app := a, inactCnt := n }
        per := { s.per with indIdle := i } } := by
  have hidle := h.lifecycle.phase_idle (by rintro e; simp [driven, e] at hs)
  have hirq := h.lifecycle.armed (by rintro e; simp [driven, e] at hs)
  exact
    { h.place with
      lifecycle := lifecycleOk_driving ha hidle hirq (h.lifecycle.driving hs)
      offsets := h.offsets }

/-- What the invariant asks of the commanded velocity (R164). -/
structure CommandOk (v : Num) : Prop where
  format : Config.machine.Representable v
  low : Config.machine.velCmdMin.toReal ≤ v.toReal
  high : v.toReal ≤ Config.machine.velCmdMax.toReal

theorem commandOk_default : CommandOk Config.machine.velCmdDefault := by
  obtain ⟨hl, hh, -⟩ := velCmdDefault_bounds
  exact ⟨machine_valid.rounding.velCmdDefault, hl, hh⟩

theorem commandOk_incremented {v : Num} (hv : CommandOk v) : CommandOk (incremented Config.machine v) := by
  obtain ⟨hl, hh, -⟩ := velCmdDefault_bounds
  obtain ⟨-, -, -, -, -, -, -, -, hstep, -⟩ := machine_reals
  have hlow := hv.low
  refine ⟨representable_rnd _, le_rnd machine_valid.rounding.velCmdMin ?_,
    rnd_le machine_valid.rounding.velCmdMax ?_⟩ <;> rw [machine_real, toReal_min]
  · rw [toReal_add]
    exact le_min (by linarith) (hl.trans hh)
  · exact min_le_right _ _

theorem commandOk_decremented {v : Num} (hv : CommandOk v) : CommandOk (decremented Config.machine v) := by
  obtain ⟨hl, hh, -⟩ := velCmdDefault_bounds
  obtain ⟨-, -, -, -, -, -, -, -, hstep, -⟩ := machine_reals
  have hhigh := hv.high
  refine ⟨representable_rnd _, le_rnd machine_valid.rounding.velCmdMin ?_,
    rnd_le machine_valid.rounding.velCmdMax ?_⟩ <;> rw [machine_real, toReal_max]
  · exact le_max_right _ _
  · rw [toReal_sub]
    exact max_le (by linarith) (hl.trans hh)

theorem commandAfter_eq (b : Buttons) (v : Num) :
    commandAfter Config.machine b v =
      let v1 := if b.inc then incremented Config.machine v else v
      let v2 := if b.dec then decremented Config.machine v1 else v1
      if b.reset then Config.machine.velCmdDefault else v2 := rfl

theorem commandOk_after {v : Num} (hv : CommandOk v) (b : Buttons) :
    CommandOk (commandAfter Config.machine b v) := by
  have hinc : CommandOk (if b.inc then incremented Config.machine v else v) := by
    split
    next => exact commandOk_incremented hv
    next => exact hv
  rw [commandAfter_eq]
  dsimp only
  split
  next => exact commandOk_default
  next =>
    split
    next => exact commandOk_decremented hinc
    next => exact hinc

/-- The buttons of the Running step: `vel_target` follows `vel_cmd`, which is a magnitude (R162, log 25). -/
theorem buttonsState_invariant (h : MachineInvariant s) (hs : driven s.seq.app) {a : AppState}
    (ha : driven a) : MachineInvariant (buttonsState Config.machine a s) := by
  obtain ⟨-, -, h0⟩ := velCmdDefault_bounds
  have hcmd := commandOk_after ⟨h.control.velCmd, h.control.velCmdLow, h.control.velCmdHigh⟩ s.ports.btn
  have htarget : ∀ b : Bool,
      0 ≤ (if b then commandAfter Config.machine s.ports.btn s.ctl.velCmd else s.ctl.velTarget).toReal ∧
        Config.machine.Representable
          (if b then commandAfter Config.machine s.ports.btn s.ctl.velCmd else s.ctl.velTarget)
    | true => ⟨h0.trans hcmd.low, hcmd.format⟩
    | false => ⟨h.control.velTargetLow, h.control.velTarget⟩
  have hnext : driven (if s.ports.btn.start then .stopDecrease else a) := by
    split
    next => exact .inr (.inl rfl)
    next => exact ha
  exact h.withPlace h.position
    { h.control with
      velCmdLow := hcmd.low
      velCmdHigh := hcmd.high
      velCmd := hcmd.format
      velTargetLow := (htarget _).1
      velTarget := (htarget _).2 }
    h.loops (placeOk_driven h hs hnext _ s.per.indIdle)

theorem inactivityState_invariant (h : MachineInvariant s) (hs : driven s.seq.app) :
    MachineInvariant (inactivityState Config.machine s) := by
  have ht := slowLoopState_invariant (gatedState_invariant h)
  exact ht.withPlace ht.position ht.control ht.loops (placeOk_driven ht hs hs _ _)

theorem runningState_invariant (h : MachineInvariant s) (hs : driven s.seq.app) :
    MachineInvariant (runningState Config.machine s) := by
  unfold runningState
  split
  next =>
    refine buttonsState_invariant (inactivityState_invariant h hs) hs ?_
    split
    next => exact .inr (.inl rfl)
    next => exact .inl rfl
  next => exact buttonsState_invariant h hs (.inl rfl)

/-- StopDecrease: to Stopped with the hardware running on (log 24), or a slow loop and a lower target, not
below 0 (R186). -/
theorem stopDecreaseState_invariant (h : MachineInvariant s) (hs : driven s.seq.app) :
    MachineInvariant (stopDecreaseState Config.machine s) := by
  have ht := slowLoopState_invariant (gatedState_invariant h)
  unfold stopDecreaseState
  split
  next =>
    exact h.withPlace h.position h.control h.loops
      (placeOk_driven h hs (.inr (.inr rfl)) s.seq.inactCnt s.per.indIdle)
  next =>
    split
    next =>
      dsimp only
      split
      next =>
        refine ht.withRegisters ht.position
          { ht.control with velTargetLow := rnd_nonneg ?_, velTarget := representable_rnd _ } ht.loops ht.duty
        rw [machine_real, toReal_max, toReal_zero]
        exact le_max_right _ _
      next => exact ht
    next => exact h

/-- Stopped to WaitStart: MSTOP switches all hardware off (R177, R188). -/
theorem stoppedState_invariant (h : MachineInvariant s) (ha : s.seq.app = .stopped) :
    MachineInvariant (stoppedState Config.machine s) := by
  have hidle := h.lifecycle.phase_idle (by simp [ha])
  have hirq := h.lifecycle.armed (by simp [ha])
  exact h.withPlace h.position (controlOk_resetControl _) { h.loops with vel := representablePI_zeroed }
    { h.place with
      lifecycle := lifecycleOk_off (by simp [driven]) hidle hirq ⟨⟨rfl, rfl⟩, rfl, rfl⟩
      offsets := nofun }

theorem fgState_invariant (h : MachineInvariant s) : MachineInvariant (fgState Config.machine s) := by
  unfold fgState
  split
  next ha => exact initStepState_invariant h ha
  next ha => exact waitStartState_invariant h ha
  next ha => exact startStepState_invariant h ha
  next ha => exact runningState_invariant h (.inl ha)
  next ha => exact stopDecreaseState_invariant h (.inr (.inl ha))
  next ha => exact stoppedState_invariant h ha

/-! ### The step -/

/-- Every event performed whole keeps the invariant. -/
theorem performWith_invariant (h : MachineInvariant s) {i : Instr} (hi : i.opClass = .event) :
    MachineInvariant (performWith Config.machine i s) := by
  cases i with
  | idle => exact h
  | sample =>
    change MachineInvariant (if admitted .sample s then (sampleBody _ s.ports .stop).run s else s)
    rw [run_sampleBody]
    split
    next => exact sampleState_invariant h
    next => exact h
  | control =>
    change MachineInvariant (if admitted .control s then (controlBody _ s.ports .stop).run s else s)
    rw [run_controlBody]
    split
    next => exact controlState_invariant h
    next => exact h
  | fg =>
    change MachineInvariant ((fgBody _ s.ports .stop).run s)
    rw [run_fgBody]
    exact fgState_invariant h
  | _ => cases hi

/-- `exec` performs the operation under the configuration of the machine. -/
theorem exec_eq_performWith (i : Instr) (s : State) :
    exec i s = .next (performWith Config.machine i s) := by
  cases i <;> rfl

/-- The event port gives events only (R68). -/
theorem fetch_event {i : Instr} (h : fetch s = .ok i) : i.opClass = .event := by
  unfold fetch at h
  split at h
  next => cases h
  next j _ =>
    split at h
    next hj =>
      cases h
      revert hj
      cases i <;> simp [Instr.onEventPort, Instr.opClass]
    next => cases h

/-- What a step of a machine that takes whole events can do with nothing in progress: `rst`, nothing, or
one event (R50, R55, R217). -/
theorem step_atomic_cases {t : State} (ha : s.preempt = .eventAtomic) (hn : s.frames = [])
    (h : step s = .next t) :
    t = present (powerUp s) ∨ t = present (endPulse s) ∨
      ∃ i : Instr, i.opClass = .event ∧ t = present (performWith Config.machine i (endPulse s)) := by
  simp only [step, advance, ha, stepAtomic, endPulse_frames, hn] at h
  split at h
  next => cases h; exact .inl rfl
  next =>
    split at h
    next =>
      unfold stepEvent at h
      split at h
      next => cases h
      next i hi =>
        rw [exec_eq_performWith] at h
        cases h
        exact .inr (.inr ⟨i, fetch_event hi, rfl⟩)
    next => cases h; exact .inr (.inl rfl)

/-- Settles O57: a step is `rst`, nothing or one event, then the environment presents; reset establishes
the invariant, every event keeps it, and the environment does not touch what it speaks of. -/
theorem invariantIsKeptByEveryStep : Obligations.InvariantIsKeptByEveryStep := by
  intro s t h hst
  have hpresent : ∀ u : State, MachineInvariant u → MachineInvariant (present u) :=
    fun u hu => hu.withEnvironment u.faultClr u.prio _ _
  have hpulse : MachineInvariant (endPulse s) := by
    rw [endPulse_eq]
    exact h.withEnvironment _ s.prio s.ports s.script
  rcases step_atomic_cases h.atomic h.noFrames hst with rfl | rfl | ⟨i, hi, rfl⟩
  · refine hpresent _ ?_
    rw [powerUp, h.atomic]
    exact invariantHoldsAtReset.withEnvironment _ s.prio s.ports s.script
  · exact hpresent _ hpulse
  · exact hpresent _ (performWith_invariant hpulse hi)

end Sys2Proof.Safety
end

section
/-! PROOFS. The places in the lifecycle and in the vector control mode (O40, O48, O49). An operation is
masked or leaves the state its rule gives (`ruleState`); what a rule can do to `app_state`, to `change_mode`
and to `align_active` is said once, and each statement is read off. -/

namespace Sys2Proof.Safety

open Sys2Proof Sys2Proof.Machine Sys2Proof.Laws

/-! ### The state every operation leaves -/

section
variable {S R : Type} [Field S] [AddCommGroup R] [Module S R]

/-- The state after the rule of an operation, admitted or not, without the results in parentheses. -/
def ruleState (c : Config S R) (i : Instr) (s : State c.widths R) : State c.widths R :=
  match i with
  | .idle => s
  | .sample => sampleState c s
  | .control => controlState c s
  | .fg => fgState c s
  | .filt => filtState c s.temps.phase s.temps.raw s
  | .decimate => decimateState s
  | .curacq => s
  | .curloop => curLoopState c s.temps.iD s.temps.iQ s
  | .angupd => angUpdState c s
  | .align => alignState c s
  | .posupd => posUpdState c s
  | .dutygen => dutyState c s.temps.vD s.temps.vQ s
  | .init => initState s
  | .cpreset => cpResetState c s
  | .mstartBegin => mstartBeginState c s
  | .settlepoll => settleState c s
  | .calpoll => calState c s
  | .mstartEnd => mstartEndState s
  | .mstop => mstopState c s
  | .slowloop => slowLoopState c s

/-- The programs of all operations, run whole (R55). -/
theorem run_opProgram (c : Config S R) (i : Instr) (s : State c.widths R) :
    (opProgram c s.ports s.temps i).run s = ruleState c i s := by
  cases i with
  | idle => rfl
  | sample => exact run_sampleBody c _ s
  | control => exact run_controlBody c _ s
  | fg => exact run_fgBody c _ s
  | filt => exact run_filt c _ _ _ s
  | decimate => exact run_decimate _ s
  | curacq => simp only [opProgram, opCuracq, run_curAcq, run_done, ruleState]
  | curloop => exact run_curLoop c _ _ _ s
  | angupd => exact run_angUpd c _ s
  | align => exact run_align c _ s
  | posupd => exact run_posUpd c _ s
  | dutygen => exact run_dutyGen c _ _ _ s
  | init => exact run_initOp _ s
  | cpreset => exact run_cpReset c _ s
  | mstartBegin => exact run_mstartBegin c _ s
  | settlepoll => exact run_settlePoll c _ s
  | calpoll => simp only [opProgram, opCalpoll, run_calPoll, run_done, ruleState]
  | mstartEnd => exact run_mstartEnd _ s
  | mstop => exact run_mstop c _ s
  | slowloop => exact run_slowLoop c _ s

/-- An operation is masked, or leaves what its rule gives and records its results (R203; log 12). -/
theorem performWith_cases (c : Config S R) (i : Instr) (s : State c.widths R) :
    admitted i s = false ∧ performWith c i s = s ∨
      ∃ out, performWith c i s = (ruleState c i s).record out := by
  unfold performWith
  rw [run_opProgram]
  split
  next => exact .inr ⟨_, rfl⟩
  next =>
    split
    next => exact .inr ⟨id, (record_id _).symm⟩
    next hadm => exact .inl ⟨Bool.eq_false_iff.2 hadm, rfl⟩

end

/-- What `exec` can answer. -/
theorem exec_cases {i : Instr} {s t : State} (h : exec i s = .next t) :
    admitted i s = false ∧ t = s ∨ ∃ out, t = (ruleState Config.machine i s).record out := by
  rw [exec_eq_performWith] at h
  cases h
  exact performWith_cases Config.machine i s

/-- FG is never masked and has no results (R153). -/
theorem exec_fg {s t : State} (h : exec .fg s = .next t) : t = fgState Config.machine s := by
  rw [exec_eq_performWith] at h
  cases h
  exact run_opProgram Config.machine .fg s

/-! ### What the polls and SAMPLE leave alone -/

section
variable {S R : Type} {c : Config S R} {s : State c.widths R}

theorem sampleState_seq : (sampleState c s).seq = s.seq := by
  unfold sampleState
  dsimp only
  split <;> rfl

theorem sampleState_ctl : (sampleState c s).ctl = s.ctl := by
  unfold sampleState
  dsimp only
  split <;> rfl

theorem settleState_app : (settleState c s).seq.app = s.seq.app := by
  unfold settleState
  split <;> rfl

theorem settleState_ctl : (settleState c s).ctl = s.ctl := by
  unfold settleState
  split <;> rfl

variable [Field S]

theorem calState_seq : (calState c s).seq = s.seq := by
  simp only [calState, apply_ite State.seq, ite_self]

theorem calState_ctl : (calState c s).ctl = s.ctl := by
  simp only [calState, apply_ite State.ctl, ite_self]

/-- The poll that completes the calibration sets both offsets to clamped means (R100, R101). -/
theorem calState_offsets_of_calDone (h : calDone c s = true) :
    ∃ sumU sumV, (calState c s).cal.offsetU = meanOffset c sumU ∧
      (calState c s).cal.offsetV = meanOffset c sumV := by
  obtain ⟨hnew, hend⟩ := (Bool.and_eq_true _ _).mp h
  rw [calState, if_neg (of_decide_eq_true hnew), if_pos (of_decide_eq_true hend)]
  exact ⟨_, _, rfl, rfl⟩

end

/-! ### `app_state` -/

section
variable {S R : Type} [AddCommGroup R] {c : Config S R} {s : State c.widths R}

theorem buttonsState_edge {next : AppState} (h : lifecycleEdge .running next) :
    lifecycleEdge .running (buttonsState c next s).seq.app := by
  change lifecycleEdge _ (if s.ports.btn.start then .stopDecrease else next)
  split
  next => trivial
  next => exact h

variable [Field S]

/-- The Start step stays in Start, or the calibration is done and MSTART_END leads to Running (R160). -/
theorem startStepState_cases (c : Config S R) (s : State c.widths R) :
    (startStepState c s).seq.app = s.seq.app ∨
      calDone c s = true ∧
        startStepState c s = { mstartEndState (calState c s) with seq := ⟨.running, .idle, 0⟩ } := by
  unfold startStepState
  split
  next => exact .inl rfl
  next => exact .inl settleState_app
  next =>
    split
    next hd => exact .inr ⟨hd, rfl⟩
    next => exact .inl (congrArg _ calState_seq)

variable [Module S R]

theorem alignState_seq : (alignState c s).seq = s.seq := by
  simp only [alignState, handoverState, apply_ite State.seq, ite_self]

theorem angUpdState_seq : (angUpdState c s).seq = s.seq := by
  unfold angUpdState
  split
  next => exact alignState_seq
  next => rfl

theorem curLoopState_seq (iD iQ : R) : (curLoopState c iD iQ s).seq = s.seq := by
  simp only [curLoopState, curLoopRefs]
  split
  next => rfl
  next => split <;> rfl

theorem controlState_seq : (controlState c s).seq = s.seq :=
  angUpdState_seq.trans (curLoopState_seq _ _)

/-- Nothing but FG moves `app_state` (R36). -/
theorem ruleState_app {i : Instr} (hi : i ≠ .fg) : (ruleState c i s).seq.app = s.seq.app := by
  cases i with
  | fg => exact absurd rfl hi
  | sample => exact congrArg _ sampleState_seq
  | control => exact congrArg _ controlState_seq
  | curloop => exact congrArg _ (curLoopState_seq _ _)
  | angupd => exact congrArg _ angUpdState_seq
  | align => exact congrArg _ alignState_seq
  | settlepoll => exact settleState_app
  | calpoll => exact congrArg _ calState_seq
  | _ => rfl

/-- Running stays, or inactivity or the start button ends it (R162, R163). -/
theorem runningState_edge : lifecycleEdge .running (runningState c s).seq.app := by
  unfold runningState
  split
  next =>
    refine buttonsState_edge ?_
    split <;> trivial
  next => exact buttonsState_edge trivial

/-- StopDecrease stays, or ends in Stopped at low speed (R186). -/
theorem stopDecreaseState_edge (ha : s.seq.app = .stopDecrease) :
    lifecycleEdge .stopDecrease (stopDecreaseState c s).seq.app := by
  have hstay : lifecycleEdge .stopDecrease s.seq.app := by rw [ha]; trivial
  unfold stopDecreaseState
  split
  next => trivial
  next =>
    split
    next => dsimp only; split <;> exact hstay
    next => exact hstay

/-- Each state's step takes an edge of the table of R190. -/
theorem fgState_edge : lifecycleEdge s.seq.app (fgState c s).seq.app := by
  unfold fgState
  split
  next ha => rw [ha]; trivial
  next ha =>
    change lifecycleEdge _ (if s.ports.btn.start then .start else s.seq.app)
    split <;> rw [ha] <;> trivial
  next ha =>
    rcases startStepState_cases c s with h | ⟨-, h⟩ <;> rw [h, ha] <;> trivial
  next ha => rw [ha]; exact runningState_edge
  next ha => rw [ha]; exact stopDecreaseState_edge ha
  next ha => rw [ha]; trivial

end

/-! ### `change_mode` and `align_active` -/

section
variable {w : Widths} {R : Type}

/-- `align_active` is left as it is and `change_mode` is not raised. -/
structure KeepsMode (k k' : Control w R) : Prop where
  align : k'.alignActive = k.alignActive
  edge : k'.changeMode = true → k.changeMode = true

theorem KeepsMode.refl (k : Control w R) : KeepsMode k k := ⟨rfl, id⟩

theorem KeepsMode.of_eq {k k' : Control w R} (h : k' = k) : KeepsMode k k' := h ▸ .refl k

/-- What CPRESET makes of both (R172). -/
structure PresetsMode (k' : Control w R) : Prop where
  align : k'.alignActive = true
  edge : k'.changeMode = false

/-- The handover, taken where both counters have reached the lock count (R130, R132). -/
structure HandsOver (lockCount : Nat) (k k' : Control w R) : Prop where
  alignBefore : k.alignActive = true
  alignAfter : k'.alignActive = false
  locked : lockCount ≤ k.lockCnt.toNat
  rotated : lockCount ≤ k.rotCnt.toNat
  mode : k'.mode = .closedLoop

/-- The operations that can run ALIGN. -/
def runsAlign (i : Instr) : Prop := i = .control ∨ i = .angupd ∨ i = .align

/-- The operations that run CPRESET from the state `s`: those with a CPRESET of their own, and the FG
steps that begin and end a run (R160, R188). -/
def runsPreset (i : Instr) (s : State w R) : Prop :=
  i = .cpreset ∨ i = .mstartBegin ∨ i = .mstop ∨
    i = .fg ∧ (s.seq.app = .start ∧ s.seq.fgPhase = .idle ∨ s.seq.app = .stopped)

theorem runsPreset_fg {s : State w R}
    (h : s.seq.app = .start ∧ s.seq.fgPhase = .idle ∨ s.seq.app = .stopped) : runsPreset .fg s :=
  .inr (.inr (.inr ⟨rfl, h⟩))

end

section
variable {S R : Type} [Field S] [AddCommGroup R] {c : Config S R} {s : State c.widths R}

/-- The Start step runs CPRESET at its beginning only (R160). -/
theorem startStepState_mode :
    KeepsMode s.ctl (startStepState c s).ctl ∨
      s.seq.fgPhase = .idle ∧ PresetsMode (startStepState c s).ctl := by
  unfold startStepState
  split
  next hp => exact .inr ⟨hp, rfl, rfl⟩
  next => exact .inl (.of_eq settleState_ctl)
  next => split <;> exact .inl (.of_eq calState_ctl)

variable [Module S R]

theorem alignState_mode :
    KeepsMode s.ctl (alignState c s).ctl ∨ HandsOver c.lockCount s.ctl (alignState c s).ctl := by
  unfold alignState
  split
  next ha =>
    split
    next => exact .inl ⟨rfl, id⟩
    next hlock =>
      split
      next => exact .inl ⟨rfl, id⟩
      next hrot => exact .inr ⟨ha, rfl, not_lt.1 hlock, not_lt.1 hrot, rfl⟩
  next => exact .inl (.refl _)

theorem angUpdState_mode :
    KeepsMode s.ctl (angUpdState c s).ctl ∨ HandsOver c.lockCount s.ctl (angUpdState c s).ctl := by
  unfold angUpdState
  split
  next => exact alignState_mode
  next => exact .inl (.refl _)

/-- CURLOOP writes three control registers, and `change_mode` to end the one-shot only (R124). -/
theorem curLoopState_ctl (c : Config S R) (iD iQ : R) (s : State c.widths R) :
    ∃ x b, (curLoopState c iD iQ s).ctl = { s.ctl with iqRef := x, idRef := 0, changeMode := b } ∧
      (b = true → s.ctl.changeMode = true) := by
  simp only [curLoopState, curLoopRefs]
  split
  next => exact ⟨_, _, rfl, id⟩
  next =>
    split
    next => exact ⟨_, _, rfl, nofun⟩
    next => exact ⟨_, _, rfl, id⟩

theorem curLoopState_mode (iD iQ : R) : KeepsMode s.ctl (curLoopState c iD iQ s).ctl := by
  obtain ⟨x, b, hctl, hb⟩ := curLoopState_ctl c iD iQ s
  rw [hctl]
  exact ⟨rfl, hb⟩

/-- CONTROL does to the mode what ANGUPD does: CURLOOP before it leaves the alignment alone (R119). -/
theorem controlState_mode :
    KeepsMode s.ctl (controlState c s).ctl ∨ HandsOver c.lockCount s.ctl (controlState c s).ctl := by
  obtain ⟨x, b, hctl, hb⟩ := curLoopState_ctl c (rotorCurrents c s).1 (rotorCurrents c s).2 s
  rcases angUpdState_mode (c := c) (s := curLoopState c (rotorCurrents c s).1 (rotorCurrents c s).2 s)
    with h | h <;> rw [hctl] at h
  · exact .inl ⟨h.align, fun e => hb (h.edge e)⟩
  · exact .inr ⟨h.alignBefore, h.alignAfter, h.locked, h.rotated, h.mode⟩

theorem runningState_mode : KeepsMode s.ctl (runningState c s).ctl := by
  unfold runningState
  split <;> exact ⟨rfl, id⟩

theorem stopDecreaseState_mode : KeepsMode s.ctl (stopDecreaseState c s).ctl := by
  unfold stopDecreaseState
  split
  next => exact .refl _
  next =>
    split
    next => dsimp only; split <;> exact ⟨rfl, id⟩
    next => exact .refl _

theorem fgState_mode :
    KeepsMode s.ctl (fgState c s).ctl ∨ runsPreset .fg s ∧ PresetsMode (fgState c s).ctl := by
  unfold fgState
  split
  next => exact .inl ⟨rfl, id⟩
  next => exact .inl ⟨rfl, id⟩
  next ha => exact startStepState_mode.imp_right fun ⟨hp, h⟩ => ⟨runsPreset_fg (.inl ⟨ha, hp⟩), h⟩
  next => exact .inl runningState_mode
  next => exact .inl stopDecreaseState_mode
  next ha => exact .inr ⟨runsPreset_fg (.inr ha), rfl, rfl⟩

/-- What a rule can do to the two flags: keep them, the handover, or CPRESET. -/
theorem ruleState_mode (c : Config S R) (i : Instr) (s : State c.widths R) :
    KeepsMode s.ctl (ruleState c i s).ctl ∨
      runsAlign i ∧ HandsOver c.lockCount s.ctl (ruleState c i s).ctl ∨
      runsPreset i s ∧ PresetsMode (ruleState c i s).ctl := by
  cases i with
  | sample => exact .inl (.of_eq sampleState_ctl)
  | control => exact controlState_mode.imp_right fun h => .inl ⟨.inl rfl, h⟩
  | fg => exact fgState_mode.imp_right .inr
  | curloop => exact .inl (curLoopState_mode _ _)
  | angupd => exact angUpdState_mode.imp_right fun h => .inl ⟨.inr (.inl rfl), h⟩
  | align => exact alignState_mode.imp_right fun h => .inl ⟨.inr (.inr rfl), h⟩
  | cpreset => exact .inr (.inr ⟨.inl rfl, rfl, rfl⟩)
  | mstartBegin => exact .inr (.inr ⟨.inr (.inl rfl), rfl, rfl⟩)
  | mstop => exact .inr (.inr ⟨.inr (.inr (.inl rfl)), rfl, rfl⟩)
  | settlepoll => exact .inl (.of_eq settleState_ctl)
  | calpoll => exact .inl (.of_eq calState_ctl)
  | _ => exact .inl ⟨rfl, id⟩

end

/-- What an operation can do to the two flags. -/
theorem exec_mode_cases {i : Instr} {s t : State} (h : exec i s = .next t) :
    KeepsMode s.ctl t.ctl ∨ runsAlign i ∧ HandsOver Config.machine.lockCount s.ctl t.ctl ∨
      runsPreset i s ∧ PresetsMode t.ctl := by
  obtain ⟨-, rfl⟩ | ⟨out, rfl⟩ := exec_cases h
  · exact .inl (.refl _)
  · rw [record_ctl]
    exact ruleState_mode Config.machine i s

/-! ### The statements -/

/-- Settles O40: the one way from Start to Running is the completed calibration, whose offsets are
clamped to the band, followed by MSTART_END. -/
theorem offsetsAreCalibratedBeforePwm : Obligations.OffsetsAreCalibratedBeforePwm := by
  intro s t h hs ht
  have hfg : t = startStepState Config.machine s := by rw [exec_fg h, fgState, hs]
  subst hfg
  obtain hstay | ⟨hdone, hrun⟩ := startStepState_cases Config.machine s
  · rw [hstay, hs] at ht
    cases ht
  · rw [hrun]
    obtain ⟨sumU, sumV, hu, hv⟩ := calState_offsets_of_calDone hdone
    refine ⟨?_, ?_, rfl, rfl, rfl⟩
    · exact hu ▸ meanOffset_bounds sumU
    · exact hv ▸ meanOffset_bounds sumV

/-- Settles O48: of the three things an operation can do to the mode, only the handover raises
`change_mode`, and only CPRESET raises `align_active`. -/
theorem modeChangeIsRaisedByTheHandoverOnly : Obligations.ModeChangeIsRaisedByTheHandoverOnly := by
  intro i s t h
  obtain hk | ⟨hi, hh⟩ | ⟨hi, hp⟩ := exec_mode_cases h
  · exact ⟨fun h0 h1 => by simp [hk.edge h1] at h0, fun h0 h1 => by simp [← hk.align, h1] at h0⟩
  · exact ⟨fun _ _ => ⟨hi, hh.alignBefore, hh.alignAfter, hh.locked, hh.rotated, hh.mode⟩,
      fun _ h1 => by simp [hh.alignAfter] at h1⟩
  · exact ⟨fun _ h1 => by simp [hp.edge] at h1, fun _ _ => ⟨hi, hp.edge⟩⟩

/-- Settles O49: each state's step takes an edge of the table, and no other operation writes
`app_state`. -/
theorem lifecycleHasNoOtherTransition : Obligations.LifecycleHasNoOtherTransition := by
  intro i s t h
  refine ⟨?_, fun hi => ?_⟩
  · rintro rfl
    rw [exec_fg h]
    exact fgState_edge
  · obtain ⟨-, rfl⟩ | ⟨out, rfl⟩ := exec_cases h
    · rfl
    · rw [record_seq, ruleState_app hi]

end Sys2Proof.Safety
end

section
/-! PROOFS. Whole events and events taken access by access (O6, O8, O54, O58, O59, O60). First what one step does
under either grain, with an event on the port and without; then that an event into which nothing falls
is a run of its program; then that no program ends the pulse of `fault_clr`. -/

namespace Sys2Proof.Safety

open Sys2Proof Sys2Proof.Machine Sys2Proof.Laws

/-! ### What an access, an admission and a step read and keep -/

section
variable {w : Widths} {R : Type}

/-- An access changes registers alone. -/
theorem access_keeps {p r : Prog w R} {s t : State w R} {v : Val w R} (h : p.access s = some (t, v, r)) :
    t.preempt = s.preempt ∧ t.frames = s.frames ∧ t.ports = s.ports ∧ t.script = s.script := by
  cases p with
  | done out => cases h
  | read r k => cases h; exact ⟨rfl, rfl, rfl, rfl⟩
  | write r x k => cases h; exact ⟨set_preempt .., set_frames .., set_ports .., set_script ..⟩

/-- A program that has not ended has a next access. -/
theorem access_of_not_done {p : Prog w R} (s : State w R) (h : p.isDone = false) :
    ∃ t v r, p.access s = some (t, v, r) := by
  cases p with
  | done out => cases h
  | read r k => exact ⟨_, _, _, rfl⟩
  | write r x k => exact ⟨_, _, _, rfl⟩

theorem run_of_isDone {p : Prog w R} (h : p.isDone = true) (s : State w R) : p.run s = s := by
  cases p with
  | done out => rfl
  | _ => cases h

theorem length_of_isDone {p : Prog w R} (h : p.isDone = true) (s : State w R) : p.length s = 0 := by
  cases p with
  | done out => rfl
  | _ => cases h

/-- Masking looks at the peripheral-control registers only (R203). -/
theorem admitted_endPulse (i : Instr) (s : State w R) : admitted i (endPulse s) = admitted i s := by
  cases i <;> simp only [admitted, endPulse_per]

/-- Presenting changes the ports and the schedule alone, whether an event waits or not. -/
theorem presentUnlessWaiting_eq (s : State w R) :
    presentUnlessWaiting s =
      { s with ports := (presentUnlessWaiting s).ports, script := (presentUnlessWaiting s).script } := by
  unfold presentUnlessWaiting
  split <;> rfl

/-! Programs depend neither on what is in progress nor on the ports as they stand. -/

theorem get_withFramesPorts (s : State w R) (fs : List (Frame w R)) (q : Ports w) {κ : Kind} (r : Reg κ) :
    ({ s with frames := fs, ports := q } : State w R).get κ r = s.get κ r := by
  cases r <;> rfl

theorem set_withFramesPorts (s : State w R) (fs : List (Frame w R)) (q : Ports w) {κ : Kind} (r : Reg κ)
    (x : κ.type w R) :
    ({ s with frames := fs, ports := q } : State w R).set κ r x =
      { s.set κ r x with frames := fs, ports := q } := by
  cases r with
  | offset c => cases c <;> rfl
  | calSum c => cases c <;> rfl
  | _ => rfl

theorem run_withFramesPorts (p : Prog w R) (fs : List (Frame w R)) (q : Ports w) :
    ∀ s : State w R,
      p.run { s with frames := fs, ports := q } = { p.run s with frames := fs, ports := q } := by
  induction p with
  | done out => exact fun _ => rfl
  | read r k ih =>
    intro s
    rw [run_read, run_read, get_withFramesPorts]
    exact ih _ s
  | write r x k ih =>
    intro s
    rw [run_write, run_write, set_withFramesPorts]
    exact ih _

theorem length_withFramesPorts (p : Prog w R) (fs : List (Frame w R)) (q : Ports w) :
    ∀ s : State w R, p.length { s with frames := fs, ports := q } = p.length s := by
  induction p with
  | done out => exact fun _ => rfl
  | read r k ih =>
    intro s
    simp only [Prog.length, get_withFramesPorts, ih]
  | write r x k ih =>
    intro s
    simp only [Prog.length, set_withFramesPorts, ih]

end

/-! ### One step -/

section
variable {s t : State} {i : Instr}

/-- An event word is fetched as the event (R65). -/
theorem fetch_of_decode (hd : decode s.ports.ev = .ok i) (hi : i.opClass = .event) : fetch s = .ok i := by
  have hport : i.onEventPort = true := by rw [Instr.onEventPort, hi]
  simp only [fetch, hd, hport, if_true]

theorem fetch_endPulse (s : State) : fetch (endPulse s) = fetch s := by
  simp only [fetch, endPulse_ports]

theorem step_atomic_idle (ha : s.preempt = .eventAtomic) (hn : s.frames = []) (hr : s.ports.rst = false) :
    step s = if s.ports.stb = true then stepEvent (endPulse s) else .next (present (endPulse s)) := by
  simp only [step, advance, ha, hr, stepAtomic, endPulse_frames, hn, endPulse_ports, Bool.false_eq_true,
    if_false]

theorem step_field (ha : s.preempt = .fieldAtomic) (hr : s.ports.rst = false) :
    step s = stepField (endPulse s) := by
  simp only [step, advance, ha, hr, Bool.false_eq_true, if_false]

/-- With no event on the port the operation in progress goes on (R56). -/
theorem step_field_free (ha : s.preempt = .fieldAtomic) (hr : s.ports.rst = false)
    (hs : s.ports.stb = false) : step s = stepAccess (endPulse s) := by
  simp only [step_field ha hr, stepField, endPulse_ports, hs, Bool.false_eq_true, if_false]

/-- With an event on the port it is taken, or waits for the operation in progress (R206; log 17). -/
theorem step_field_event (ha : s.preempt = .fieldAtomic) (hr : s.ports.rst = false)
    (hs : s.ports.stb = true) (hd : decode s.ports.ev = .ok i) (hi : i.opClass = .event) :
    step s = if mayTake i s = true then .next (present (takeEvent i (endPulse s)))
      else stepAccess (endPulse s) := by
  have hm : mayTake i (endPulse s) = mayTake i s := by
    simp only [mayTake, endPulse_frames, endPulse_prio]
  simp only [step_field ha hr, stepField, endPulse_ports, hs, if_true, fetch_endPulse,
    fetch_of_decode hd hi, hm]

/-- With nothing in progress every event can be taken (R209). -/
theorem mayTake_nil (hn : s.frames = []) : mayTake i s = true := by
  unfold mayTake
  rw [hn]
  cases i <;> rfl

/-- An event other than IDLE becomes the innermost operation in progress, unless it is masked (R203, R208). -/
theorem takeEvent_endPulse (hi : i ≠ .idle) :
    takeEvent i (endPulse s) =
      if admitted i s = true then { endPulse s with frames := ⟨i, s.ports, .zero, []⟩ :: s.frames }
      else endPulse s := by
  have htake : takeEvent i (endPulse s) = enterEvent i (endPulse s) := by
    cases i with
    | idle => exact absurd rfl hi
    | _ => rfl
  simp only [htake, enterEvent, admitted_endPulse, endPulse_ports, endPulse_frames]

theorem takeEvent_faultClr (i : Instr) (s : State) : (takeEvent i s).faultClr = s.faultClr := by
  have henter : (enterEvent i s).faultClr = s.faultClr := by
    unfold enterEvent
    split <;> rfl
  cases i with
  | idle => rfl
  | _ => exact henter

/-- An operation that has not ended makes its next access, and ends with its last (R56, R209). -/
theorem stepAccess_of_access {f : MachineFrame} {fs : List MachineFrame} {s' : State}
    {p r : Prog Config.machine.widths Num} {v : Val Config.machine.widths Num}
    (hf : s.frames = f :: fs) (hp : f.rest = some p) (hacc : p.access s = some (s', v, r)) :
    stepAccess s = .next (presentUnlessWaiting
      (if r.isDone = true then leaveEvent s'
        else { s' with frames := { f with log := f.log ++ [v] } :: fs })) := by
  simp only [stepAccess, hf, hp, hacc]
  split <;> rfl

/-- A step of an operation in progress changes registers by at most one access of what is left of it. -/
theorem stepAccess_faultClr (h : stepAccess s = .next t) :
    t.faultClr = s.faultClr ∨
      ∃ (f : MachineFrame) (p r : Prog Config.machine.widths Num) (s' : State)
        (v : Val Config.machine.widths Num),
        f.rest = some p ∧ p.access s = some (s', v, r) ∧ t.faultClr = s'.faultClr := by
  have hpresent : ∀ u : State, (presentUnlessWaiting u).faultClr = u.faultClr :=
    fun u => by rw [presentUnlessWaiting_eq]
  unfold stepAccess at h
  split at h
  next => cases h; exact .inl (hpresent _)
  next f fs _ =>
    split at h
    next => cases h
    next p hp =>
      split at h
      next => cases h; exact .inl (hpresent _)
      next s' v r hacc =>
        split at h <;> cases h <;> exact .inr ⟨f, p, r, s', v, hp, hacc, hpresent _⟩

end

/-! ### Settled by one step -/

/-- Settles O6: the step with nothing in progress, with the strobe and without; that presenting changes
ports and schedule alone is `present_eq`. -/
theorem stepRunsTheEventOnThePort : Obligations.StepRunsTheEventOnThePort := by
  refine ⟨fun s i ha hn hr hs hd hi => ?_, fun s ha hn hr hs => ?_, present_eq⟩
  · rw [step_atomic_idle ha hn hr, if_pos hs, stepEvent, fetch_endPulse, fetch_of_decode hd hi,
      endPulse_idle s (underWay_nil s hn)]
  · rw [step_atomic_idle ha hn hr, if_neg (by simp [hs]), endPulse_idle s (underWay_nil s hn)]

/-- Settles O8: every arm of `exec` performs the operation's program under the configuration of the
machine. -/
theorem everyOperationCompletes : Obligations.EveryOperationCompletes := exec_eq_performWith

/-- The pairs of R206. -/
theorem mayPreempt_iff {i j : Instr} (hi : i = .sample ∨ i = .control ∨ i = .fg)
    (hj : j = .sample ∨ j = .control ∨ j = .fg) (pr : Prio) :
    mayPreempt pr i.agent j.agent = true ↔
      (j = .fg ∧ i ≠ .fg ∨ i = .sample ∧ j = .control ∧ pr = .sampleHigh ∨
        i = .control ∧ j = .sample ∧ pr = .controlHigh) := by
  rcases hi with rfl | rfl | rfl <;> rcases hj with rfl | rfl | rfl <;>
    simp [mayPreempt, Instr.agent]

/-- Settles O59: the event on the port is taken where `mayPreempt` lets it, which is R206's table. -/
theorem priorityDecidesWhatPreempts : Obligations.PriorityDecidesWhatPreempts := by
  intro s i f fs ha hr hs hd hi hf hj
  have hevent : i.opClass = .event := by rcases hi with rfl | rfl | rfl <;> rfl
  have hidle : i ≠ .idle := by rcases hi with rfl | rfl | rfl <;> decide
  have htake : mayTake i s = mayPreempt s.prio i.agent f.op.agent := by
    rcases hi with rfl | rfl | rfl <;> simp only [mayTake, hf]
  simp only [step_field_event ha hr hs hd hevent, takeEvent_endPulse hidle, htake, hf,
    mayPreempt_iff hi hj]

/-- What is left of a Running step that has read an expired `sync_cnt`: GATE's write, then a slow loop,
whose first access is a read (R162, R165). -/
theorem gate_rest {n : Ctr Config.machine.widths} (p : MachinePorts) (u : MachineTemps)
    (hn : Config.machine.slowDiv ≤ n.toNat) :
    ∃ k : Prog Config.machine.widths Num, k.isDone = false ∧
      (⟨.fg, p, u, [.app .running, .ctr n]⟩ : MachineFrame).rest = some (.write .syncCnt 0 k) := by
  have hgate : gateDue Config.machine n = true := decide_eq_true hn
  simp only [Frame.rest, opProgram, fgBody, Prog.resume, Val.toKind, runningStep, gate, hgate, if_true]
  exact ⟨_, rfl, rfl⟩

/-- Settles O60: a CONTROL may fall inside an FG operation, and GATE's write does not look at the
register again. -/
theorem gateCanLoseAControlTick : Obligations.GateCanLoseAControlTick := by
  intro s n p u ha hr hf hn
  have hway : endPulse s = s := endPulse_underWay s (by rw [underWay, hf]; rfl)
  constructor
  · intro hs hev harm hch
    have hd : decode s.ports.ev = .ok .control := by rw [hev]; rfl
    have hadm : admitted .control s = true := by rw [admitted, harm, hch]; rfl
    have htake : mayTake .control s = true := by simp only [mayTake, hf]; rfl
    refine ⟨_, by rw [step_field_event ha hr hs hd rfl, if_pos htake], ?_⟩
    rw [takeEvent_endPulse (by decide), if_pos hadm, hf]
    rfl
  · intro hs
    obtain ⟨k, hk, hrest⟩ := gate_rest p u hn
    refine ⟨_, by rw [step_field_free ha hr hs, hway, stepAccess_of_access hf hrest rfl], ?_⟩
    rw [if_neg (by simp [hk]), presentUnlessWaiting_eq]
    exact ⟨rfl, rfl⟩

/-! ### An event that nothing disturbs -/

/-- The operation `f` is in progress with `p` left of it, no event stands or will be put on the port, and
no pulse is about to end. -/
structure Undisturbed (s : State) (f : MachineFrame) (p : Prog Config.machine.widths Num) : Prop where
  grain : s.preempt = .fieldAtomic
  ports : releasePorts s.ports = s.ports
  script : s.script = []
  pulse : endPulse s = s
  frames : s.frames = [f]
  rest : f.rest = some p

section
variable {s s' : State} {f : MachineFrame} {p r : Prog Config.machine.widths Num}
  {v : Val Config.machine.widths Num}

/-- On a released port with an empty schedule, the environment does nothing. -/
theorem presentUnlessWaiting_released (hp : releasePorts s.ports = s.ports) (hs : s.script = []) :
    presentUnlessWaiting s = s := by
  have hstb : s.ports.stb = false := (congrArg Ports.stb hp).symm
  rw [presentUnlessWaiting_free s hstb]
  simp only [present, hs, hp, nextStimulus]
  rw [← hs]

/-- A step of an undisturbed operation is its next access. -/
theorem Undisturbed.step_eq (h : Undisturbed s f p) (hacc : p.access s = some (s', v, r)) :
    step s = .next (if r.isDone = true then leaveEvent s'
      else { s' with frames := [{ f with log := f.log ++ [v] }] }) := by
  obtain ⟨-, -, hports, hscript⟩ := access_keeps hacc
  have hrel : releasePorts s'.ports = s'.ports := by rw [hports, h.ports]
  have hquiet : s'.script = [] := hscript.trans h.script
  have hrst : s.ports.rst = false := (congrArg Ports.rst h.ports).symm
  have hstb : s.ports.stb = false := (congrArg Ports.stb h.ports).symm
  rw [step_field_free h.grain hrst hstb, h.pulse, stepAccess_of_access h.frames h.rest hacc]
  split
  next => exact congrArg _ (presentUnlessWaiting_released hrel hquiet)
  next => exact congrArg _ (presentUnlessWaiting_released hrel hquiet)

/-- After an access that was not its last the operation is still undisturbed. -/
theorem Undisturbed.access (h : Undisturbed s f p) (hacc : p.access s = some (s', v, r)) :
    Undisturbed { s' with frames := [{ f with log := f.log ++ [v] }] } { f with log := f.log ++ [v] } r := by
  obtain ⟨hgrain, -, hports, hscript⟩ := access_keeps hacc
  exact
    { grain := hgrain.trans h.grain
      ports := by rw [hports, h.ports]
      script := hscript.trans h.script
      pulse := endPulse_underWay _ (by simp [underWay])
      frames := rfl
      rest := resume_append v r s s' f.log _ p h.rest hacc }

/-- R55, R56, R58: as many steps as an undisturbed operation has accesses left run it to its end. -/
theorem Undisturbed.steps_eq (n : Nat) : ∀ {s : State} {f : MachineFrame}
    {p : Prog Config.machine.widths Num}, Undisturbed s f p → p.isDone = false → p.length s = n →
      steps n s = some { p.run s with frames := [] } := by
  induction n with
  | zero =>
    intro s f p _ hp hlen
    obtain ⟨s', v, r, hacc⟩ := access_of_not_done s hp
    rw [access_length hacc] at hlen
    cases hlen
  | succ n ih =>
    intro s f p h hp hlen
    obtain ⟨s', v, r, hacc⟩ := access_of_not_done s hp
    obtain ⟨-, hframes, hports, -⟩ := access_keeps hacc
    have hlen' : r.length s' = n := Nat.succ.inj ((access_length hacc).symm.trans hlen)
    rw [steps, h.step_eq hacc, ← access_run hacc]
    cases hr : r.isDone with
    | true =>
      rw [length_of_isDone hr] at hlen'
      subst hlen'
      rw [run_of_isDone hr]
      simp only [if_true, steps, leaveEvent, hframes, h.frames, List.tail_cons]
    | false =>
      simp only [Bool.false_eq_true, if_false]
      have hnext := ih (h.access hacc) hr
        ((length_withFramesPorts r _ s'.ports s').trans hlen')
      rw [hnext, run_withFrames]

end

/-- Every event but IDLE makes an access. -/
theorem opProgram_event_isDone {i : Instr} (hi : i.opClass = .event) (hidle : i ≠ .idle)
    (p : MachinePorts) (t : MachineTemps) : (opProgram Config.machine p t i).isDone = false := by
  cases i with
  | idle => exact absurd rfl hidle
  | sample => rfl
  | control => rfl
  | fg => rfl
  | _ => cases hi

/-- The results in parentheses are those of sub-operations (R94, R100, R124). -/
theorem hasResult_event {i : Instr} (hi : i.opClass = .event) : hasResult i = false := by
  cases i with
  | curacq => cases hi
  | curloop => cases hi
  | calpoll => cases hi
  | _ => rfl

/-- The state right after an admitted event has been taken with nothing in progress and nothing to come. -/
def takenState (i : Instr) (s : State) : State :=
  { ({ s with faultClr := false } : State) with
    frames := [⟨i, s.ports, s.temps, []⟩], ports := releasePorts s.ports }

section
variable {s : State} {i : Instr}

theorem step_takes_event (ha : s.preempt = .fieldAtomic) (hn : s.frames = []) (hs : s.script = [])
    (hr : s.ports.rst = false) (hstb : s.ports.stb = true) (hd : decode s.ports.ev = .ok i)
    (hi : i.opClass = .event) (hidle : i ≠ .idle) (hadm : admitted i s = true) :
    step s = .next (takenState i s) := by
  have htemps : s.temps = .zero := by rw [State.temps, hn]
  rw [step_field_event ha hr hstb hd hi, if_pos (mayTake_nil hn),
    takeEvent_endPulse hidle, if_pos hadm,
    endPulse_idle s (underWay_nil s hn), hn]
  simp only [takenState, htemps, present, hs, nextStimulus]

theorem takenState_undisturbed (ha : s.preempt = .fieldAtomic) (hs : s.script = []) :
    Undisturbed (takenState i s) ⟨i, s.ports, s.temps, []⟩ (opProgram Config.machine s.ports s.temps i) where
  grain := ha
  ports := rfl
  script := hs
  pulse := rfl
  frames := rfl
  rest := resume_nil _

end

/-- Settles O58: the first step takes the event, and an undisturbed operation runs to its end, which
is its program run whole. -/
theorem undisturbedEventIsAtomic : Obligations.UndisturbedEventIsAtomic := by
  intro s i ha hn hs hr hstb hd hi hidle hadm
  have hperform : performWith Config.machine i { s with faultClr := false } =
      (opProgram Config.machine s.ports s.temps i).run { s with faultClr := false } := by
    have hadm' : admitted i ({ s with faultClr := false } : State) = true := hadm
    rw [performWith, hasResult_event hi]
    exact if_pos hadm'
  have hrun := (takenState_undisturbed (i := i) ha hs).steps_eq _
    (opProgram_event_isDone hi hidle s.ports s.temps) (length_withFramesPorts _ _ _ _)
  rw [Nat.add_comm, steps, step_takes_event ha hn hs hr hstb hd hi hidle hadm]
  refine hrun.trans ?_
  rw [takenState, run_withFramesPorts, hperform]
  rfl

/-! ### No program ends the pulse of `fault_clr` -/

section
variable {w : Widths} {R : Type}

/-- Whatever a program reads, no write of it takes `fault_clr` from high to low. -/
def KeepsPulse : Prog w R → Prop
  | .done _ => True
  | .read _ k => ∀ x, KeepsPulse (k x)
  | .write r x k => (∀ s : State w R, s.faultClr = true → (s.set _ r x).faultClr = true) ∧ KeepsPulse k

@[simp] theorem keepsPulse_done (out : Temps w R → Temps w R) : KeepsPulse (.done out) := trivial

@[simp] theorem keepsPulse_stop : KeepsPulse (.stop : Prog w R) := trivial

@[simp] theorem keepsPulse_read {κ : Kind} (r : Reg κ) (k : κ.type w R → Prog w R) :
    KeepsPulse (.read r k) ↔ ∀ x, KeepsPulse (k x) := Iff.rfl

@[simp] theorem keepsPulse_write {κ : Kind} (r : Reg κ) (x : κ.type w R) (k : Prog w R) :
    KeepsPulse (.write r x k) ↔
      (∀ s : State w R, s.faultClr = true → (s.set _ r x).faultClr = true) ∧ KeepsPulse k := Iff.rfl

theorem keepsPulse_ite {b : Prop} [Decidable b] {p q : Prog w R} (hp : KeepsPulse p) (hq : KeepsPulse q) :
    KeepsPulse (if b then p else q) := by
  split
  next => exact hp
  next => exact hq

theorem keepsPulse_onlyIf {b : Bool} {f : Prog w R → Prog w R} {k : Prog w R}
    (hf : ∀ k, KeepsPulse k → KeepsPulse (f k)) (hk : KeepsPulse k) : KeepsPulse (Prog.onlyIf b f k) :=
  keepsPulse_ite (hf k hk) hk

/-- What is left of such a program after any log is such a program. -/
theorem KeepsPulse.resume {p : Prog w R} (h : KeepsPulse p) :
    ∀ {vs : List (Val w R)} {q : Prog w R}, p.resume vs = some q → KeepsPulse q := by
  induction p with
  | done out =>
    intro vs q hq
    cases vs with
    | nil => cases hq; exact h
    | cons v vs => cases hq
  | @read κ r k ih =>
    intro vs q hq
    cases vs with
    | nil => cases hq; exact h
    | cons v vs =>
      simp only [Prog.resume] at hq
      split at hq
      next x _ => exact ih x (h x) hq
      next => cases hq
  | write r x k ih =>
    intro vs q hq
    cases vs with
    | nil => cases hq; exact h
    | cons v vs =>
      simp only [Prog.resume] at hq
      split at hq
      next => exact ih h.2 hq
      next => cases hq

theorem KeepsPulse.access {p r : Prog w R} {s t : State w R} {v : Val w R} (hp : KeepsPulse p)
    (h : p.access s = some (t, v, r)) (hs : s.faultClr = true) : t.faultClr = true := by
  cases p with
  | done out => cases h
  | read r k => cases h; exact hs
  | write r x k => cases h; exact hp.1 s hs

/-! MSTART_END writes `fault_clr`, and writes it high (R175); no other rule writes it. -/

theorem keepsPulse_decimatePhase (ph : Phase) {k : Prog w R} (hk : KeepsPulse k) :
    KeepsPulse (decimatePhase ph k) := by simp [decimatePhase, hk]

theorem keepsPulse_decimate {k : Prog w R} (hk : KeepsPulse k) : KeepsPulse (decimate k) :=
  keepsPulse_decimatePhase _ (keepsPulse_decimatePhase _ (by simp [hk]))

theorem keepsPulse_initOp {k : Prog w R} (hk : KeepsPulse k) : KeepsPulse (initOp k) := by
  simp [initOp, hk]

theorem keepsPulse_mstartEnd {k : Prog w R} (hk : KeepsPulse k) : KeepsPulse (mstartEnd k) := by
  simp [mstartEnd, hk]

theorem keepsPulse_waitStartStep (p : Ports w) {k : Prog w R} (hk : KeepsPulse k) :
    KeepsPulse (waitStartStep p k) :=
  keepsPulse_onlyIf (fun _ h => by simp [h]) <| keepsPulse_onlyIf (fun _ h => by simp [h]) hk

end

section
variable {S R : Type} {c : Config S R} {k : Prog c.widths R}

theorem keepsPulse_filt (ph : Phase) (raw : Count c.widths) (hk : KeepsPulse k) :
    KeepsPulse (filt c ph raw k) := by simp [filt, hk]

theorem keepsPulse_sampleBody (p : Ports c.widths) (hk : KeepsPulse k) : KeepsPulse (sampleBody c p k) := by
  refine keepsPulse_filt _ _ (keepsPulse_filt _ _ ?_)
  simp only [keepsPulse_read, keepsPulse_write, set_decCnt, imp_self, implies_true, true_and]
  exact fun _ _ => keepsPulse_onlyIf (fun _ h => by simp [keepsPulse_decimate h]) hk

theorem keepsPulse_settlePoll (hk : KeepsPulse k) : KeepsPulse (settlePoll c k) :=
  fun _ _ => keepsPulse_onlyIf (fun _ h => by simp [h]) hk

theorem keepsPulse_dutyGen (vD vQ : R) (hk : KeepsPulse k) : KeepsPulse (dutyGen c vD vQ k) := by
  simp [dutyGen, hk]

theorem keepsPulse_currentPIs (iD iQ : R) {k : R → R → Prog c.widths R} (hk : ∀ x y, KeepsPulse (k x y)) :
    KeepsPulse (currentPIs c iD iQ k) := by simp [currentPIs, hk]

theorem keepsPulse_gate {k : Bool → Prog c.widths R} (hk : ∀ b, KeepsPulse (k b)) :
    KeepsPulse (gate c k) := fun _ => keepsPulse_ite (by simp [hk]) (hk false)

variable [AddCommGroup R]

theorem keepsPulse_handover {w : Widths} {k : Prog w R} (hk : KeepsPulse k) : KeepsPulse (handover k) := by
  simp [handover, hk]

theorem keepsPulse_cpReset (hk : KeepsPulse k) : KeepsPulse (cpReset c k) := by
  simp [cpReset, hk]

theorem keepsPulse_mstartBegin (hk : KeepsPulse k) : KeepsPulse (mstartBegin c k) :=
  keepsPulse_cpReset (by simp [hk])

theorem keepsPulse_mstop (hk : KeepsPulse k) : KeepsPulse (mstop c k) := by
  unfold mstop
  simp only [keepsPulse_write, set_pwmPinsEn, set_pwmChEn, imp_self, implies_true, true_and]
  exact keepsPulse_cpReset (by simp [hk])

theorem keepsPulse_ramp (hk : KeepsPulse k) : KeepsPulse (ramp c k) :=
  fun _ _ => keepsPulse_ite (by simp [hk]) (keepsPulse_ite (by simp [hk]) hk)

/-- The five buttons and the new state, one after the other (R162). -/
theorem keepsPulse_runningButtons (b : Buttons) (next : AppState) (hk : KeepsPulse k) :
    KeepsPulse (runningButtons c b next k) :=
  keepsPulse_onlyIf (fun _ h => by simp [h]) <|
  keepsPulse_onlyIf (fun _ h => by simp [h]) <|
  keepsPulse_onlyIf (fun _ h => by simp [h]) <|
  keepsPulse_onlyIf (fun _ h => by simp [h]) <|
  keepsPulse_onlyIf (fun _ h => by simp [h]) (by simp [hk])

theorem keepsPulse_stoppedStep (hk : KeepsPulse k) : KeepsPulse (stoppedStep c k) := by
  unfold stoppedStep
  simp only [keepsPulse_write, set_indRun, set_indIdle, imp_self, implies_true, true_and]
  exact keepsPulse_mstop (by simp [hk])

variable [Field S]

omit [AddCommGroup R] in
theorem keepsPulse_endCalibration (hk : KeepsPulse k) : KeepsPulse (endCalibration c k) := by
  simp [endCalibration, hk]

omit [AddCommGroup R] in
theorem keepsPulse_calPoll {k : Bool → Prog c.widths R} (hk : ∀ b, KeepsPulse (k b)) :
    KeepsPulse (calPoll c k) := by
  have hend : ∀ b : Bool, KeepsPulse (if b = true then endCalibration c (k true) else k false) :=
    fun _ => keepsPulse_ite (keepsPulse_endCalibration (hk true)) (hk false)
  exact fun _ _ => keepsPulse_ite (by simp [hend]) (hk false)

/-- The Start step runs MSTART_END at its end (R160). -/
theorem keepsPulse_startStep (hk : KeepsPulse k) : KeepsPulse (startStep c k) := by
  intro ph
  cases ph with
  | idle => simp [keepsPulse_mstartBegin hk]
  | settle => exact keepsPulse_settlePoll hk
  | cal =>
    exact keepsPulse_calPoll fun _ =>
      keepsPulse_onlyIf (fun _ h => keepsPulse_mstartEnd (by simp [h])) hk

variable [Module S R]

theorem keepsPulse_curAcq {k : R → R → R → Prog c.widths R} (hk : ∀ x y z, KeepsPulse (k x y z)) :
    KeepsPulse (curAcq c k) := by simp [curAcq, hk]

theorem keepsPulse_posUpd (p : Ports c.widths) (hk : KeepsPulse k) : KeepsPulse (posUpd c p k) := by
  simp [posUpd, hk]

theorem keepsPulse_velEst (p : Ports c.widths) (hk : KeepsPulse k) : KeepsPulse (velEst c p k) :=
  fun _ _ => keepsPulse_onlyIf (fun _ h => by simp [h]) (by simp [hk])

theorem keepsPulse_curLoop (iD iQ : R) {k : R → R → Prog c.widths R} (hk : ∀ x y, KeepsPulse (k x y)) :
    KeepsPulse (curLoop c iD iQ k) := by
  have hpis := keepsPulse_currentPIs (c := c) iD iQ hk
  intro mode
  cases mode with
  | openLoop => simp [hpis]
  | closedLoop => exact fun _ => keepsPulse_ite (by simp [hpis]) (by simp [hpis])

theorem keepsPulse_align (hk : KeepsPulse k) : KeepsPulse (align c k) :=
  fun _ => keepsPulse_ite
    (fun _ => keepsPulse_ite (by simp [hk])
      fun _ => keepsPulse_ite (by simp [hk]) (keepsPulse_handover hk)) hk

theorem keepsPulse_angUpd (p : Ports c.widths) (hk : KeepsPulse k) : KeepsPulse (angUpd c p k) := by
  intro mode
  cases mode with
  | openLoop => exact keepsPulse_align hk
  | closedLoop => exact keepsPulse_posUpd p hk

theorem keepsPulse_controlBody (p : Ports c.widths) (hk : KeepsPulse k) : KeepsPulse (controlBody c p k) :=
  keepsPulse_curAcq fun _ _ _ _ => keepsPulse_curLoop _ _ fun _ _ =>
    keepsPulse_angUpd p (keepsPulse_dutyGen _ _ (by simp [hk]))

theorem keepsPulse_slowLoop (p : Ports c.widths) (hk : KeepsPulse k) : KeepsPulse (slowLoop c p k) :=
  keepsPulse_ramp (keepsPulse_velEst p (by simp [hk]))

theorem keepsPulse_runningStep (p : Ports c.widths) (hk : KeepsPulse k) : KeepsPulse (runningStep c p k) := by
  have hbuttons := fun next => keepsPulse_runningButtons (c := c) p.btn next hk
  refine keepsPulse_gate fun _ => keepsPulse_ite (keepsPulse_slowLoop p ?_) (hbuttons _)
  simp only [keepsPulse_read, keepsPulse_write, set_inactCnt, imp_self, implies_true, true_and]
  exact fun _ _ => keepsPulse_onlyIf (fun _ h => by simp [h]) (by simp [hbuttons])

theorem keepsPulse_stopDecreaseStep (p : Ports c.widths) (hk : KeepsPulse k) :
    KeepsPulse (stopDecreaseStep c p k) :=
  fun _ _ => keepsPulse_ite (by simp [hk]) <| keepsPulse_gate fun _ => keepsPulse_ite
    (keepsPulse_slowLoop p fun _ _ _ => keepsPulse_onlyIf (fun _ h => by simp [h]) hk) hk

theorem keepsPulse_fgBody (p : Ports c.widths) (hk : KeepsPulse k) : KeepsPulse (fgBody c p k) := by
  intro app
  cases app with
  | init => exact keepsPulse_initOp (by simp [hk])
  | waitStart => exact keepsPulse_waitStartStep p hk
  | start => exact keepsPulse_startStep hk
  | running => exact keepsPulse_runningStep p hk
  | stopDecrease => exact keepsPulse_stopDecreaseStep p hk
  | stopped => exact keepsPulse_stoppedStep hk

theorem keepsPulse_opProgram (c : Config S R) (p : Ports c.widths) (t : Temps c.widths R) (i : Instr) :
    KeepsPulse (opProgram c p t i) := by
  cases i with
  | idle => exact keepsPulse_stop
  | sample => exact keepsPulse_sampleBody p keepsPulse_stop
  | control => exact keepsPulse_controlBody p keepsPulse_stop
  | fg => exact keepsPulse_fgBody p keepsPulse_stop
  | filt => exact keepsPulse_filt _ _ keepsPulse_stop
  | decimate => exact keepsPulse_decimate keepsPulse_stop
  | curacq =>
    unfold opProgram opCuracq
    exact keepsPulse_curAcq fun _ _ _ => trivial
  | curloop => exact keepsPulse_curLoop _ _ fun _ _ => trivial
  | angupd => exact keepsPulse_angUpd p keepsPulse_stop
  | align => exact keepsPulse_align keepsPulse_stop
  | posupd => exact keepsPulse_posUpd p keepsPulse_stop
  | dutygen => exact keepsPulse_dutyGen _ _ keepsPulse_stop
  | init => exact keepsPulse_initOp keepsPulse_stop
  | cpreset => exact keepsPulse_cpReset keepsPulse_stop
  | mstartBegin => exact keepsPulse_mstartBegin keepsPulse_stop
  | settlepoll => exact keepsPulse_settlePoll keepsPulse_stop
  | calpoll =>
    unfold opProgram opCalpoll
    exact keepsPulse_calPoll fun _ => trivial
  | mstartEnd => exact keepsPulse_mstartEnd keepsPulse_stop
  | mstop => exact keepsPulse_mstop keepsPulse_stop
  | slowloop => exact keepsPulse_slowLoop p keepsPulse_stop

end

/-- What is left of an operation in progress does not end the pulse, whatever its log holds. -/
theorem frame_rest_keepsPulse {f : MachineFrame} {p : Prog Config.machine.widths Num}
    (h : f.rest = some p) : KeepsPulse p :=
  (keepsPulse_opProgram Config.machine f.ports f.temps f.op).resume h

/-- With an event under way, no step but a reset ends the pulse (R52; log 13). -/
theorem step_field_keepsPulse {s t : State} (ha : s.preempt = .fieldAtomic) (hr : s.ports.rst = false)
    (hway : underWay s = true) (h : step s = .next t) (hs : s.faultClr = true) : t.faultClr = true := by
  rw [step_field ha hr, endPulse_underWay s hway] at h
  have haccess : stepAccess s = .next t → t.faultClr = true := by
    intro hstep
    obtain hkeep | ⟨f, p, r, s', v, hrest, hacc, hlast⟩ := stepAccess_faultClr hstep
    · rw [hkeep, hs]
    · rw [hlast, (frame_rest_keepsPulse hrest).access hacc hs]
  unfold stepField at h
  split at h
  next =>
    split at h
    next => cases h
    next i _ =>
      split at h
      next =>
        cases h
        rw [present_eq]
        exact (takeEvent_faultClr i s).trans hs
      next => exact haccess h
  next => exact haccess h

/-! ### Where the pulse begins -/

section
variable {S R : Type} {c : Config S R} {s : State c.widths R}

theorem sampleState_faultClr : (sampleState c s).faultClr = s.faultClr := by
  unfold sampleState
  dsimp only
  split <;> rfl

theorem settleState_faultClr : (settleState c s).faultClr = s.faultClr := by
  unfold settleState
  split <;> rfl

variable [Field S]

theorem calState_faultClr : (calState c s).faultClr = s.faultClr := by
  simp only [calState, apply_ite State.faultClr, ite_self]

variable [AddCommGroup R]

/-- The Start step raises the pulse when it ends the calibration (R160). -/
theorem startStepState_faultClr (hs : s.faultClr = false) :
    (startStepState c s).faultClr = true ↔ s.seq.fgPhase = .cal ∧ calDone c s = true := by
  unfold startStepState
  split
  next hp => simp [mstartBeginState, hs, hp]
  next hp => simp [settleState_faultClr, hs, hp]
  next hp =>
    split
    next hd => simp [mstartEndState, hp, hd]
    next hd => simp [calState_faultClr, hs, hd]

variable [Module S R]

theorem alignState_faultClr : (alignState c s).faultClr = s.faultClr := by
  simp only [alignState, handoverState, apply_ite State.faultClr, ite_self]

theorem angUpdState_faultClr : (angUpdState c s).faultClr = s.faultClr := by
  unfold angUpdState
  split
  next => exact alignState_faultClr
  next => rfl

theorem curLoopState_faultClr (iD iQ : R) : (curLoopState c iD iQ s).faultClr = s.faultClr := by
  simp only [curLoopState, curLoopRefs]
  split
  next => rfl
  next => split <;> rfl

theorem controlState_faultClr : (controlState c s).faultClr = s.faultClr :=
  angUpdState_faultClr.trans (curLoopState_faultClr _ _)

theorem runningState_faultClr : (runningState c s).faultClr = s.faultClr := by
  unfold runningState
  split <;> rfl

theorem stopDecreaseState_faultClr : (stopDecreaseState c s).faultClr = s.faultClr := by
  unfold stopDecreaseState
  split
  next => rfl
  next =>
    split
    next => dsimp only; split <;> rfl
    next => rfl

/-- Of the state steps, only that of Start can raise the pulse (R153). -/
theorem fgState_faultClr (hs : s.faultClr = false) :
    (fgState c s).faultClr = true ↔
      s.seq.app = .start ∧ s.seq.fgPhase = .cal ∧ calDone c s = true := by
  unfold fgState
  split
  next ha => simp [initStepState, initState, hs, ha]
  next ha => simp [waitStartState, hs, ha]
  next ha => rw [startStepState_faultClr hs, and_iff_right ha]
  next ha => simp [runningState_faultClr, hs, ha]
  next ha => simp [stopDecreaseState_faultClr, hs, ha]
  next ha => simp [stoppedState, mstopState, hs, ha]

/-- Only MSTART_END and FG write `fault_clr` (R52). -/
theorem ruleState_faultClr {i : Instr} (hi : i ≠ .mstartEnd) (hfg : i ≠ .fg) :
    (ruleState c i s).faultClr = s.faultClr := by
  cases i with
  | mstartEnd => exact absurd rfl hi
  | fg => exact absurd rfl hfg
  | sample => exact sampleState_faultClr
  | control => exact controlState_faultClr
  | curloop => exact curLoopState_faultClr _ _
  | angupd => exact angUpdState_faultClr
  | align => exact alignState_faultClr
  | settlepoll => exact settleState_faultClr
  | calpoll => exact calState_faultClr
  | _ => rfl

end

/-- R52, R160, R175: which operations raise the pulse. -/
theorem exec_raises_pulse_iff {i : Instr} {s t : State} (h : exec i s = .next t) (hs : s.faultClr = false) :
    t.faultClr = true ↔
      i = .mstartEnd ∨
        i = .fg ∧ s.seq.app = .start ∧ s.seq.fgPhase = .cal ∧ calDone Config.machine s = true := by
  by_cases hend : i = .mstartEnd
  · subst hend
    cases h
    exact ⟨fun _ => .inl rfl, fun _ => rfl⟩
  by_cases hfg : i = .fg
  · subst hfg
    rw [exec_fg h, fgState_faultClr hs]
    simp
  have hkeep : t.faultClr = false := by
    obtain ⟨-, rfl⟩ | ⟨out, rfl⟩ := exec_cases h
    · exact hs
    · rw [record_faultClr, ruleState_faultClr hend hfg, hs]
  simp [hkeep, hend, hfg]

/-- Settles O54: the operations that raise the pulse, and that no program of accesses lowers it. -/
theorem faultClearIsPulsedAtStartOnly : Obligations.FaultClearIsPulsedAtStartOnly :=
  ⟨fun _ _ _ h hs => exec_raises_pulse_iff h hs,
    fun _ _ ha hr hway h hs => step_field_keepsPulse ha hr hway h hs⟩

end Sys2Proof.Safety
end

section
/-! PROOFS. The encodings (O1, O2, O3, O4, O5, O10) and the operation invoked by itself (O7). First the
decoder and the encoder as inverses of each other; then what the event port fetches, and a step that refuses
it; then the codes of the enumerated registers; then the lines of the pseudo-operations. -/

namespace Sys2Proof.Safety

open Sys2Proof Sys2Proof.Machine Sys2Proof.Laws

/-! ### The decoder and the encoder -/

section
variable {i : Instr} {w : EvWord} {n : Nat}

/-- The round trip, for all the rows of the opcode table (R65, R67). -/
theorem roundTrip : ∀ i, RoundTrip.Statement i
  | .idle => RoundTrip.idle
  | .sample => RoundTrip.sample
  | .control => RoundTrip.control
  | .fg => RoundTrip.fg
  | .filt => RoundTrip.filt
  | .decimate => RoundTrip.decimate
  | .curacq => RoundTrip.curacq
  | .curloop => RoundTrip.curloop
  | .angupd => RoundTrip.angupd
  | .align => RoundTrip.align
  | .posupd => RoundTrip.posupd
  | .dutygen => RoundTrip.dutygen
  | .init => RoundTrip.init
  | .cpreset => RoundTrip.cpreset
  | .mstartBegin => RoundTrip.mstartBegin
  | .settlepoll => RoundTrip.settlepoll
  | .calpoll => RoundTrip.calpoll
  | .mstartEnd => RoundTrip.mstartEnd
  | .mstop => RoundTrip.mstop
  | .slowloop => RoundTrip.slowloop

@[simp] theorem decode_encode (i : Instr) : decode (encode i) = .ok i := (roundTrip i).1

/-- Each row of the opcode map is {`cls`, `op`} of its operation (R63). -/
theorem toNat_encode_of_opcodeOf (h : opcodeOf n = some i) : (encode i).toNat = n := by
  unfold opcodeOf at h
  split at h <;> cases h <;> rfl

theorem opcodeOf_of_decode (h : decode w = .ok i) : opcodeOf w.toNat = some i := by
  unfold decode at h
  split at h
  next j hj => cases h; exact hj
  next => cases h

theorem encode_of_decode (h : decode w = .ok i) : encode i = w :=
  BitVec.eq_of_toNat_eq (toNat_encode_of_opcodeOf (opcodeOf_of_decode h))

/-- Words with `cls` = 0 and `op` at least 4 have no row (R68). -/
theorem opcodeOf_reserved (h4 : 4 ≤ n) (h15 : n ≤ 15) : opcodeOf n = none := by
  interval_cases n <;> rfl

/-- Every word with `cls` = 1 has a row, in the table of the sub-operations (R67). -/
theorem opcodeOf_subOperation (h16 : 16 ≤ n) (h32 : n < 32) :
    ∃ i, opcodeOf n = some i ∧ i.opClass = .subOperation := by
  interval_cases n <;> exact ⟨_, rfl, rfl⟩

end

/-- Settles O1: the round trip of every operation, and each row of the map read backwards. -/
theorem decodeUndoesEncode : Obligations.DecodeUndoesEncode :=
  ⟨decode_encode, fun _ _ => encode_of_decode⟩

/-- Settles O2: each word is the encoding of its operation. -/
theorem tableWordsDecode : Obligations.TableWordsDecode :=
  ⟨decode_encode .sample, decode_encode .control, decode_encode .fg, decode_encode .decimate,
    decode_encode .posupd, decode_encode .mstartBegin, decode_encode .mstartEnd, decode_encode .slowloop⟩

/-! ### What a step does with the word or the invocation it finds -/

section
variable {s : State} {i : Instr} {r : Refusal}

theorem fetch_reserved (h4 : 4 ≤ s.ports.ev.toNat) (h15 : s.ports.ev.toNat ≤ 15) :
    fetch s = .error (.reservedWord s.ports.ev) := by
  simp only [fetch, decode, opcodeOf_reserved h4 h15]

theorem fetch_subOperation (h16 : 16 ≤ s.ports.ev.toNat) :
    fetch s = .error (.subOperationOnPort s.ports.ev) := by
  obtain ⟨i, hi, hcls⟩ := opcodeOf_subOperation h16 s.ports.ev.isLt
  simp only [fetch, decode, hi, Instr.onEventPort, hcls, Bool.false_eq_true, if_false]

/-- A refused word stops the step that takes it, under either grain. -/
theorem step_of_fetch_error (hr : s.ports.rst = false) (hs : s.ports.stb = true)
    (htakes : s.preempt = .eventAtomic ∧ s.frames = [] ∨ s.preempt = .fieldAtomic)
    (hf : fetch s = .error r) : step s = .refused r := by
  obtain ⟨ha, hn⟩ | ha := htakes
  · simp only [step_atomic_idle ha hn hr, hs, if_true, stepEvent, fetch_endPulse, hf]
  · simp only [step_field ha hr, stepField, endPulse_ports, hs, if_true, fetch_endPulse, hf]

/-- Under `eventAtomic` the innermost operation in progress is finished before anything else. -/
theorem step_atomic_frame {f : MachineFrame} {fs : List MachineFrame} (ha : s.preempt = .eventAtomic)
    (hr : s.ports.rst = false) (hf : s.frames = f :: fs) : step s = stepFinish f (endPulse s) := by
  simp only [step, advance, ha, hr, stepAtomic, endPulse_frames, hf, Bool.false_eq_true, if_false]

end

/-- Settles O3: the port fetches no operation from such a word, and the step that takes it stops. -/
theorem eventPortRefusesOtherWords : Obligations.EventPortRefusesOtherWords :=
  fun _ hr hs htakes =>
    ⟨fun h4 h15 => step_of_fetch_error hr hs htakes (fetch_reserved h4 h15),
      fun h16 => step_of_fetch_error hr hs htakes (fetch_subOperation h16)⟩

/-- Settles O7: an operation that has made no access is performed by its meaning, and no event is under way,
so that the pulse has ended. -/
theorem stepRunsTheInvokedOperation : Obligations.StepRunsTheInvokedOperation := by
  intro s i u ha hr hf
  have hway : underWay s = false := by rw [underWay, hf]; rfl
  rw [step_atomic_frame ha hr hf, endPulse_idle s hway]
  rfl

/-- Settles O10: IDLE is never masked, and its program makes no access. -/
theorem idleChangesNothing : Obligations.IdleChangesNothing :=
  ⟨decode_encode .idle, exec_eq_performWith .idle⟩

/-! ### The codes of the enumerated registers (R70 to R73) -/

@[simp] theorem appStateOfCode_code (a : AppState) : appStateOfCode (appStateCode a) = some a := by
  cases a <;> rfl

@[simp] theorem ctlModeOfCode_code (m : CtlMode) : ctlModeOfCode (ctlModeCode m) = m := by
  cases m <;> rfl

@[simp] theorem runStatusOfCode_code (r : RunStatus) : runStatusOfCode (runStatusCode r) = r := by
  cases r <;> rfl

@[simp] theorem fgPhaseOfCode_code (p : FgPhase) : fgPhaseOfCode (fgPhaseCode p) = some p := by
  cases p <;> rfl

@[simp] theorem directionOfCode_code (d : Direction) : directionOfCode (directionCode d) = d := by
  cases d <;> rfl

/-- Settles O4: the codes stand in the definitions, and each is read back. -/
theorem registerCodesReadBack : Obligations.RegisterCodesReadBack :=
  ⟨⟨rfl, rfl, rfl, rfl, rfl, rfl, rfl, rfl⟩, ⟨rfl, rfl, rfl, rfl⟩, ⟨rfl, rfl, rfl, rfl⟩,
    ⟨rfl, rfl, rfl, rfl⟩, appStateOfCode_code, ctlModeOfCode_code, runStatusOfCode_code,
    fgPhaseOfCode_code, directionOfCode_code⟩

/-! ### The pseudo-operations (R75) -/

section
variable {b : Nat}

/-- Advancing a port is addition modulo its width. -/
theorem add_portWord (x : BitVec b) (d : Int) : x + portWord b d = BitVec.ofInt b (x.toNat + d) := by
  rw [portWord, BitVec.ofInt_add, BitVec.ofInt_natCast, BitVec.ofNat_toNat, BitVec.setWidth_eq]

/-- One advance by `d` and then `k + 1` more. -/
theorem add_portWord_succ (x : BitVec b) (d : Int) (k : Nat) :
    x + portWord b d + portWord b ((k + 1) * d) = x + portWord b ((↑(k + 1) + 1) * d) := by
  have hsum : (↑(k + 1) + 1) * d = d + (k + 1) * d := by push_cast; ring
  rw [hsum, portWord, portWord, portWord, BitVec.ofInt_add, BitVec.add_assoc]

variable {w : Widths}

theorem samplesFrom_length (du dv : Int) (n : Nat) (u v : Count w) :
    (samplesFrom du dv n u v).length = n := by
  induction n generalizing u v with
  | zero => rfl
  | succ n ih => rw [samplesFrom, List.length_cons, ih]

theorem controlsFrom_length (d : Int) (n : Nat) (x : Pos) : (controlsFrom (w := w) d n x).length = n := by
  induction n generalizing x with
  | zero => rfl
  | succ n ih => rw [controlsFrom, List.length_cons, ih]

theorem samplesFrom_getElem? (du dv : Int) {n k : Nat} (hk : k < n) (u v : Count w) :
    (samplesFrom du dv n u v)[k]? =
      some (.event 0b00001#5 (some (u + portWord w.cw ((k + 1) * du)))
        (some (v + portWord w.cw ((k + 1) * dv))) none noButtons) := by
  induction n generalizing k u v with
  | zero => exact absurd hk k.not_lt_zero
  | succ n ih =>
    rw [samplesFrom]
    cases k with
    | zero => simp
    | succ k =>
      rw [List.getElem?_cons_succ, ih (Nat.lt_of_succ_lt_succ hk), add_portWord_succ, add_portWord_succ]

theorem controlsFrom_getElem? (d : Int) {n k : Nat} (hk : k < n) (x : Pos) :
    (controlsFrom (w := w) d n x)[k]? =
      some (.event 0b00010#5 none none (some (x + portWord POS_W ((k + 1) * d))) noButtons) := by
  induction n generalizing k x with
  | zero => exact absurd hk k.not_lt_zero
  | succ n ih =>
    rw [controlsFrom]
    cases k with
    | zero => simp
    | succ k => rw [List.getElem?_cons_succ, ih (Nat.lt_of_succ_lt_succ hk), add_portWord_succ]

end

/-- Settles O5: line `k` has been advanced `k + 1` times, and a port holds the sum modulo its width. -/
theorem pseudoOperationsAdvanceThePorts : Obligations.PseudoOperationsAdvanceThePorts := by
  intro w
  constructor
  · intro n du dv u v
    refine ⟨samplesFrom_length du dv n u v, fun k hk => ?_⟩
    rw [samplesFrom_getElem? du dv hk, add_portWord, add_portWord]
  · intro n d x
    refine ⟨controlsFrom_length d n x, fun k hk => ?_⟩
    rw [controlsFrom_getElem? d hk, add_portWord]

end Sys2Proof.Safety
end

section
/-! PROOFS. The current filter (O11 to O16, O35 to O38). First what `exec` answers for each operation of the
filter and the calibration; then the median and the clamp as numbers; then the decimator. One phase is a run of
its own (`phaseRun`), linear in its medians modulo `2^AW`: four decimation events after any start its output
is the third difference of the third integrator, which is the threefold moving sum of the medians, which
is the sum of R88. A zero filter is one that has seen zero samples before its start, so that its first
three events are covered too. -/

namespace Sys2Proof.Safety

open Sys2Proof Sys2Proof.Machine Sys2Proof.Laws

/-! ### What `exec` answers -/

section
variable {i : Instr}

/-- Masking is of the two interrupts alone (R203). -/
theorem admitted_subOperation (hi : i.opClass = .subOperation) (s : State) : admitted i s = true := by
  unfold admitted
  split
  next => cases hi
  next => cases hi
  next => rfl

/-- A sub-operation without results is not masked and leaves the state of its rule. -/
theorem exec_subOperation (hi : i.opClass = .subOperation) (hr : hasResult i = false) (s : State) :
    exec i s = .next (ruleState Config.machine i s) := by
  rw [exec_eq_performWith, performWith, hr, run_opProgram]
  exact congrArg _ (if_pos (admitted_subOperation hi s))

/-- A sub-operation with results leaves the state of its rule, with the results recorded (log 12). -/
theorem exec_withResult (hr : hasResult i = true) (s : State) :
    exec i s = .next ((ruleState Config.machine i s).record
      ((opProgram Config.machine s.ports s.temps i).out s)) := by
  rw [exec_eq_performWith, performWith, hr, run_opProgram]

end

/-- Settles O11: the mask of SAMPLE, then its rule. -/
theorem sampleResult : Obligations.SampleResult := by
  refine ⟨decode_encode .sample, rfl, fun s => ?_⟩
  have hmask : admitted .sample s = true ↔ s.per.irqArmed = true ∧ s.per.curRun = true := by
    simp only [admitted, Bool.and_eq_true]
  rw [exec_eq_performWith, performWith, run_opProgram]
  exact congrArg _ (if_congr hmask rfl rfl)

/-- Settles O12: the rule of FILT, which is never masked and has no results. -/
theorem filtResult : Obligations.FiltResult := ⟨decode_encode .filt, exec_subOperation rfl rfl⟩

/-- Settles O13: the rule of DECIMATE, which is never masked and has no results. -/
theorem decimateResult : Obligations.DecimateResult := ⟨decode_encode .decimate, exec_subOperation rfl rfl⟩

/-- Settles O14: the rule writes no register, and its program ends with the three currents. -/
theorem curacqResult : Obligations.CuracqResult := by
  refine ⟨decode_encode .curacq, fun s => ?_⟩
  rw [exec_withResult rfl, opProgram, opCuracq, out_curAcq, out_done]
  rfl

/-- Settles O15: the rule of SETTLEPOLL, which is never masked and has no results. -/
theorem settlepollResult : Obligations.SettlepollResult :=
  ⟨decode_encode .settlepoll, exec_subOperation rfl rfl⟩

/-- Settles O16: the program ends with `done`. -/
theorem calpollResult : Obligations.CalpollResult := by
  refine ⟨decode_encode .calpoll, fun s => ?_⟩
  rw [exec_withResult rfl, opProgram, opCalpoll, out_calPoll, out_done]
  rfl

/-! ### The median of three counts -/

section
variable {w : Widths} {a b d : Count w}

theorem minCount_toNat (a b : Count w) : (minCount a b).toNat = min a.toNat b.toNat :=
  (apply_ite BitVec.toNat _ a b).trans Nat.min_def.symm

theorem maxCount_toNat (a b : Count w) : (maxCount a b).toNat = max a.toNat b.toNat :=
  (apply_ite BitVec.toNat _ b a).trans Nat.max_def.symm

theorem median3_toNat (a b d : Count w) :
    (median3 a b d).toNat = max (min a.toNat b.toNat) (min (max a.toNat b.toNat) d.toNat) := by
  rw [median3, maxCount_toNat, minCount_toNat, minCount_toNat, maxCount_toNat]

theorem median3_mem (a b d : Count w) : median3 a b d ∈ [a, b, d] := by
  simp only [List.mem_cons, List.not_mem_nil, or_false, ← BitVec.toNat_inj, median3_toNat]
  omega

/-- Two of three elements pass a test. -/
theorem two_le_length_filter {α : Type} {p : α → Bool} {x y z : α}
    (h : p x = true ∧ p y = true ∨ p x = true ∧ p z = true ∨ p y = true ∧ p z = true) :
    2 ≤ ([x, y, z].filter p).length := by
  rcases h with ⟨h1, h2⟩ | ⟨h1, h2⟩ | ⟨h1, h2⟩ <;> simp [List.filter_cons, h1, h2] <;> split <;> simp

/-- A bound of all three is a bound of their median. -/
theorem median3_le {n : Nat} (ha : a.toNat ≤ n) (hb : b.toNat ≤ n) (hd : d.toNat ≤ n) :
    (median3 a b d).toNat ≤ n := by
  rw [median3_toNat]
  omega

@[simp] theorem median3_self (a : Count w) : median3 a a a = a := by
  simpa only [List.mem_cons, List.not_mem_nil, or_false, or_self] using median3_mem a a a

end

/-- Settles O35: of the minimum and the maximum of the first two, the median is the one nearer to the third,
or the third itself. -/
theorem medianIsTheMiddleElement : Obligations.MedianIsTheMiddleElement := by
  intro w a b d
  refine ⟨median3_mem a b d, two_le_length_filter ?_, two_le_length_filter ?_⟩ <;>
    simp only [decide_eq_true_eq, median3_toNat] <;> omega

/-! ### The delta -/

section
variable {S R : Type} (c : Config S R)

theorem clampDelta_le (d : Count c.widths) : (clampDelta c d).toNat ≤ c.deltaMax := by
  unfold clampDelta
  split
  next h => exact h
  next => exact (BitVec.toNat_ofNat _ _).trans_le (Nat.mod_le _ _)

variable {c}

theorem clampDelta_of_le {d : Count c.widths} (h : d.toNat ≤ c.deltaMax) : clampDelta c d = d := if_pos h

/-- The clamp as a number (R80), where `DELTA_MAX` is a count. -/
theorem clampDelta_toNat (hfit : c.deltaMax < 2 ^ c.widths.cw) (d : Count c.widths) :
    (clampDelta c d).toNat = min d.toNat c.deltaMax := by
  by_cases h : d.toNat ≤ c.deltaMax
  · rw [clampDelta_of_le h, Nat.min_eq_left h]
  · rw [clampDelta, if_neg h, BitVec.toNat_ofNat, Nat.mod_eq_of_lt hfit, Nat.min_eq_right (Nat.le_of_not_le h)]

end

/-- The wrapping difference as a number (R79). -/
theorem toNat_sub_of_add {b : Nat} (x y : BitVec b) : (x - y).toNat = (x.toNat + 2 ^ b - y.toNat) % 2 ^ b := by
  rw [BitVec.toNat_sub]
  congr 1
  omega

theorem deltaMax_lt : Config.machine.deltaMax < 2 ^ Config.machine.widths.cw := by
  obtain ⟨-, h, -⟩ := machine_integers
  exact h

/-- Settles O36: the newest delta is the clamped wrapping difference. -/
theorem storedDeltaIsClamped : Obligations.StoredDeltaIsClamped := by
  intro s
  refine ⟨_, exec_subOperation rfl rfl s, ?_⟩
  rw [ruleState, filtState, ofPhase_withPhase, filteredPhase, clampDelta_toNat deltaMax_lt,
    toNat_sub_of_add]

/-! ### Moving sums and differences -/

section
variable {A : Type}

/-- The sum of the five values after place `k`. -/
def boxcar [Add A] (x : Nat → A) (k : Nat) : A := x (k + 1) + x (k + 2) + x (k + 3) + x (k + 4) + x (k + 5)

/-- The difference over five places from `k` on. -/
def lag [Sub A] (x : Nat → A) (k : Nat) : A := x (k + 5) - x k

variable [AddCommGroup A] {x y : Nat → A}

/-- The difference of an integrator over five places is the moving sum of its input. -/
theorem lag_of_accumulates (h : ∀ k, x (k + 1) = x k + y (k + 1)) : lag x = boxcar y := by
  funext k
  rw [lag, boxcar, h (k + 4), h (k + 3), h (k + 2), h (k + 1), h k]
  abel

theorem lag_boxcar (y : Nat → A) : lag (boxcar y) = boxcar (lag y) := by
  funext k
  simp only [lag, boxcar, Nat.add_assoc, Nat.reduceAdd]
  abel

/-- Three integrators in a row, then three differences, are three moving sums in a row. -/
theorem lag_lag_lag_of_accumulates {x1 x2 x3 : Nat → A} (h1 : ∀ k, x1 (k + 1) = x1 k + y (k + 1))
    (h2 : ∀ k, x2 (k + 1) = x2 k + x1 (k + 1)) (h3 : ∀ k, x3 (k + 1) = x3 k + x2 (k + 1)) :
    lag (lag (lag x3)) = boxcar (boxcar (boxcar y)) := by
  rw [lag_of_accumulates h3, lag_boxcar, lag_of_accumulates h2, lag_boxcar, lag_boxcar,
    lag_of_accumulates h1]

end

/-- The impulse response `h` of R88. -/
def impulse : List Nat := [1, 3, 6, 10, 15, 18, 19, 18, 15, 10, 6, 3, 1]

/-- The sum over `j` = 0..12 of `h[j] * m j` (R88). -/
def filterSum (m : Nat → Nat) : Nat := (impulse.zipIdx.map fun hj => hj.1 * m hj.2).sum

theorem filterSum_mono {m m' : Nat → Nat} (h : ∀ j, j < 13 → m j ≤ m' j) : filterSum m ≤ filterSum m' :=
  List.sum_le_sum fun _ hj => Nat.mul_le_mul_left _ (h _ (List.snd_lt_of_mem_zipIdx hj))

theorem filterSum_congr {m m' : Nat → Nat} (h : ∀ j, j < 13 → m j = m' j) : filterSum m = filterSum m' :=
  (filterSum_mono fun j hj => (h j hj).le).antisymm (filterSum_mono fun j hj => (h j hj).ge)

/-- The gain of the filter (R93). -/
theorem filterSum_const (n : Nat) : filterSum (fun _ => n) = 125 * n := by
  simp only [filterSum, impulse, List.zipIdx_cons, List.zipIdx_nil, List.map_cons, List.map_nil,
    List.sum_cons, List.sum_nil]
  omega

/-- The threefold moving sum, written out, is the sum of R88. -/
theorem boxcar_boxcar_boxcar (m : Nat → Nat) (k : Nat) :
    boxcar (boxcar (boxcar m)) k = filterSum fun j => m (k + 15 - j) := by
  simp only [boxcar, filterSum, impulse, List.zipIdx_cons, List.zipIdx_nil, List.map_cons, List.map_nil,
    List.sum_cons, List.sum_nil, Nat.add_assoc, Nat.reduceAdd, Nat.reduceSubDiff, Nat.sub_zero]
  omega

theorem boxcar_cast {A : Type} [Semiring A] (m : Nat → Nat) :
    boxcar (fun k => (m k : A)) = fun k => ((boxcar m k : Nat) : A) := by
  funext k
  simp only [boxcar, Nat.cast_add]

/-! ### One phase of the filter under SAMPLE -/

/-- The addend of the first integrator is the median as a number modulo `2^AW`. -/
theorem extendMedian_eq_cast {w : Widths} (m : Count w) : extendMedian m = (m.toNat : Acc w) := by
  rw [extendMedian, BitVec.natCast_eq_ofNat, BitVec.ofNat_toNat]

/-- The median of the delay line (R81). -/
def medianOf {w : Widths} (f : PhaseFilter w) : Count w := median3 f.med0 f.med1 f.med2

section
variable {S R : Type} (c : Config S R)

/-- The filter registers of a phase after an admitted SAMPLE with the reading `raw`, at a decimation event
or between two (R77). -/
def sampledPhase (event : Prop) [Decidable event] (raw : Count c.widths) (f : PhaseFilter c.widths) :
    PhaseFilter c.widths :=
  if event then decimatedPhase (filteredPhase c raw f) else filteredPhase c raw f

/-- The filter registers of a phase after `k` admitted SAMPLEs with the readings `r`, every fifth a decimation
event. -/
def phaseRun (r : Nat → Count c.widths) (f : PhaseFilter c.widths) : Nat → PhaseFilter c.widths
  | 0 => f
  | k + 1 => sampledPhase c ((k + 1) % 5 = 0) (r k) (phaseRun r f k)

/-- SAMPLE does to each phase what `sampledPhase` says. -/
theorem sampleState_ofPhase (s : State c.widths R) (ph : Phase) :
    (sampleState c s).filt.ofPhase ph =
      sampledPhase c ((s.filt.decCnt + 1).toNat = c.decim) (portCurrent s.ports ph) (s.filt.ofPhase ph) := by
  unfold sampleState sampledPhase
  cases ph <;> split <;> rfl

section
variable (event : Prop) [Decidable event] (raw : Count c.widths) (f : PhaseFilter c.widths)

theorem sampledPhase_prevRaw : (sampledPhase c event raw f).prevRaw = raw := by
  unfold sampledPhase; split <;> rfl

theorem sampledPhase_med0 : (sampledPhase c event raw f).med0 = clampDelta c (raw - f.prevRaw) := by
  unfold sampledPhase; split <;> rfl

theorem sampledPhase_med1 : (sampledPhase c event raw f).med1 = f.med0 := by
  unfold sampledPhase; split <;> rfl

theorem sampledPhase_med2 : (sampledPhase c event raw f).med2 = f.med1 := by
  unfold sampledPhase; split <;> rfl

theorem sampledPhase_integ1 :
    (sampledPhase c event raw f).integ1 = f.integ1 + extendMedian (medianOf (sampledPhase c event raw f)) := by
  unfold sampledPhase; split <;> rfl

theorem sampledPhase_integ2 :
    (sampledPhase c event raw f).integ2 = f.integ2 + (sampledPhase c event raw f).integ1 := by
  unfold sampledPhase; split <;> rfl

theorem sampledPhase_integ3 :
    (sampledPhase c event raw f).integ3 = f.integ3 + (sampledPhase c event raw f).integ2 := by
  unfold sampledPhase; split <;> rfl

end

/-- A zero filter that reads 0 stays zero. -/
theorem sampledPhase_zero (event : Prop) [Decidable event] : sampledPhase c event 0 .zero = .zero := by
  have hd : clampDelta c 0 = 0 := clampDelta_of_le (Nat.zero_le _)
  have hf : filteredPhase c 0 .zero = .zero := by
    simp only [filteredPhase, PhaseFilter.zero, sub_self, hd, median3_self]
    simp [extendMedian]
  rw [sampledPhase, hf, decimatedPhase]
  simp [PhaseFilter.zero]

/-- The combs of a phase. -/
def combsOf {w : Widths} (f : PhaseFilter w) : Acc w × Acc w × Acc w := (f.comb1, f.comb2, f.comb3)

variable {c} (r : Nat → Count c.widths) (f : PhaseFilter c.widths) {t : Nat}

/-- The combs are held between two decimation events. -/
theorem phaseRun_combs_held (ht : t % 5 = 0) {j : Nat} (hj : j < 5) :
    combsOf (phaseRun c r f (t + j)) = combsOf (phaseRun c r f t) := by
  induction j with
  | zero => rfl
  | succ j ih =>
    have hne : ¬ (t + j + 1) % 5 = 0 := by omega
    rw [← ih (by omega), ← Nat.add_assoc, phaseRun, sampledPhase, if_neg hne]
    rfl

/-- One decimation event, from the combs the event before it left (R89). -/
theorem phaseRun_event (ht : t % 5 = 0) :
    let g := phaseRun c r f t
    let g' := phaseRun c r f (t + 5)
    combsOf g' = (g'.integ3, g'.integ3 - g.comb1, g'.integ3 - g.comb1 - g.comb2) ∧
      g'.out0 = g'.integ3 - g.comb1 - g.comb2 - g.comb3 := by
  intro g g'
  have hevent : g' = decimatedPhase (filteredPhase c (r (t + 4)) (phaseRun c r f (t + 4))) :=
    if_pos (by omega)
  have hheld : combsOf (phaseRun c r f (t + 4)) = combsOf g := phaseRun_combs_held r f ht (by omega)
  simp only [combsOf, Prod.mk.injEq] at hheld
  obtain ⟨h1, h2, h3⟩ := hheld
  rw [← h1, ← h2, ← h3, hevent]
  exact ⟨rfl, rfl⟩

/-- From the fourth event on, the output is the third difference of the third integrator, whatever the combs
held at the start. -/
theorem phaseRun_out0_eq_lag (ht : t % 5 = 0) :
    (phaseRun c r f (t + 20)).out0 = lag (lag (lag fun k => (phaseRun c r f k).integ3)) (t + 5) := by
  obtain ⟨h1, -⟩ := phaseRun_event r f ht
  obtain ⟨h2, -⟩ := phaseRun_event r f (t := t + 5) (by omega)
  obtain ⟨h3, -⟩ := phaseRun_event r f (t := t + 10) (by omega)
  obtain ⟨-, h4⟩ := phaseRun_event r f (t := t + 15) (by omega)
  simp only [combsOf, Prod.mk.injEq, Nat.add_assoc, Nat.reduceAdd] at h1 h2 h3 h4
  obtain ⟨h11, -, -⟩ := h1
  obtain ⟨h21, h22, -⟩ := h2
  obtain ⟨h31, h32, h33⟩ := h3
  simp only [lag, Nat.add_assoc, Nat.reduceAdd, h4, h31, h32, h33, h21, h22, h11]

theorem phaseRun_integ1 (k : Nat) : (phaseRun c r f (k + 1)).integ1 =
    (phaseRun c r f k).integ1 + ((medianOf (phaseRun c r f (k + 1))).toNat : Acc c.widths) := by
  rw [← extendMedian_eq_cast]
  exact sampledPhase_integ1 c _ _ _

theorem phaseRun_integ2 (k : Nat) : (phaseRun c r f (k + 1)).integ2 =
    (phaseRun c r f k).integ2 + (phaseRun c r f (k + 1)).integ1 :=
  sampledPhase_integ2 c _ _ _

theorem phaseRun_integ3 (k : Nat) : (phaseRun c r f (k + 1)).integ3 =
    (phaseRun c r f k).integ3 + (phaseRun c r f (k + 1)).integ2 :=
  sampledPhase_integ3 c _ _ _

/-- The sum of R88 in the registers, modulo `2^AW`. -/
theorem phaseRun_out0_eq_cast (ht : t % 5 = 0) :
    (phaseRun c r f (t + 20)).out0 =
      ((filterSum fun j => (medianOf (phaseRun c r f (t + 20 - j))).toNat : Nat) : Acc c.widths) := by
  rw [phaseRun_out0_eq_lag r f ht, lag_lag_lag_of_accumulates
    (y := fun k => ((medianOf (phaseRun c r f k)).toNat : Acc c.widths))
    (x1 := fun k => (phaseRun c r f k).integ1) (x2 := fun k => (phaseRun c r f k).integ2)
    (phaseRun_integ1 r f) (phaseRun_integ2 r f) (phaseRun_integ3 r f),
    boxcar_cast, boxcar_cast, boxcar_cast]
  exact congrArg _ (boxcar_boxcar_boxcar _ (t + 5))

theorem phaseRun_med0_le (k : Nat) : (phaseRun c r f (k + 1)).med0.toNat ≤ c.deltaMax := by
  rw [phaseRun, sampledPhase_med0]
  exact clampDelta_le c _

/-- From SAMPLE 3 on, the delay line holds deltas of the run alone. -/
theorem phaseRun_medianOf (k : Nat) :
    medianOf (phaseRun c r f (k + 3)) = median3 (phaseRun c r f (k + 3)).med0
      (phaseRun c r f (k + 2)).med0 (phaseRun c r f (k + 1)).med0 := by
  rw [medianOf]
  congr 1
  · exact sampledPhase_med1 c _ _ _
  · exact (sampledPhase_med2 c _ _ _).trans (sampledPhase_med1 c _ _ _)

theorem phaseRun_medianOf_le {k : Nat} (hk : 3 ≤ k) : (medianOf (phaseRun c r f k)).toNat ≤ c.deltaMax := by
  obtain ⟨k, rfl⟩ := Nat.exists_eq_add_of_le' hk
  rw [phaseRun_medianOf]
  exact median3_le (phaseRun_med0_le r f _) (phaseRun_med0_le r f _) (phaseRun_med0_le r f _)

/-- R88: the sum fits the registers (R2), so that it is exact. -/
theorem phaseRun_out0 (hfit : 125 * c.deltaMax < 2 ^ c.widths.aw) (ht : t % 5 = 0) (h20 : 20 ≤ t) :
    (phaseRun c r f t).out0.toNat = filterSum fun j => (medianOf (phaseRun c r f (t - j))).toNat := by
  obtain ⟨t, rfl⟩ := Nat.exists_eq_add_of_le' h20
  have hle : (filterSum fun j => (medianOf (phaseRun c r f (t + 20 - j))).toNat) ≤ 125 * c.deltaMax := by
    rw [← filterSum_const]
    exact filterSum_mono fun j hj => phaseRun_medianOf_le r f (by omega)
  rw [phaseRun_out0_eq_cast r f (by omega), BitVec.natCast_eq_ofNat, BitVec.toNat_ofNat,
    Nat.mod_eq_of_lt (hle.trans_lt hfit)]

/-! ### A zero filter as one that has read 0 before -/

/-- Fifteen readings of 0, then the readings `r`. -/
def padded {w : Widths} (r : Nat → Count w) (k : Nat) : Count w := if k < 15 then 0 else r (k - 15)

theorem phaseRun_padded_zero {k : Nat} (hk : k ≤ 15) : phaseRun c (padded r) .zero k = .zero := by
  induction k with
  | zero => rfl
  | succ k ih => rw [phaseRun, ih (by omega), padded, if_pos (by omega), sampledPhase_zero]

theorem phaseRun_padded (k : Nat) : phaseRun c (padded r) .zero (k + 15) = phaseRun c r .zero k := by
  induction k with
  | zero => exact phaseRun_padded_zero r le_rfl
  | succ k ih =>
    have hmod : ((k + 15 + 1) % 5 = 0) = ((k + 1) % 5 = 0) := by rw [eq_iff_iff]; omega
    rw [show k + 1 + 15 = k + 15 + 1 by omega, phaseRun, ih, phaseRun]
    simp only [hmod, padded, Nat.not_lt.2 (Nat.le_add_left 15 k), if_false, Nat.add_sub_cancel]

/-- R88 from a zero filter, at every decimation event. -/
theorem phaseRun_zero_out0 (hfit : 125 * c.deltaMax < 2 ^ c.widths.aw) (ht : t % 5 = 0) (h0 : 0 < t) :
    (phaseRun c r .zero t).out0.toNat =
      filterSum fun j => if j < t then (medianOf (phaseRun c r .zero (t - j))).toNat else 0 := by
  rw [← phaseRun_padded, phaseRun_out0 _ _ hfit (by omega) (by omega)]
  refine filterSum_congr fun j hj => ?_
  split
  next hlt => rw [← phaseRun_padded r (t - j), show t + 15 - j = t - j + 15 by omega]
  next hge =>
    rw [phaseRun_padded_zero r (by omega)]
    exact congrArg BitVec.toNat (median3_self _)

/-! ### Constant deltas -/

section
variable {D : Count c.widths}

theorem phaseRun_constant_med0 (hD : D.toNat ≤ c.deltaMax)
    (hr : ∀ k, r k = f.prevRaw + BitVec.ofNat _ (k + 1) * D) (k : Nat) :
    (phaseRun c r f (k + 1)).med0 = D := by
  have hprev : (phaseRun c r f k).prevRaw = f.prevRaw + BitVec.ofNat _ k * D := by
    cases k with
    | zero => simp [phaseRun]
    | succ k => rw [phaseRun, sampledPhase_prevRaw, hr]
  have hdelta : r k - (phaseRun c r f k).prevRaw = D := by
    rw [hr, hprev, ← BitVec.natCast_eq_ofNat, ← BitVec.natCast_eq_ofNat]
    push_cast
    ring
  rw [phaseRun, sampledPhase_med0, hdelta, clampDelta_of_le hD]

/-- R93 for one phase. -/
theorem phaseRun_constant_out0 (hfit : 125 * c.deltaMax < 2 ^ c.widths.aw) (hD : D.toNat ≤ c.deltaMax)
    (hr : ∀ k, r k = f.prevRaw + BitVec.ofNat _ (k + 1) * D) (ht : t % 5 = 0) (h20 : 20 ≤ t) :
    (phaseRun c r f t).out0.toNat = 125 * D.toNat := by
  rw [phaseRun_out0 r f hfit ht h20, ← filterSum_const]
  refine filterSum_congr fun j hj => ?_
  obtain ⟨k, hk⟩ := Nat.exists_eq_add_of_le' (show 3 ≤ t - j by omega)
  have hmed := phaseRun_constant_med0 r f hD hr
  rw [hk, phaseRun_medianOf, hmed, hmed, hmed, median3_self]

end

end

/-! ### Runs of SAMPLE -/

/-- What stays of the hypotheses of a run of admitted SAMPLEs: it is admitted, and `dec_cnt` tells its place
between two decimation events. -/
structure Sampling (k : Nat) (s : State) : Prop where
  armed : s.per.irqArmed = true
  running : s.per.curRun = true
  decCnt : s.filt.decCnt.toNat = k % 5

section
variable {p : Nat → MachinePorts} {f : Nat → State} {n k : Nat} {s : State}

theorem exec_sample_admitted (ha : s.per.irqArmed = true) (hc : s.per.curRun = true) :
    exec .sample s = .next (sampleState Config.machine s) := by
  obtain ⟨-, -, h⟩ := sampleResult
  rw [h s, if_pos ⟨ha, hc⟩]

/-- The place in the decimation, counted. -/
theorem Sampling.decCnt_succ (h : Sampling k s) : (s.filt.decCnt + 1).toNat = k % 5 + 1 := by
  obtain ⟨hfit, -⟩ := machine_counts
  have hlt : s.filt.decCnt.toNat < Config.machine.decim := by
    rw [h.decCnt, machine_literals.decim]; omega
  rw [counter_succ hfit hlt, h.decCnt]

theorem Sampling.due_iff (h : Sampling k s) :
    (s.filt.decCnt + 1).toNat = Config.machine.decim ↔ (k + 1) % 5 = 0 := by
  rw [h.decCnt_succ, machine_literals.decim]
  omega

theorem Sampling.next (h : Sampling k s) : Sampling (k + 1) (sampleState Config.machine s) := by
  have hdue := h.due_iff
  unfold sampleState
  split
  next hd => exact ⟨h.armed, h.running, (hdue.1 hd).symm⟩
  next hd =>
    have hne : ¬ (k + 1) % 5 = 0 := fun e => hd (hdue.2 e)
    refine ⟨h.armed, h.running, h.decCnt_succ.trans ?_⟩
    omega

/-- In a run of admitted SAMPLEs each phase runs by itself. -/
theorem ofPhase_of_runOf (hrun : RunOf .sample p f n) (h0 : Sampling 0 (f 0)) (ph : Phase) (hk : k ≤ n) :
    Sampling k (f k) ∧ (f k).filt.ofPhase ph =
      phaseRun Config.machine (fun j => portCurrent (p j) ph) ((f 0).filt.ofPhase ph) k := by
  induction k with
  | zero => exact ⟨h0, rfl⟩
  | succ k ih =>
    obtain ⟨hs, hph⟩ := ih (by omega)
    have hs' : Sampling k { f k with ports := p k } := ⟨hs.armed, hs.running, hs.decCnt⟩
    have hnext : f (k + 1) = sampleState Config.machine { f k with ports := p k } := by
      have he := hrun k hk
      rw [exec_sample_admitted hs'.armed hs'.running] at he
      exact (Host.Outcome.next.inj he).symm
    rw [hnext]
    refine ⟨hs'.next, ?_⟩
    rw [sampleState_ofPhase, phaseRun, ← hph]
    simp only [hs'.due_iff]

end

theorem filterSum_fits : 125 * Config.machine.deltaMax < 2 ^ Config.machine.widths.aw := by
  obtain ⟨-, -, h, -⟩ := machine_integers
  exact h

/-- Settles O37: each phase runs by itself, from a zero filter. -/
theorem decimatedOutputIsTheFilterSum : Obligations.DecimatedOutputIsTheFilterSum := by
  intro p f n hrun ha hc h0 ph t hpos htn ht
  have hstart : Sampling 0 (f 0) := ⟨ha, hc, by rw [h0]; rfl⟩
  have hzero : (f 0).filt.ofPhase ph = .zero := by rw [h0]; cases ph <;> rfl
  have hphase : ∀ k, k ≤ n → (f k).filt.ofPhase ph =
      phaseRun Config.machine (fun j => portCurrent (p j) ph) .zero k := by
    intro k hk
    obtain ⟨-, hk⟩ := ofPhase_of_runOf hrun hstart ph hk
    rw [hk, hzero]
  rw [hphase t htn, phaseRun_zero_out0 _ filterSum_fits ht hpos, filterSum, impulse]
  refine congrArg List.sum (List.map_congr_left fun hj _ => ?_)
  rw [hphase _ (by omega), mul_ite, mul_zero, medianOf]

/-- Settles O38: each phase runs by itself, with constant deltas. -/
theorem steadyStateGainIs125 : Obligations.SteadyStateGainIs125 := by
  intro p f n D hrun ha hc hdec hD hconst ph t h20 htn ht
  have hstart : Sampling 0 (f 0) := ⟨ha, hc, by rw [hdec]; rfl⟩
  have hread : ∀ k, portCurrent (p k) ph = ((f 0).filt.ofPhase ph).prevRaw + BitVec.ofNat _ (k + 1) * D := by
    intro k
    obtain ⟨hu, hv⟩ := hconst k
    cases ph with
    | u => exact hu
    | v => exact hv
  obtain ⟨-, hphase⟩ := ofPhase_of_runOf hrun hstart ph htn
  rw [hphase]
  exact phaseRun_constant_out0 _ _ filterSum_fits hD hread ht h20

end Sys2Proof.Safety
end

section
/-! PROOFS. The position and speed estimator (O17, O41, O43 to O45). First what `exec` answers for POSUPD
and for SLOWLOOP, which runs VELEST; then what NORM does to an exact angle, case by case; then the signed
movement between two readings, which is the integer movement reduced to 16 signed bits. -/

namespace Sys2Proof.Safety

open Sys2Proof Sys2Proof.Machine Sys2Proof.Laws

/-! ### POSUPD (R104, R109) -/

theorem exec_posupd (s : State) : exec .posupd s = .next (posUpdState Config.machine s) :=
  exec_subOperation rfl rfl s

/-- Settles O17: the rule of POSUPD, which is never masked and has no results. -/
theorem posupdResult : Obligations.PosupdResult := ⟨decode_encode .posupd, exec_posupd⟩

/-- Settles O41: both registers are remainders modulo `PPER`, whatever was in them before. -/
theorem compensatedCountStaysInRange : Obligations.CompensatedCountStaysInRange := fun s =>
  ⟨posUpdState Config.machine s, exec_posupd s, rfl, Nat.mod_lt _ pper_pos, compAfter_lt _ _ _⟩

/-! ### NORM in exact arithmetic (R111 to R113) -/

/-- The three branches of NORM without rounding, each with the angles that reach it as real numbers. -/
theorem norm_exact_cases {S R : Type} [Field S] [AddCommGroup R] [Module S R] {c : Config S R}
    {scale : S →+* ℝ} {value : R → ℝ} (hs : c.real.Sound scale value) (hc : c.ExactModel) (th : R) :
    2 * Real.pi ≤ value th ∧ Machine.norm c th = th - c.real.twoPi ∨
      value th < 0 ∧ Machine.norm c th = th + c.real.twoPi ∨
      (0 ≤ value th ∧ value th < 2 * Real.pi) ∧ Machine.norm c th = th := by
  unfold Machine.norm
  rw [hc, hc]
  split
  next hge =>
    rw [hs.le, value_twoPi hs] at hge
    exact .inl ⟨hge, rfl⟩
  next hlt =>
    rw [hs.le, value_twoPi hs, not_le] at hlt
    split
    next hneg =>
      rw [value_lt hs, hs.zero] at hneg
      exact .inr (.inl ⟨hneg, rfl⟩)
    next hnonneg =>
      rw [value_lt hs, hs.zero, not_lt] at hnonneg
      exact .inr (.inr ⟨⟨hnonneg, hlt⟩, rfl⟩)

/-- Settles O43: a turn taken off leaves the upper bound to check, a turn added the lower one; the other
bound, on those branches, and both on the third hold on either side. -/
theorem normIsValidOnItsRange : Obligations.NormIsValidOnItsRange := by
  intro S R _ _ _ c scale value th hs hc
  have hturn := Real.two_pi_pos
  obtain ⟨hge, hnorm⟩ | ⟨hneg, hnorm⟩ | ⟨⟨hnonneg, hlt⟩, hnorm⟩ := norm_exact_cases hs hc th
  · refine ⟨.inl hnorm, ?_⟩
    rw [hnorm, value_sub hs, value_twoPi hs]
    refine and_congr (iff_of_true ?_ ?_) ⟨fun _ => ?_, fun _ => ?_⟩ <;> linarith
  · refine ⟨.inr (.inr hnorm), ?_⟩
    rw [hnorm, hs.add, value_twoPi hs]
    refine and_congr ⟨fun _ => ?_, fun _ => ?_⟩ (iff_of_true ?_ ?_) <;> linarith
  · refine ⟨.inr (.inl hnorm), ?_⟩
    rw [hnorm]
    exact iff_of_true ⟨hnonneg, hlt⟩ ⟨by linarith, by linarith⟩

/-! ### The signed movement (R114, R116) -/

/-- The movement between two readings `d` counts apart is `d` reduced to 16 signed bits. -/
theorem signedMovement_ofInt (base : Pos) (d : Int) :
    signedMovement (BitVec.ofInt POS_W (base.toNat + d)) base = d.bmod 65536 := by
  have hsub : BitVec.ofInt POS_W (base.toNat + d) - base = BitVec.ofInt POS_W d := by
    rw [BitVec.ofInt_add, BitVec.ofInt_natCast, BitVec.ofNat_toNat, BitVec.setWidth_eq, add_sub_cancel_left]
  rw [signedMovement, hsub]
  exact BitVec.toInt_ofInt d

theorem signedMovement_self (base : Pos) : signedMovement base base = 0 := by
  rw [signedMovement, BitVec.sub_self, BitVec.toInt_zero]

/-- Settles O44: the 16 signed bits hold every movement but the last, which wraps. -/
theorem signedDeltaIsTheMovement : Obligations.SignedDeltaIsTheMovement := by
  intro base d hlow hhigh
  rw [signedMovement_ofInt]
  split
  next hd => subst hd; decide
  next hd => exact Int.bmod_eq_of_le (by omega) (by omega)

/-! ### The first slow loop of a run (R114, R115) -/

theorem exec_slowloop (s : State) : exec .slowloop s = .next (slowLoopState Config.machine s) :=
  exec_subOperation rfl rfl s

section
variable {S R : Type} [Field S] [AddCommGroup R] [Module S R] (c : Config S R) {s : State c.widths R}

theorem velocityAfter_of_baseline {base : Pos} (h : baselineOf s = base) :
    velocityAfter c s =
      c.rnd (((signedMovement s.ports.posCnt base : S) / (c.pper * c.tSlow)) • c.real.twoPi) := by
  rw [velocityAfter, h, signedMovement]

/-- The first slow loop of a run subtracts its own reading. -/
theorem velocityAfter_resync (hprev : s.ctl.runStatusPrev = .stop) (hnow : s.ctl.runStatus = .run) :
    velocityAfter c s = c.rnd 0 := by
  have hbase : baselineOf s = s.ports.posCnt := if_pos ⟨hprev, hnow⟩
  rw [velocityAfter_of_baseline c hbase, signedMovement_self, Int.cast_zero, zero_div, zero_smul]

end

/-- Settles O45: the first slow loop has no movement to measure and takes its reading as the baseline; after
it the statuses agree, so that the next one keeps that baseline. -/
theorem firstSlowLoopResynchronises : Obligations.FirstSlowLoopResynchronises := by
  intro s hprev hnow
  have hzero : velocityAfter Config.machine s = 0 :=
    (velocityAfter_resync Config.machine hprev hnow).trans representable_zero
  refine ⟨slowLoopState Config.machine s, exec_slowloop s, hzero, hnow, rfl, fun p =>
    ⟨_, exec_slowloop _, velocityAfter_of_baseline Config.machine ?_⟩⟩
  have hagree : ¬ (s.ctl.runStatus = .stop ∧ s.ctl.runStatus = .run) := by simp [hnow]
  exact if_neg hagree

end Sys2Proof.Safety
end

section
/-! PROOFS. The vector control (O18 to O20, O22, O46, O47, O50). First the frames of the rules of CONTROL and
what `exec` answers for each of its operations; then who writes `direction`; then the alignment: CURLOOP
leaves it as it stands, ALIGN takes it from the place after `k` CONTROLs to the place after `k + 1`, and a
run of CONTROLs is an induction over its places (`Scheduled`). -/

namespace Sys2Proof.Safety

open Sys2Proof Sys2Proof.Machine Sys2Proof.Laws

/-! ### What the rules of CONTROL leave alone -/

section
variable {S R : Type} [Field S] [AddCommGroup R] [Module S R] (c : Config S R) (s : State c.widths R)

/-- ALIGN writes the estimator and the control registers alone. -/
theorem alignState_frame :
    alignState c s = { s with pos := (alignState c s).pos, ctl := (alignState c s).ctl } := by
  unfold alignState
  split
  next =>
    split
    next => rfl
    next => split <;> rfl
  next => rfl

/-- ANGUPD writes the estimator and the control registers alone. -/
theorem angUpdState_frame :
    angUpdState c s = { s with pos := (angUpdState c s).pos, ctl := (angUpdState c s).ctl } := by
  unfold angUpdState
  split
  next => exact alignState_frame c s
  next => rfl

/-- CURLOOP writes the control registers and the controllers alone. -/
theorem curLoopState_frame (iD iQ : R) :
    curLoopState c iD iQ s =
      { s with ctl := (curLoopState c iD iQ s).ctl, loops := (curLoopState c iD iQ s).loops } := by
  unfold curLoopState curLoopRefs
  split
  next => rfl
  next => split <;> rfl

theorem controlState_per : (controlState c s).per = s.per := by
  change (angUpdState c _).per = _
  rw [angUpdState_frame, curLoopState_frame]

/-- CONTROL leaves the estimator and the control registers as CURLOOP and then ANGUPD do, but for
`sync_cnt` (R119). -/
theorem controlState_parts : ∃ iD iQ,
    (controlState c s).pos = (angUpdState c (curLoopState c iD iQ s)).pos ∧
      ∃ n, (controlState c s).ctl = { (angUpdState c (curLoopState c iD iQ s)).ctl with syncCnt := n } :=
  ⟨_, _, rfl, _, rfl⟩

end

/-! ### What `exec` answers -/

/-- Settles O18: the program ends with the outputs of the two PI calls. -/
theorem curloopResult : Obligations.CurloopResult := by
  refine ⟨decode_encode .curloop, fun s => ?_⟩
  rw [exec_withResult rfl, opProgram, opCurloop, out_curLoop, out_done]
  rfl

/-- Settles O20: the rule of ALIGN, which is never masked and has no results. -/
theorem alignResult : Obligations.AlignResult := ⟨decode_encode .align, exec_subOperation rfl rfl⟩

/-- Settles O19: the rule of ANGUPD, one branch for each mode. -/
theorem angupdResult : Obligations.AngupdResult := by
  refine ⟨decode_encode .angupd, fun s => ?_⟩
  have hexec : exec .angupd s = .next (angUpdState Config.machine s) := exec_subOperation rfl rfl s
  refine ⟨fun hm => ?_, fun hm => ?_⟩ <;> rw [hexec, angUpdState, hm]

/-- Settles O22: the mask of CONTROL, then its rule. -/
theorem controlResult : Obligations.ControlResult := by
  refine ⟨decode_encode .control, rfl, fun s => ?_⟩
  have hmask : admitted .control s = true ↔ s.per.irqArmed = true ∧ s.per.pwmChEn = true := by
    simp only [admitted, Bool.and_eq_true]
  rw [exec_eq_performWith, performWith, run_opProgram]
  exact congrArg _ (if_congr hmask rfl rfl)

/-! ### The limits of the controllers (R134, R147) -/

/-- What `pi_control` returns lies inside the output limits of its gain record and is a value of NUM
(log 3, log 20). -/
theorem piControl_output {g : PIGains ℚ Num} (hg : g.outMin.toReal ≤ g.outMax.toReal) (x : PIState Num)
    (measured reference : Num) :
    (g.outMin.toReal ≤ (Config.machine.lib.piControl g x measured reference).1.toReal ∧
      (Config.machine.lib.piControl g x measured reference).1.toReal ≤ g.outMax.toReal) ∧
      Config.machine.Representable (Config.machine.lib.piControl g x measured reference).1 :=
  ⟨machine_valid.limits g x measured reference hg, machine_valid.format.output g x measured reference⟩

/-- Settles O46: each of the three is an output of `pi_control`, and the limits of the three gain records
are in order (R2). -/
theorem controllerOutputsStayInTheirLimits : Obligations.ControllerOutputsStayInTheirLimits := by
  obtain ⟨-, -, -, -, -, -, -, -, -, -, hd, hq, hvel⟩ := machine_reals
  refine fun s => ⟨fun hframes => ?_, _, exec_slowloop s, piControl_output hvel _ _ _⟩
  obtain ⟨-, hexec⟩ := curloopResult
  have hprogress : (curLoopState Config.machine s.temps.iD s.temps.iQ s).frames ≠ [] := by
    rwa [curLoopState_frame]
  refine ⟨_, hexec s, ?_⟩
  rw [record_temps _ _ hprogress]
  obtain ⟨hlimD, hnumD⟩ := piControl_output hd s.loops.d s.temps.iD (curLoopRefs Config.machine s).ctl.idRef
  obtain ⟨hlimQ, hnumQ⟩ := piControl_output hq s.loops.q s.temps.iQ (curLoopRefs Config.machine s).ctl.iqRef
  exact ⟨hlimD, hlimQ, hnumD, hnumQ⟩

/-! ### `direction` (R136) -/

section
variable {S R : Type} [Field S] [AddCommGroup R] {c : Config S R} {s : State c.widths R}

theorem startStepState_direction : (startStepState c s).ctl.direction = s.ctl.direction := by
  unfold startStepState
  split
  next => rfl
  next => exact congrArg _ settleState_ctl
  next => split <;> exact congrArg _ calState_ctl

variable [Module S R]

theorem alignState_direction : (alignState c s).ctl.direction = s.ctl.direction := by
  unfold alignState
  split
  next =>
    split
    next => rfl
    next => split <;> rfl
  next => rfl

theorem angUpdState_direction : (angUpdState c s).ctl.direction = s.ctl.direction := by
  unfold angUpdState
  split
  next => exact alignState_direction
  next => rfl

theorem curLoopState_direction (iD iQ : R) :
    (curLoopState c iD iQ s).ctl.direction = s.ctl.direction := by
  obtain ⟨x, b, hctl, -⟩ := curLoopState_ctl c iD iQ s
  rw [hctl]

theorem controlState_direction : (controlState c s).ctl.direction = s.ctl.direction :=
  angUpdState_direction.trans (curLoopState_direction _ _)

theorem runningState_direction : (runningState c s).ctl.direction = s.ctl.direction := by
  unfold runningState
  split <;> rfl

theorem stopDecreaseState_direction : (stopDecreaseState c s).ctl.direction = s.ctl.direction := by
  unfold stopDecreaseState
  split
  next => rfl
  next =>
    split
    next => dsimp only; split <;> rfl
    next => rfl

/-- An FG step keeps `direction`, or runs INIT, or finds the direction button pressed in WaitStart
(R155, R158). -/
theorem fgState_direction :
    (fgState c s).ctl.direction = s.ctl.direction ∨
      s.seq.app = .init ∨ s.seq.app = .waitStart ∧ s.ports.btn.dir = true := by
  unfold fgState
  split
  next ha => exact .inr (.inl ha)
  next ha =>
    cases hb : s.ports.btn.dir with
    | false => exact .inl (if_neg (by simp [hb]))
    | true => exact .inr (.inr ⟨ha, rfl⟩)
  next => exact .inl startStepState_direction
  next => exact .inl runningState_direction
  next => exact .inl stopDecreaseState_direction
  next => exact .inl rfl

/-- Who writes `direction`. -/
theorem ruleState_direction (c : Config S R) (i : Instr) (s : State c.widths R) :
    (ruleState c i s).ctl.direction = s.ctl.direction ∨
      i = .init ∨ i = .fg ∧ (s.seq.app = .init ∨ s.seq.app = .waitStart ∧ s.ports.btn.dir = true) := by
  cases i with
  | init => exact .inr (.inl rfl)
  | fg => exact fgState_direction.imp_right fun h => .inr ⟨rfl, h⟩
  | sample => exact .inl (congrArg _ sampleState_ctl)
  | control => exact .inl controlState_direction
  | curloop => exact .inl (curLoopState_direction _ _)
  | angupd => exact .inl angUpdState_direction
  | align => exact .inl alignState_direction
  | settlepoll => exact .inl (congrArg _ settleState_ctl)
  | calpoll => exact .inl (congrArg _ calState_ctl)
  | _ => exact .inl rfl

end

/-- Settles O50: a masked operation changes nothing, and every other rule than the three keeps
`direction`. -/
theorem directionIsFixedDuringARun : Obligations.DirectionIsFixedDuringARun := by
  intro i s t h hne
  obtain ⟨-, rfl⟩ | ⟨out, rfl⟩ := exec_cases h
  · exact absurd rfl hne
  · rw [record_ctl] at hne
    exact (ruleState_direction Config.machine i s).resolve_left hne

/-! ### The schedule of the alignment (R128 to R130, R133) -/

section
variable {S R : Type} [Field S] [AddCommGroup R] [Module S R]

/-- The control registers `k` CONTROLs into an alignment in direction `d`: `lock_cnt` counts the first `L`
of them and `rot_cnt` the others. -/
structure Aligning (c : Config S R) (d : Direction) (k : Nat) (x : Control c.widths R) : Prop where
  mode : x.mode = .openLoop
  active : x.alignActive = true
  edge : x.changeMode = false
  direction : x.direction = d
  lockCnt : x.lockCnt.toNat = min k c.lockCount
  rotCnt : x.rotCnt.toNat = k - c.lockCount

/-- The angle that CONTROL `k` of an alignment holds. -/
def heldAngle (c : Config S R) (d : Direction) (k : Nat) : R :=
  if k ≤ c.lockCount then lockAngle c else rotationAngle c d

/-- What the handover leaves (R130). -/
structure AtHandover {w : Widths} {R : Type} [AddCommGroup R] (p : Position R) (x : Control w R) : Prop where
  mode : x.mode = .closedLoop
  inactive : x.alignActive = false
  edge : x.changeMode = true
  angle : p.angle = 0
  comp : p.comp = 0
  prev : p.prev = 0
  count : p.count = 0
  velPrevRaw : p.velPrevRaw = 0

/-- The schedule of R129: the estimator and the control registers after CONTROL `k` of a run that begins
with the alignment. -/
inductive Scheduled (c : Config S R) (d : Direction) (k : Nat) (p : Position R)
    (x : Control c.widths R) : Prop
  /-- the two holds, each of `L` CONTROLs -/
  | holding (hk : k ≤ 2 * c.lockCount) (hctl : Aligning c d k x)
      (hangle : 1 ≤ k → p.angle = heldAngle c d k)
  /-- CONTROL `2L + 1` -/
  | handover (hk : k = 2 * c.lockCount + 1) (h : AtHandover p x)
  /-- closed loop, the one-shot consumed -/
  | tracking (hk : 2 * c.lockCount + 1 < k) (hmode : x.mode = .closedLoop) (hedge : x.changeMode = false)

variable {c : Config S R} {s : State c.widths R} {d : Direction} {k : Nat}

theorem heldAngle_lock (h : k ≤ c.lockCount) : heldAngle c d k = norm c (c.rnd c.alignAngle) := if_pos h

theorem heldAngle_rotation (h : c.lockCount < k) :
    heldAngle c d k = norm c (c.rnd (c.alignAngle + ((signOf d : S) / 2) • c.real.pi)) := by
  rw [heldAngle, if_neg (by omega), rotationAngle, sign_eq]

/-- In open loop CURLOOP writes references only: the alignment stays where it is (R124). -/
theorem Aligning.curLoop (h : Aligning c d k s.ctl) (iD iQ : R) :
    Aligning c d k (curLoopState c iD iQ s).ctl := by
  obtain ⟨x, b, hctl, hb⟩ := curLoopState_ctl c iD iQ s
  have hdown := h.edge
  rw [hctl]
  exact { h with edge := Bool.eq_false_iff.2 fun e => by simp [hb e] at hdown }

/-- ALIGN brings the alignment one place on: it counts in the first hold, in the second, or hands over
(R128). -/
theorem Aligning.scheduled_align (hfit : c.lockCount < 2 ^ c.widths.ctr) (h : Aligning c d k s.ctl)
    (hk : k ≤ 2 * c.lockCount) :
    Scheduled c d (k + 1) (alignState c s).pos (alignState c s).ctl := by
  have hlockCnt := h.lockCnt
  have hrotCnt := h.rotCnt
  rw [alignState, if_pos h.active]
  split
  next hlock =>
    have hsucc := counter_succ hfit hlock
    refine .holding (by omega) { h with lockCnt := ?_, rotCnt := ?_ }
      fun _ => (heldAngle_lock (d := d) (by omega)).symm
    · dsimp only; omega
    · dsimp only; omega
  next hlock =>
    split
    next hrot =>
      have hsucc := counter_succ hfit hrot
      refine .holding (by omega) { h with lockCnt := ?_, rotCnt := ?_ } fun _ => ?_
      · dsimp only; omega
      · dsimp only; omega
      · rw [heldAngle_rotation (by omega), ← h.direction]
    next hrot => exact .handover (by omega) ⟨rfl, rfl, rfl, rfl, rfl, rfl, rfl, rfl⟩

/-- `sync_cnt` is no part of the schedule. -/
theorem Scheduled.withSyncCnt {p : Position R} {x : Control c.widths R} (h : Scheduled c d k p x)
    (n : Ctr c.widths) : Scheduled c d k p { x with syncCnt := n } := by
  cases h with
  | holding hk hctl hangle => exact .holding hk { hctl with } hangle
  | handover hk h => exact .handover hk { h with }
  | tracking hk hmode hedge => exact .tracking hk hmode hedge

theorem Aligning.scheduled_control (hfit : c.lockCount < 2 ^ c.widths.ctr) (h : Aligning c d k s.ctl)
    (hk : k ≤ 2 * c.lockCount) :
    Scheduled c d (k + 1) (controlState c s).pos (controlState c s).ctl := by
  obtain ⟨iD, iQ, hpos, n, hctl⟩ := controlState_parts c s
  have hcur := h.curLoop iD iQ
  rw [hpos, hctl, angUpdState, hcur.mode]
  exact (hcur.scheduled_align hfit hk).withSyncCnt n

/-- In closed loop CONTROL stays there and the one-shot is down after it (R126, R133). -/
theorem controlState_closedLoop (hmode : s.ctl.mode = .closedLoop) :
    (controlState c s).ctl.mode = .closedLoop ∧ (controlState c s).ctl.changeMode = false := by
  obtain ⟨iD, iQ, -, n, hctl⟩ := controlState_parts c s
  obtain ⟨hm, he⟩ : (curLoopState c iD iQ s).ctl.mode = .closedLoop ∧
      (curLoopState c iD iQ s).ctl.changeMode = false := by
    unfold curLoopState curLoopRefs
    rw [hmode]
    cases hedge : s.ctl.changeMode with
    | true => exact ⟨hmode, rfl⟩
    | false => exact ⟨hmode, hedge⟩
  rw [hctl, angUpdState, hm]
  exact ⟨hm, he⟩

/-- An admitted CONTROL brings a run one place on. -/
theorem Scheduled.next (hfit : c.lockCount < 2 ^ c.widths.ctr) (h : Scheduled c d k s.pos s.ctl) :
    Scheduled c d (k + 1) (controlState c s).pos (controlState c s).ctl := by
  cases h with
  | holding hk hctl hangle => exact hctl.scheduled_control hfit hk
  | handover hk h =>
    obtain ⟨hmode, hedge⟩ := controlState_closedLoop h.mode
    exact .tracking (by omega) hmode hedge
  | tracking hk hmode _ =>
    obtain ⟨hmode, hedge⟩ := controlState_closedLoop hmode
    exact .tracking (by omega) hmode hedge

end

theorem exec_control_admitted {s : State} (ha : s.per.irqArmed = true) (hc : s.per.pwmChEn = true) :
    exec .control s = .next (controlState Config.machine s) := by
  obtain ⟨-, -, h⟩ := controlResult
  rw [h s, if_pos ⟨ha, hc⟩]

/-- A run of CONTROLs whose first is admitted stays admitted and follows the schedule. -/
theorem scheduled_of_runOf {p : Nat → MachinePorts} {f : Nat → State} {n k : Nat} {d : Direction}
    (hrun : RunOf .control p f n) (ha : (f 0).per.irqArmed = true) (hc : (f 0).per.pwmChEn = true)
    (h0 : Aligning Config.machine d 0 (f 0).ctl) (hk : k ≤ n) :
    (f k).per = (f 0).per ∧ Scheduled Config.machine d k (f k).pos (f k).ctl := by
  obtain ⟨-, -, -, hfit, -⟩ := machine_counts
  induction k with
  | zero => exact ⟨rfl, .holding (Nat.zero_le _) h0 nofun⟩
  | succ k ih =>
    obtain ⟨hper, hsched⟩ := ih (by omega)
    have hnext : f (k + 1) = controlState Config.machine { f k with ports := p k } := by
      have hexec := hrun k hk
      rw [exec_control_admitted (by rwa [hper]) (by rwa [hper])] at hexec
      exact (Host.Outcome.next.inj hexec).symm
    rw [hnext]
    exact ⟨(controlState_per _ _).trans hper,
      Scheduled.next (s := { f k with ports := p k }) hfit hsched⟩

/-- Settles O47: the run follows the schedule, and each of its places is read off. -/
theorem alignmentFollowsItsSchedule : Obligations.AlignmentFollowsItsSchedule := by
  intro p f n hrun ha hc hmode hactive hedge hlock hrot k hpos hkn
  have h0 : Aligning Config.machine (f 0).ctl.direction 0 (f 0).ctl :=
    ⟨hmode, hactive, hedge, rfl, by simp [hlock], by simp [hrot]⟩
  obtain ⟨-, hsched⟩ := scheduled_of_runOf hrun ha hc h0 hkn
  cases hsched with
  | holding hk hctl hangle =>
    have hlockCnt := hctl.lockCnt
    have hrotCnt := hctl.rotCnt
    refine ⟨fun hfirst =>
        ⟨?_, by omega, BitVec.eq_of_toNat_eq (hrotCnt.trans (Nat.sub_eq_zero_of_le hfirst))⟩,
      fun hsecond _ => ⟨?_, by omega, hrotCnt⟩,
      fun _ => ⟨hctl.mode, hctl.active, hctl.edge⟩, fun _ => by omega, fun _ => by omega⟩
    · rw [hangle hpos, heldAngle_lock hfirst]
    · rw [hangle hpos, heldAngle_rotation hsecond, machine_real, reals_pi]
  | handover hk h =>
    exact ⟨fun _ => by omega, fun _ _ => by omega, fun _ => by omega,
      fun _ => ⟨h.mode, h.inactive, h.edge, h.angle, h.comp, h.prev, h.count, h.velPrevRaw⟩,
      fun _ => by omega⟩
  | tracking hk hm he =>
    exact ⟨fun _ => by omega, fun _ _ => by omega, fun _ => by omega, fun _ => by omega,
      fun _ => ⟨hm, he⟩⟩

end Sys2Proof.Safety
end

section
/-! PROOFS. The PWM duty generator (O21). DUTYGEN is a sub-operation without results, so `exec` answers the
state of its rule; that its three writes leave `dutyState` is `run_dutyGen`. -/

namespace Sys2Proof.Safety

open Sys2Proof Sys2Proof.Machine Sys2Proof.Laws

/-! ### DUTYGEN (R141, R149) -/

theorem exec_dutygen (s : State) :
    exec .dutygen s = .next (dutyState Config.machine s.temps.vD s.temps.vQ s) :=
  exec_subOperation rfl rfl s

/-- Settles O21: the rule of DUTYGEN, which is never masked and has no results. -/
theorem dutygenResult : Obligations.DutygenResult := ⟨decode_encode .dutygen, exec_dutygen⟩

end Sys2Proof.Safety
end

section
/-! PROOFS. The scheduler (O23 to O34, O51 to O53). First what `exec` answers for each operation of FG and for
FG in each application state; then `sync_cnt`, which CONTROL raises by one, a slow loop clears and nothing
else raises, so that the ticks pay for the slow loops of any sequence of events; then the inactivity count
of Running; then StopDecrease, where a value falls or rises toward a bound by a limited step and rounding
takes it neither past the bound nor back. -/

namespace Sys2Proof.Safety

open Sys2Proof Sys2Proof.Machine Sys2Proof.Laws

/-! ### What `exec` answers -/

/-- Settles O23: the rule of INIT, which is never masked and has no results. -/
theorem initResult : Obligations.InitResult := ⟨decode_encode .init, exec_subOperation rfl rfl⟩

/-- Settles O24: the rule of CPRESET, which is never masked and has no results. -/
theorem cpresetResult : Obligations.CpresetResult := ⟨decode_encode .cpreset, exec_subOperation rfl rfl⟩

/-- Settles O25: the rule of MSTART_BEGIN, which is never masked and has no results. -/
theorem mstartBeginResult : Obligations.MstartBeginResult :=
  ⟨decode_encode .mstartBegin, exec_subOperation rfl rfl⟩

/-- Settles O26: the rule of MSTART_END, which is never masked and has no results. -/
theorem mstartEndResult : Obligations.MstartEndResult :=
  ⟨decode_encode .mstartEnd, exec_subOperation rfl rfl⟩

/-- Settles O27: the rule of MSTOP, which is never masked and has no results. -/
theorem mstopResult : Obligations.MstopResult := ⟨decode_encode .mstop, exec_subOperation rfl rfl⟩

/-- Settles O28: the rule of SLOWLOOP, which is never masked and has no results. -/
theorem slowloopResult : Obligations.SlowloopResult := ⟨decode_encode .slowloop, exec_slowloop⟩

/-- FG leaves what the rule of its application state gives (R153). -/
theorem exec_fg_next (s : State) : exec .fg s = .next (fgState Config.machine s) := by
  rw [exec_eq_performWith, exec_fg (exec_eq_performWith .fg s)]

/-- Settles O29: FG runs the step of Init. -/
theorem fgInInit : Obligations.FgInInit := by
  intro s ha
  rw [exec_fg_next, fgState, ha, initStepState]

/-- Settles O30: FG runs the step of WaitStart. -/
theorem fgInWaitStart : Obligations.FgInWaitStart := by
  intro s ha
  rw [exec_fg_next, fgState, ha]

/-- Settles O31: FG runs the step of Start. -/
theorem fgInStart : Obligations.FgInStart := by
  intro s ha
  rw [exec_fg_next, fgState, ha]

/-- Settles O32: FG runs the step of Running. -/
theorem fgInRunning : Obligations.FgInRunning := by
  intro s ha
  rw [exec_fg_next, fgState, ha]

/-- Settles O33: FG runs the step of StopDecrease. -/
theorem fgInStopDecrease : Obligations.FgInStopDecrease := by
  intro s ha
  rw [exec_fg_next, fgState, ha]

/-- Settles O34: FG runs the step of Stopped. -/
theorem fgInStopped : Obligations.FgInStopped := by
  intro s ha
  rw [exec_fg_next, fgState, ha]

/-! ### What a StopDecrease step can do -/

section
variable {S R : Type} [Field S] [AddCommGroup R] [Module S R]

/-- The StopDecrease step exits, or waits for the gate, or runs a slow loop and keeps or lowers the target
(R186). -/
theorem stopDecreaseState_cases (c : Config S R) (s : State c.widths R) :
    slowEnough c s.ctl.direction s.pos.velEst = true ∧
        stopDecreaseState c s = { s with seq := { s.seq with app := .stopped } } ∨
      slowEnough c s.ctl.direction s.pos.velEst = false ∧
        (gateDue c s.ctl.syncCnt = false ∧ stopDecreaseState c s = s ∨
          ∃ target, (target = s.ctl.velTarget ∨ target = loweredTarget c s.ctl.velTarget) ∧
            stopDecreaseState c s =
              { slowLoopState c (gatedState s) with
                ctl := { (slowLoopState c (gatedState s)).ctl with velTarget := target } }) := by
  rw [slowEnough_eq]
  unfold stopDecreaseState
  split
  next hslow => exact .inl ⟨hslow, rfl⟩
  next hslow =>
    refine .inr ⟨Bool.eq_false_iff.2 hslow, ?_⟩
    split
    next =>
      dsimp only
      split
      next => exact .inr ⟨_, .inr rfl, rfl⟩
      next => exact .inr ⟨_, .inl rfl, rfl⟩
    next hgate => exact .inl ⟨decide_eq_false hgate, rfl⟩

end

/-! ### `sync_cnt` (R138, R165) -/

theorem syncCnt_le_of_ctl {w : Widths} {R : Type} {k k' : Control w R} (h : k' = k) :
    k'.syncCnt.toNat ≤ k.syncCnt.toNat := by
  rw [h]

section
variable {S R : Type} [Field S] [AddCommGroup R] {c : Config S R} {s : State c.widths R}

theorem startStepState_syncCnt_le : (startStepState c s).ctl.syncCnt.toNat ≤ s.ctl.syncCnt.toNat := by
  unfold startStepState
  split
  next => exact Nat.zero_le _
  next => exact syncCnt_le_of_ctl settleState_ctl
  next => split <;> exact syncCnt_le_of_ctl calState_ctl

variable [Module S R]

theorem alignState_syncCnt : (alignState c s).ctl.syncCnt = s.ctl.syncCnt := by
  unfold alignState
  split
  next =>
    split
    next => rfl
    next => split <;> rfl
  next => rfl

theorem angUpdState_syncCnt : (angUpdState c s).ctl.syncCnt = s.ctl.syncCnt := by
  unfold angUpdState
  split
  next => exact alignState_syncCnt
  next => rfl

theorem curLoopState_syncCnt (iD iQ : R) : (curLoopState c iD iQ s).ctl.syncCnt = s.ctl.syncCnt := by
  obtain ⟨x, b, hctl, -⟩ := curLoopState_ctl c iD iQ s
  rw [hctl]

/-- CONTROL counts itself (R138). -/
theorem controlState_syncCnt : (controlState c s).ctl.syncCnt = s.ctl.syncCnt + 1 :=
  congrArg (· + 1) (angUpdState_syncCnt.trans (curLoopState_syncCnt _ _))

theorem runningState_syncCnt_le : (runningState c s).ctl.syncCnt.toNat ≤ s.ctl.syncCnt.toNat := by
  unfold runningState
  split
  next => exact Nat.zero_le _
  next => exact le_rfl

theorem stopDecreaseState_syncCnt_le :
    (stopDecreaseState c s).ctl.syncCnt.toNat ≤ s.ctl.syncCnt.toNat := by
  obtain ⟨-, h⟩ | ⟨-, ⟨-, h⟩ | ⟨target, -, h⟩⟩ := stopDecreaseState_cases c s <;> rw [h]
  exact Nat.zero_le _

theorem fgState_syncCnt_le : (fgState c s).ctl.syncCnt.toNat ≤ s.ctl.syncCnt.toNat := by
  unfold fgState
  split
  next => exact le_rfl
  next => exact le_rfl
  next => exact startStepState_syncCnt_le
  next => exact runningState_syncCnt_le
  next => exact stopDecreaseState_syncCnt_le
  next => exact Nat.zero_le _

/-- Nothing but CONTROL raises `sync_cnt`. -/
theorem ruleState_syncCnt_le {i : Instr} (hi : i ≠ .control) :
    (ruleState c i s).ctl.syncCnt.toNat ≤ s.ctl.syncCnt.toNat := by
  cases i with
  | control => exact absurd rfl hi
  | fg => exact fgState_syncCnt_le
  | sample => exact syncCnt_le_of_ctl sampleState_ctl
  | settlepoll => exact syncCnt_le_of_ctl settleState_ctl
  | calpoll => exact syncCnt_le_of_ctl calState_ctl
  | curloop => exact (congrArg BitVec.toNat (curLoopState_syncCnt _ _)).le
  | angupd => exact (congrArg BitVec.toNat angUpdState_syncCnt).le
  | align => exact (congrArg BitVec.toNat alignState_syncCnt).le
  | cpreset => exact Nat.zero_le _
  | mstartBegin => exact Nat.zero_le _
  | mstop => exact Nat.zero_le _
  | _ => exact le_rfl

end

/-! ### The ticks pay for the slow loops (R165, R228) -/

section
variable {c : Config ℚ Num} {s : State c.widths Num}

/-- A slow loop finds `SLOW_DIV` ticks counted. -/
theorem slowDiv_le_of_slowLoopDue (h : slowLoopDue c s = true) : c.slowDiv ≤ s.ctl.syncCnt.toNat := by
  obtain ⟨hgate, -⟩ := (Bool.and_eq_true _ _).mp h
  exact of_decide_eq_true hgate

/-- The FG step that runs a slow loop clears `sync_cnt`. -/
theorem fgState_syncCnt_of_slowLoopDue (h : slowLoopDue c s = true) : (fgState c s).ctl.syncCnt = 0 := by
  have hdue := slowDiv_le_of_slowLoopDue h
  obtain ⟨hgate, happ⟩ := (Bool.and_eq_true _ _).mp h
  unfold fgState
  split at happ
  next ha =>
    rw [ha]
    dsimp only
    rw [runningState, if_pos hdue]
    rfl
  next ha =>
    rw [ha]
    dsimp only
    obtain ⟨hslow, -⟩ | ⟨-, ⟨hwait, -⟩ | ⟨target, -, hloop⟩⟩ := stopDecreaseState_cases c s
    · simp [hslow] at happ
    · simp [hwait] at hgate
    · rw [hloop]
      rfl
  next => cases happ

end

/-- The slow loop that an event runs. -/
def slowLoopOf (i : Instr) (s : State) : Nat :=
  if i = .fg ∧ slowLoopDue Config.machine s = true then 1 else 0

/-- The admitted CONTROL that an event is. -/
def tickOf (i : Instr) (s : State) : Nat := if i = .control ∧ admitted .control s = true then 1 else 0

theorem slowLoops_cons (e : Instr × MachinePorts) (es : List (Instr × MachinePorts)) (s : State) :
    slowLoops (e :: es) s =
      slowLoopOf e.1 s + slowLoops es (performWith Config.machine e.1 { s with ports := e.2 }) := rfl

theorem admittedControls_cons (e : Instr × MachinePorts) (es : List (Instr × MachinePorts)) (s : State) :
    admittedControls (e :: es) s =
      tickOf e.1 s + admittedControls es (performWith Config.machine e.1 { s with ports := e.2 }) := rfl

theorem counter_succ_le {w : Widths} (x : Ctr w) : (x + 1).toNat ≤ x.toNat + 1 := by
  have hwrap : (x + 1).toNat = (x.toNat + 1) % 2 ^ w.ctr := by simp
  rw [hwrap]
  exact Nat.mod_le _ _

/-- An operation without results is masked or leaves the state of its rule (R203). -/
theorem performWith_of_noResult {i : Instr} (hr : hasResult i = false) (s : State) :
    performWith Config.machine i s = if admitted i s = true then ruleState Config.machine i s else s := by
  rw [performWith, hr, run_opProgram]

/-- What one event does to `sync_cnt`: a slow loop costs `SLOW_DIV` ticks, an admitted CONTROL brings one. -/
theorem performWith_pays (i : Instr) (s : State) :
    Config.machine.slowDiv * slowLoopOf i s + (performWith Config.machine i s).ctl.syncCnt.toNat ≤
      s.ctl.syncCnt.toNat + tickOf i s := by
  by_cases hdue : i = .fg ∧ slowLoopDue Config.machine s = true
  · obtain ⟨rfl, hdue⟩ := hdue
    have hpaid := slowDiv_le_of_slowLoopDue hdue
    have hclear := fgState_syncCnt_of_slowLoopDue hdue
    rw [exec_fg (exec_eq_performWith .fg s), hclear, slowLoopOf, if_pos ⟨rfl, hdue⟩, mul_one]
    exact hpaid.trans (Nat.le_add_right _ _)
  · rw [slowLoopOf, if_neg hdue, mul_zero, zero_add]
    by_cases hi : i = .control
    · subst hi
      rw [performWith_of_noResult rfl]
      split
      next hadm =>
        rw [tickOf, if_pos ⟨rfl, hadm⟩]
        change (controlState Config.machine s).ctl.syncCnt.toNat ≤ _
        rw [controlState_syncCnt]
        exact counter_succ_le _
      next => exact Nat.le_add_right _ _
    · obtain ⟨-, h⟩ | ⟨out, h⟩ := performWith_cases Config.machine i s <;> rw [h]
      · exact Nat.le_add_right _ _
      · rw [record_ctl]
        exact (ruleState_syncCnt_le hi).trans (Nat.le_add_right _ _)

/-- Settles O53, by induction on the sequence: what each event pays is paid out of the ticks before it and
its own. -/
theorem slowLoopsAreRateLimited : Obligations.SlowLoopsAreRateLimited := by
  intro es
  induction es with
  | nil => exact fun s => Nat.zero_le _
  | cons e es ih =>
    intro s
    have hevent : Config.machine.slowDiv * slowLoopOf e.1 s +
        (performWith Config.machine e.1 { s with ports := e.2 }).ctl.syncCnt.toNat ≤
          s.ctl.syncCnt.toNat + tickOf e.1 s := performWith_pays e.1 { s with ports := e.2 }
    have hrest := ih (performWith Config.machine e.1 { s with ports := e.2 })
    rw [slowLoops_cons, admittedControls_cons, mul_add]
    omega

/-! ### Inactivity in Running (R162, R163) -/

section
variable {S R : Type} [AddCommGroup R] {c : Config S R} {s : State c.widths R}

/-- With no button pressed, the button part of Running only moves to the state chosen before it. -/
theorem buttonsState_noButtons (h : s.ports.btn = noButtons) (next : AppState) :
    buttonsState c next s = { s with seq := { s.seq with app := next } } := by
  simp only [buttonsState, commandAfter, h, noButtons]
  rfl

variable [Field S] [Module S R]

/-- A Running step with a slow loop and no button pressed. -/
theorem runningState_inactive (hgate : c.slowDiv ≤ s.ctl.syncCnt.toNat) (h : s.ports.btn = noButtons) :
    runningState c s =
      { inactivityState c s with
        seq :=
          { (inactivityState c s).seq with
            app := if c.inactStop ≤ (s.seq.inactCnt + 1).toNat then .stopDecrease else .running } } := by
  rw [runningState, if_pos hgate]
  exact buttonsState_noButtons (s := inactivityState c s) h _

/-- The indicator stays on, or the count has reached the warning threshold (R163). -/
theorem inactivityState_indIdle :
    (inactivityState c s).per.indIdle = true ↔
      s.per.indIdle = true ∨ c.inactWarn ≤ (s.seq.inactCnt + 1).toNat := by
  change (if c.inactWarn ≤ (s.seq.inactCnt + 1).toNat then true else s.per.indIdle) = true ↔ _
  split
  next hwarn => exact iff_of_true rfl (.inr hwarn)
  next hwarn => exact (or_iff_left hwarn).symm

end

/-- Settles O51: the count goes up by one without wrapping and is compared with both thresholds. -/
theorem inactivityStopsTheMotor : Obligations.InactivityStopsTheMotor := by
  intro s happ hbtn hgate hfit
  have hcount : (s.seq.inactCnt + 1).toNat = s.seq.inactCnt.toNat + 1 :=
    counter_succ hfit (Nat.lt_succ_self _)
  have hstop : Config.machine.inactStop = 60000 := machine_literals.inactStop
  refine ⟨_, fgInRunning s happ, ?_⟩
  rw [runningState_inactive hgate hbtn, hcount, hstop]
  refine ⟨hcount, ?_, ?_, ?_⟩
  · dsimp only
    split
    next hlate => exact iff_of_true rfl hlate
    next hearly => exact iff_of_false nofun hearly
  · dsimp only
    split
    next hlate => exact iff_of_false nofun (not_lt.2 hlate)
    next hearly => exact iff_of_true rfl (not_le.1 hearly)
  · rw [← hcount]
    exact inactivityState_indIdle

/-! ### A limited step toward a bound (R167, R187) -/

/-- `x` comes from `a` by falling toward `b`, not past it, by at most `d` before rounding. -/
structure FallsToward (b a d x : Num) : Prop where
  bound : b.toReal ≤ x.toReal
  falls : x.toReal ≤ a.toReal
  step : (Config.machine.rnd (a - d)).toReal ≤ x.toReal

/-- `x` comes from `a` by rising toward `b`, not past it, by at most `d` before rounding. -/
structure RisesToward (b a d x : Num) : Prop where
  rises : a.toReal ≤ x.toReal
  bound : x.toReal ≤ b.toReal
  step : x.toReal ≤ (Config.machine.rnd (a + d)).toReal

/-- `x` comes from `a` by a step toward `b` from the side on which `a` is. -/
structure MovesToward (b a d x : Num) : Prop where
  down : b.toReal ≤ a.toReal → FallsToward b a d x
  up : a.toReal ≤ b.toReal → RisesToward b a d x

section
variable {a b d x : Num}

theorem fallsToward_self (ha : Config.machine.Representable a) (hd : 0 ≤ d.toReal)
    (hba : b.toReal ≤ a.toReal) : FallsToward b a d a := by
  refine ⟨hba, le_rfl, rnd_le ha ?_⟩
  rw [toReal_sub]
  linarith

theorem risesToward_self (ha : Config.machine.Representable a) (hd : 0 ≤ d.toReal)
    (hab : a.toReal ≤ b.toReal) : RisesToward b a d a := by
  refine ⟨le_rfl, hab, le_rnd ha ?_⟩
  rw [toReal_add]
  linarith

theorem movesToward_self (ha : Config.machine.Representable a) (hd : 0 ≤ d.toReal) :
    MovesToward b a d a :=
  ⟨fallsToward_self ha hd, risesToward_self ha hd⟩

/-- A step from a magnitude toward a magnitude ends in one. -/
theorem MovesToward.nonneg (h : MovesToward b a d x) (hb : 0 ≤ b.toReal) (ha : 0 ≤ a.toReal) :
    0 ≤ x.toReal := by
  obtain hba | hab := le_total b.toReal a.toReal
  · exact hb.trans (h.down hba).bound
  · exact ha.trans (h.up hab).rises

/-- The rounding of the larger of the step down and the bound, both of which the format holds. -/
theorem fallsToward_rampDown (ha : Config.machine.Representable a) (hb : Config.machine.Representable b)
    (hd : 0 ≤ d.toReal) (hba : b.toReal ≤ a.toReal) :
    FallsToward b a d (rampDown Config.machine a d b) := by
  have hmax : (Config.machine.real.max (a - d) b).toReal = max (a.toReal - d.toReal) b.toReal := by
    rw [machine_real, toReal_max, toReal_sub]
  refine ⟨le_rnd hb ?_, rnd_le ha ?_, machine_valid.rounding.mono _ _ ?_⟩ <;> rw [hmax]
  · exact le_max_right _ _
  · exact max_le (by linarith) hba
  · rw [toReal_sub]
    exact le_max_left _ _

/-- The rounding of the smaller of the step up and the bound, both of which the format holds. -/
theorem risesToward_rampUp (ha : Config.machine.Representable a) (hb : Config.machine.Representable b)
    (hd : 0 ≤ d.toReal) (hab : a.toReal ≤ b.toReal) :
    RisesToward b a d (rampUp Config.machine a d b) := by
  have hmin : (Config.machine.real.min (a + d) b).toReal = min (a.toReal + d.toReal) b.toReal := by
    rw [machine_real, toReal_min, toReal_add]
  refine ⟨le_rnd ha ?_, rnd_le hb ?_, machine_valid.rounding.mono _ _ ?_⟩ <;> rw [hmin]
  · exact le_min (by linarith) hab
  · exact min_le_right _ _
  · rw [toReal_add]
    exact min_le_left _ _

end

section
variable {s : State}

theorem fallsToward_keptTarget (hr : RangesOk Config.machine s) (hf : FormatOk Config.machine s) :
    FallsToward 0 s.ctl.velTarget Config.machine.stopDecStep s.ctl.velTarget := by
  obtain ⟨-, -, -, -, hstep, -⟩ := machine_reals
  refine fallsToward_self hf.velTarget hstep.le ?_
  rw [toReal_zero]
  exact hr.velTarget

/-- The lowered target is a ramp down to 0 (R186). -/
theorem fallsToward_loweredTarget (hr : RangesOk Config.machine s) (hf : FormatOk Config.machine s) :
    FallsToward 0 s.ctl.velTarget Config.machine.stopDecStep
      (loweredTarget Config.machine s.ctl.velTarget) := by
  obtain ⟨-, -, -, -, hstep, -⟩ := machine_reals
  refine fallsToward_rampDown hf.velTarget representable_zero hstep.le ?_
  rw [toReal_zero]
  exact hr.velTarget

/-- The ramp of SLOWLOOP (R166, R167). -/
theorem rampedAfter_movesToward (hr : RangesOk Config.machine s) (hf : FormatOk Config.machine s) :
    MovesToward s.ctl.velTarget s.ctl.velRamped s.ctl.rampStep (rampedAfter Config.machine s) := by
  have hstep := hr.rampStep.le
  unfold rampedAfter
  split
  next hlt =>
    rw [machine_real, lt_iff] at hlt
    exact ⟨fun h => absurd h (not_le.2 hlt), risesToward_rampUp hf.velRamped hf.velTarget hstep⟩
  next =>
    split
    next hlt =>
      rw [machine_real, lt_iff] at hlt
      exact ⟨fallsToward_rampDown hf.velRamped hf.velTarget hstep, fun h => absurd h (not_le.2 hlt)⟩
    next => exact movesToward_self hf.velRamped hstep

end

/-! ### StopDecrease (R186, R187) -/

/-- The reference of the velocity PI has the sign of `direction` (R169). -/
theorem velocityReference_sign (d : Direction) {x : Num} (hx : 0 ≤ x.toReal) :
    0 ≤ (signOf d : ℝ) * (velocityReference Config.machine d x).toReal := by
  rw [velocityReference, sign_eq]
  cases d with
  | plus =>
    have h : 0 ≤ (Config.machine.rnd (((signOf .plus : ℤ) : ℚ) • x)).toReal :=
      rnd_nonneg (by simpa [signOf, toReal_smul] using hx)
    simpa [signOf] using h
  | minus =>
    have h : (Config.machine.rnd (((signOf .minus : ℤ) : ℚ) • x)).toReal ≤ (0 : Num).toReal :=
      rnd_le representable_zero (by simpa [signOf, toReal_smul] using hx)
    simpa [signOf] using h

/-- The exit test of StopDecrease as real numbers, with the source's literal (R186; log 4). -/
theorem slowEnough_iff (d : Direction) (v : Num) :
    slowEnough Config.machine d v = true ↔ (signOf d : ℝ) * v.toReal ≤ 110 := by
  rw [slowEnough_eq, machine_real, le_iff, machine_stopSpeedTh, toReal_smul, toReal_ofRat]
  norm_num

/-- What a StopDecrease step does to the target and to `vel_ramped`: the exit and the wait keep both, a slow
loop runs the ramp and keeps or lowers the target (R187). -/
theorem stopDecreaseState_moves {s : State} (hr : RangesOk Config.machine s)
    (hf : FormatOk Config.machine s) :
    FallsToward 0 s.ctl.velTarget Config.machine.stopDecStep
        (stopDecreaseState Config.machine s).ctl.velTarget ∧
      MovesToward s.ctl.velTarget s.ctl.velRamped s.ctl.rampStep
        (stopDecreaseState Config.machine s).ctl.velRamped := by
  have hkept := fallsToward_keptTarget hr hf
  have hstill : MovesToward s.ctl.velTarget s.ctl.velRamped s.ctl.rampStep s.ctl.velRamped :=
    movesToward_self hf.velRamped hr.rampStep.le
  obtain ⟨-, h⟩ | ⟨-, ⟨-, h⟩ | ⟨target, htarget, h⟩⟩ := stopDecreaseState_cases Config.machine s <;> rw [h]
  · exact ⟨hkept, hstill⟩
  · exact ⟨hkept, hstill⟩
  · refine ⟨?_, rampedAfter_movesToward hr hf⟩
    obtain rfl | rfl := htarget
    · exact hkept
    · exact fallsToward_loweredTarget hr hf

/-- Settles O52: the two moves read off; `vel_ramped` stays a magnitude, so the reference has the sign of
`direction`; and the exit is the first branch of the step. -/
theorem stopDecreaseNeverRaisesTheTarget : Obligations.StopDecreaseNeverRaisesTheTarget := by
  intro s happ hr hf
  refine ⟨_, fgInStopDecrease s happ, ?_⟩
  obtain ⟨htarget, hramped⟩ := stopDecreaseState_moves hr hf
  have hlow := htarget.bound
  rw [toReal_zero] at hlow
  refine ⟨⟨htarget.falls, hlow, htarget.step⟩,
    fun h => ⟨(hramped.down h).bound, (hramped.down h).falls, (hramped.down h).step⟩,
    fun h => ⟨(hramped.up h).rises, (hramped.up h).bound, (hramped.up h).step⟩, ?_, fun hslow => ?_⟩
  · rw [stopDecreaseState_direction]
    exact velocityReference_sign _ (hramped.nonneg hr.velTarget hr.velRamped)
  · rw [stopDecreaseState, if_pos]
    rwa [← slowEnough_eq, slowEnough_iff]

end Sys2Proof.Safety
end

section
/-! PROOFS. The ownership of the registers (O55). For each agent a function that takes the registers its event
may write from a second state and leaves the rest as they stand; an event keeps to its registers when the
state it leaves is its own overlay on the state it found. The overlays compose, so a rule that runs others in
turn keeps to its registers when each of them does. -/

namespace Sys2Proof.Safety

open Sys2Proof Sys2Proof.Machine Sys2Proof.Laws

/-! ### SAMPLE -/

section
variable {S R : Type} (c : Config S R) (s : State c.widths R)

/-- SAMPLE writes the filter registers alone. -/
theorem sampleState_frame : sampleState c s = { s with filt := (sampleState c s).filt } := by
  unfold sampleState
  dsimp only
  split <;> rfl

end

/-! ### CONTROL -/

section
variable {w : Widths} {R : Type}

/-- `s` with the registers of `t` that CONTROL may write: the column "C writes" of 10_state.md section 9,
`iq_ref`, `pi_vel` and the duties. -/
def withControlOf (s t : State w R) : State w R :=
  { s with
    pos := { t.pos with velEst := s.pos.velEst }
    ctl :=
      { s.ctl with
        mode := t.ctl.mode
        changeMode := t.ctl.changeMode
        alignActive := t.ctl.alignActive
        lockCnt := t.ctl.lockCnt
        rotCnt := t.ctl.rotCnt
        idRef := t.ctl.idRef
        iqRef := t.ctl.iqRef
        syncCnt := t.ctl.syncCnt }
    loops := t.loops
    duty := t.duty }

theorem withControlOf_self (s : State w R) : withControlOf s s = s := rfl

theorem withControlOf_withControlOf (s t u : State w R) :
    withControlOf (withControlOf s t) u = withControlOf s u := rfl

/-- Two rules in turn keep to the registers of CONTROL when each of them does. -/
theorem eq_withControlOf_trans {s t u : State w R} (hst : t = withControlOf s t)
    (htu : u = withControlOf t u) : u = withControlOf s u :=
  calc
    u = withControlOf t u := htu
    _ = withControlOf (withControlOf s t) u := congrArg (withControlOf · u) hst
    _ = withControlOf s u := withControlOf_withControlOf s t u

end

section
variable {S R : Type} [Field S] [AddCommGroup R] [Module S R] (c : Config S R) (s : State c.widths R)

theorem curLoopState_eq_withControlOf (iD iQ : R) :
    curLoopState c iD iQ s = withControlOf s (curLoopState c iD iQ s) := by
  unfold curLoopState curLoopRefs
  split
  next => rfl
  next => split <;> rfl

theorem alignState_eq_withControlOf : alignState c s = withControlOf s (alignState c s) := by
  unfold alignState
  split
  next =>
    split
    next => rfl
    next => split <;> rfl
  next => rfl

theorem angUpdState_eq_withControlOf : angUpdState c s = withControlOf s (angUpdState c s) := by
  unfold angUpdState
  split
  next => exact alignState_eq_withControlOf c s
  next => rfl

/-- CONTROL runs CURLOOP and ANGUPD, then writes the duties and `sync_cnt` (R119, R138). -/
theorem controlState_eq_withControlOf : controlState c s = withControlOf s (controlState c s) := by
  have hloop := curLoopState_eq_withControlOf c s (rotorCurrents c s).1 (rotorCurrents c s).2
  have hangle := eq_withControlOf_trans hloop (angUpdState_eq_withControlOf c _)
  exact eq_withControlOf_trans hangle rfl

end

/-! ### FG -/

section
variable {w : Widths} {R : Type}

/-- `s` with the registers of `t` that an FG step may write outside Start and Stopped: the velocity pair,
the commands, what the slow loop and the gate write, the sequencer and the peripherals. -/
def withSchedulerOf (s t : State w R) : State w R :=
  { s with
    pos := { s.pos with velEst := t.pos.velEst, velPrevRaw := t.pos.velPrevRaw }
    ctl :=
      { t.ctl with
        mode := s.ctl.mode
        changeMode := s.ctl.changeMode
        alignActive := s.ctl.alignActive
        lockCnt := s.ctl.lockCnt
        rotCnt := s.ctl.rotCnt
        idRef := s.ctl.idRef }
    loops := { s.loops with vel := t.loops.vel }
    seq := t.seq
    per := t.per }

/-- `s` with the registers of `t` that MSTOP and the Stopped step may write (R177, R188). -/
def withStopOf (s t : State w R) : State w R :=
  { s with ctl := t.ctl, loops := t.loops, seq := t.seq, per := t.per }

/-- `s` with the registers of `t` that the start sequence may write (R160). -/
def withStartOf (s t : State w R) : State w R :=
  { withStopOf s t with cal := t.cal, pos := t.pos, faultClr := t.faultClr }

end

section
variable {S R : Type} (c : Config S R) (s : State c.widths R)

theorem settleState_eq_withStartOf : settleState c s = withStartOf s (settleState c s) := by
  unfold settleState
  split <;> rfl

variable [Field S]

theorem calState_eq_withStartOf : calState c s = withStartOf s (calState c s) := by
  unfold calState
  dsimp only
  split
  next => rfl
  next => split <;> rfl

variable [AddCommGroup R]

theorem startStepState_eq_withStartOf : startStepState c s = withStartOf s (startStepState c s) := by
  have hcal := calState_eq_withStartOf c s
  unfold startStepState
  split
  next => rfl
  next => exact settleState_eq_withStartOf c s
  next =>
    split
    next => exact congrArg (fun u => { mstartEndState u with seq := ⟨.running, .idle, 0⟩ }) hcal
    next => exact hcal

variable [Module S R]

theorem runningState_eq_withSchedulerOf : runningState c s = withSchedulerOf s (runningState c s) := by
  unfold runningState
  split <;> rfl

theorem stopDecreaseState_eq_withSchedulerOf :
    stopDecreaseState c s = withSchedulerOf s (stopDecreaseState c s) := by
  obtain ⟨-, h⟩ | ⟨-, ⟨-, h⟩ | ⟨target, -, h⟩⟩ := stopDecreaseState_cases c s <;> rw [h] <;> rfl

/-- What an FG step may write: the registers of the start sequence in Start, those of MSTOP in Stopped, and
those of the scheduler everywhere else (R153). -/
theorem fgState_overlay :
    s.seq.app = .start ∧ fgState c s = withStartOf s (fgState c s) ∨
      s.seq.app = .stopped ∧ fgState c s = withStopOf s (fgState c s) ∨
        fgState c s = withSchedulerOf s (fgState c s) := by
  unfold fgState
  split
  next => exact .inr (.inr rfl)
  next => exact .inr (.inr rfl)
  next ha => exact .inl ⟨ha, startStepState_eq_withStartOf c s⟩
  next => exact .inr (.inr (runningState_eq_withSchedulerOf c s))
  next => exact .inr (.inr (stopDecreaseState_eq_withSchedulerOf c s))
  next ha => exact .inr (.inl ⟨ha, rfl⟩)

end

/-! ### The statement -/

/-- An operation without results is masked or leaves the state of its rule (R203). -/
theorem exec_noResult_cases {i : Instr} (hr : hasResult i = false) {s t : State}
    (h : exec i s = .next t) : t = s ∨ t = ruleState Config.machine i s := by
  rw [exec_eq_performWith, performWith_of_noResult hr] at h
  cases h
  split
  next => exact .inr rfl
  next => exact .inl rfl

/-- Settles O55: a masked interrupt changes nothing, and what each rule leaves is its own overlay on the state
it found, whose other registers are read off. -/
theorem agentsWriteOnlyTheirRegisters : Obligations.AgentsWriteOnlyTheirRegisters := by
  refine ⟨fun s t h => ?_, fun s t h => ?_, fun s t h => ?_⟩
  · obtain rfl | rfl := exec_noResult_cases rfl h
    · rfl
    · exact sampleState_frame Config.machine s
  · obtain rfl | rfl := exec_noResult_cases rfl h
    · exact (withControlOf_self t).symm
    · exact controlState_eq_withControlOf Config.machine s
  · have hfg := fgState_overlay Config.machine s
    rw [← exec_fg h] at hfg
    obtain ⟨happ, hstart⟩ | ⟨happ, hstop⟩ | hrun := hfg
    · rw [hstart]
      exact ⟨rfl, rfl, rfl, fun hne => absurd happ hne, fun hne _ => absurd happ hne⟩
    · rw [hstop]
      exact ⟨rfl, rfl, rfl, fun _ => ⟨rfl, rfl⟩, fun _ hne => absurd happ hne⟩
    · rw [hrun]
      exact ⟨rfl, rfl, rfl, fun _ => ⟨rfl, rfl⟩, fun _ _ => ⟨rfl, rfl, rfl, rfl, rfl, rfl, rfl, rfl⟩⟩

end Sys2Proof.Safety
end

section
/-! PROOFS. Reset and the hazards of the polls and of the position counter (O9, O39, O42). First `rst`, which
comes before everything else in a step; then the two waits of the start sequence, where a poll that finds
nothing new leaves the state as it is; then the wrap detector, whose thresholds tell a counter that passed
its end from one that did not as long as the movement keeps to the bound of R231: the 65536 counts it puts
into the compensation are then exactly those that the reading lost. -/

namespace Sys2Proof.Safety

open Sys2Proof Sys2Proof.Machine Sys2Proof.Laws

/-! ### `rst` (R217) -/

/-- `rst` goes before the grain, the event on the port and the operations in progress (R217, log 9). -/
theorem step_rst {s : State} (hr : s.ports.rst = true) : step s = .next (present (powerUp s)) :=
  if_pos hr

/-- Settles O9: a step with `rst` asserted is `powerUp`, and the stimulus presented after it touches ports
and schedule alone. -/
theorem resetPutsRegistersInTheirValues : Obligations.ResetPutsRegistersInTheirValues := fun s hr =>
  ⟨present (powerUp s), step_rst hr, rfl, rfl, rfl, rfl, rfl, rfl⟩

/-! ### The waits of the start sequence (R99, R100, R226) -/

section
variable {S R : Type} {c : Config S R} {s : State c.widths R}

theorem settleState_of_waiting (h : (s.filt.outCnt - s.cal.waitBase).toNat < c.nSettle) :
    settleState c s = s := if_neg h.not_ge

theorem calDone_of_noSample (h : s.filt.outCnt = s.cal.lastSeen) : calDone c s = false := by
  rw [calDone, decide_eq_false (not_not.2 h), Bool.false_and]

variable [Field S]

theorem calState_of_noSample (h : s.filt.outCnt = s.cal.lastSeen) : calState c s = s := if_pos h

variable [AddCommGroup R]

theorem startStepState_of_waiting (hphase : s.seq.fgPhase = .settle)
    (h : (s.filt.outCnt - s.cal.waitBase).toNat < c.nSettle) : startStepState c s = s := by
  rw [startStepState, hphase]
  exact settleState_of_waiting h

theorem startStepState_of_noSample (hphase : s.seq.fgPhase = .cal)
    (h : s.filt.outCnt = s.cal.lastSeen) : startStepState c s = s := by
  simp only [startStepState, hphase, calDone_of_noSample h, Bool.false_eq_true, if_false]
  exact calState_of_noSample h

end

/-- Settles O39: FG in Start is a poll of the wait it stands in, and neither poll finds anything new. -/
theorem pollWithoutSamplesChangesNothing : Obligations.PollWithoutSamplesChangesNothing := by
  intro s ha hwait
  rw [fgInStart s ha]
  obtain ⟨hphase, hfew⟩ | ⟨hphase, hnone⟩ := hwait
  · rw [startStepState_of_waiting hphase hfew]
  · rw [startStepState_of_noSample hphase hnone]

/-! ### The wrap detector (R106, R231) -/

section
variable {S R : Type} (c : Config S R) (prev raw : Pos)

/-- The passes of the position counter over its end that the wrap detector finds between two readings: 1 up,
-1 down, 0 none (R106). -/
def turnsFound : Int := if wrappedUp c prev raw then 1 else if wrappedDown c prev raw then -1 else 0

/-- POSUPD adds 65536 counts to the compensation for each pass it finds (R104). -/
theorem compAfter_modEq (hp : 0 < c.pper) (comp : Nat) :
    (compAfter c prev raw comp : Int) ≡ comp + 65536 * turnsFound c prev raw [ZMOD c.pper] := by
  have hne : (c.pper : Int) ≠ 0 := by omega
  simp only [compAfter, turnsFound, wrappedUp, wrappedDown, Bool.and_eq_true, decide_eq_true_eq]
  split
  next =>
    push_cast
    exact Int.mod_modEq _ _
  next =>
    split
    next =>
      rw [Int.toNat_of_nonneg (Int.emod_nonneg _ hne)]
      exact Int.mod_modEq _ _
    next =>
      push_cast
      simpa using Int.mod_modEq (comp : Int) c.pper

variable [Field S] [AddCommGroup R] [Module S R]

/-- Modulo `PPER` the compensated count is the reading, the old compensation and 65536 counts for each pass
found (R104, R109). -/
theorem posUpdState_count_modEq (hp : 0 < c.pper) (s : State c.widths R) :
    ((posUpdState c s).pos.count : Int) ≡
      s.ports.posCnt.toNat + (s.pos.comp + 65536 * turnsFound c s.pos.prev s.ports.posCnt)
        [ZMOD c.pper] := by
  rw [posUpdState]
  push_cast
  exact (Int.mod_modEq _ _).trans ((compAfter_modEq c _ _ hp _).add_left _)

end

section
variable {prev raw : Pos} {d : Int}

/-- The reading after a movement `d` is the sum of `prev` and `d`, less or plus one turn where the sum leaves
the counter's range. -/
theorem reading_cases (hd : d.natAbs ≤ 65536) (hraw : raw = BitVec.ofInt POS_W (prev.toNat + d)) :
    (0 ≤ prev.toNat + d ∧ prev.toNat + d < 65536 ∧ (raw.toNat : Int) = prev.toNat + d) ∨
      (65536 ≤ prev.toNat + d ∧ (raw.toNat : Int) = prev.toNat + d - 65536) ∨
        prev.toNat + d < 0 ∧ (raw.toNat : Int) = prev.toNat + d + 65536 := by
  have hprev : prev.toNat < 65536 := prev.isLt
  have hmod : (raw.toNat : Int) = (prev.toNat + d) % 65536 := by
    rw [hraw, BitVec.toNat_ofInt]
    exact Int.toNat_of_nonneg (Int.emod_nonneg _ (by decide))
  omega

/-- What the bound says of `d` against each threshold (R231). -/
theorem le_movementBound_iff {c : Config ℚ Num} :
    d.natAbs ≤ movementBound c ↔ d.natAbs ≤ c.posLowerTh ∧ d.natAbs ≤ 65535 - c.posUpperTh ∧
      d.natAbs ≤ c.posUpperTh - c.posLowerTh := by
  rw [movementBound, le_min_iff, le_min_iff]

end

section
variable {prev raw : Pos} {d : Int} (hd : d.natAbs ≤ movementBound Config.machine)
  (hraw : raw = BitVec.ofInt POS_W (prev.toNat + d))
include hd hraw

/-- Inside the bound each branch of the detector is taken exactly when the counter passed that end: a
movement that passed none is too short to reach from one band into the other. -/
theorem wrapped_iff :
    (wrappedUp Config.machine prev raw = true ↔ 65536 ≤ (prev.toNat : Int) + d) ∧
      (wrappedDown Config.machine prev raw = true ↔ (prev.toNat : Int) + d < 0) := by
  obtain ⟨-, -, -, -, -, -, -, horder, hupper, -⟩ := machine_integers
  obtain ⟨hlow, htop, hgap⟩ := le_movementBound_iff.1 hd
  have hprev : prev.toNat < 65536 := prev.isLt
  have hcases := reading_cases (by omega) hraw
  simp only [wrappedUp, wrappedDown, Bool.and_eq_true, decide_eq_true_eq]
  constructor <;> omega

/-- With the passes that the detector finds the reading is the true position. -/
theorem reading_add_turnsFound :
    (raw.toNat : Int) + 65536 * turnsFound Config.machine prev raw = prev.toNat + d := by
  obtain ⟨hlow, htop, hgap⟩ := le_movementBound_iff.1 hd
  obtain ⟨hup, hdown⟩ := wrapped_iff hd hraw
  have hcases := reading_cases (by omega) hraw
  simp only [turnsFound, hup, hdown]
  split
  next => omega
  next => split <;> omega

end

/-- The compensated count that POSUPD leaves moves by the true movement (R231). -/
theorem posUpdState_count_of_movement {s : State} {d : Int} (hd : d.natAbs ≤ movementBound Config.machine)
    (hraw : s.ports.posCnt = BitVec.ofInt POS_W (s.pos.prev.toNat + d))
    (hcount : s.pos.count = (s.pos.prev.toNat + s.pos.comp) % Config.machine.pper) :
    ((posUpdState Config.machine s).pos.count : Int) ≡ s.pos.count + d [ZMOD Config.machine.pper] := by
  have hold : (s.pos.count : Int) ≡ s.pos.prev.toNat + s.pos.comp [ZMOD Config.machine.pper] := by
    rw [hcount]
    push_cast
    exact Int.mod_modEq _ _
  have hmoved := reading_add_turnsFound hd hraw
  calc
    ((posUpdState Config.machine s).pos.count : Int)
    _ ≡ s.ports.posCnt.toNat + (s.pos.comp + 65536 * turnsFound Config.machine s.pos.prev s.ports.posCnt)
        [ZMOD Config.machine.pper] := posUpdState_count_modEq _ pper_pos s
    _ = s.pos.prev.toNat + s.pos.comp + d := by omega
    _ ≡ s.pos.count + d [ZMOD Config.machine.pper] := hold.symm.add_right _

/-- Settles O42: the thresholds tell the two wraps apart from every movement inside the bound, and the count
is a remainder modulo `PPER` of what it was plus the movement. -/
theorem movementInsideTheBoundIsTracked : Obligations.MovementInsideTheBoundIsTracked := by
  intro s d hd hraw hcount
  obtain ⟨hup, hdown⟩ := wrapped_iff hd hraw
  refine ⟨hup, hdown, posUpdState Config.machine s, exec_posupd s, ?_⟩
  have hlt : (posUpdState Config.machine s).pos.count < Config.machine.pper := Nat.mod_lt _ pper_pos
  calc
    ((posUpdState Config.machine s).pos.count : Int)
    _ = (posUpdState Config.machine s).pos.count % Config.machine.pper :=
      (Int.emod_eq_of_lt (by omega) (by omega)).symm
    _ = (s.pos.count + d) % Config.machine.pper := posUpdState_count_of_movement hd hraw hcount

end Sys2Proof.Safety
end
